-- ==== Sys2Proof/Word.lean ====
section
/-! DEFINITION. The types of octets, octet strings, bus words and integer registers (00_scope.md R5, R7). -/

namespace Sys2Proof

/-- An octet (R5). -/
abbrev Byte := BitVec 8

/-- A 32-bit bus word or control register (R7, 20_memory.md R65). -/
abbrev Word := BitVec 32

/-- A 16-bit byte offset into the register space (20_memory.md R60). -/
abbrev Offset := BitVec 16

/-- An octet string; index 0 is the leftmost octet (R5). -/
abbrev Bytes := List Byte

/-- The value of an integer register of `8 * KMAX` = 4096 bits (10_state.md R27, R28). -/
abbrev BigWord := BitVec 4096

end Sys2Proof
end

