-- ==== Sys2Proof/Config.lean ====
section
/-! DEFINITION. What one CKPAD is built with: capacities, the digest table, the DIGEST port and the RNG port
(00_scope.md R4, R9, R10, R11, R14). -/

namespace Sys2Proof

/-- The digest algorithms accepted (R4 HASHSET, 10_state.md R31). -/
inductive HashAlg
  | sha224 | sha256 | sha384 | sha512
  deriving DecidableEq, Repr

/-- A digest as the padding rules see it: an output length, the octet at each index of the digest of a string, and
the DigestInfo prefix. The digest itself is `Digest.hash`, whose length is `hLen` by construction (R10). -/
structure Digest where
  hLen : Nat
  octet : Bytes → Nat → Byte
  infoPrefix : Bytes

/-- `Hash(X)`: `hLen` octets, a function of `X` alone (R10). -/
def Digest.hash (D : Digest) (x : Bytes) : Bytes := (List.range D.hLen).map (D.octet x)

namespace Config

/-- `KMAX`: capacity in octets of AUX, EM, OUT, XI and the key registers (R4; log 8). -/
def kMax : Nat := 512

/-- `MMAX`: capacity in octets of MSG (R4; log 8). -/
def mMax : Nat := 4096

/-- `LMAX`: capacity in octets of LBL (R4; log 8). -/
def lMax : Nat := 512

/-- `hLen` (R9). PRESUMED, unsafe: the spec takes the four lengths from general knowledge (log 6). -/
def hLen : HashAlg → Nat
  | .sha224 => 28
  | .sha256 => 32
  | .sha384 => 48
  | .sha512 => 64

/-- The DIGEST port: octet `i` of the digest of `x`. The spec leaves the function uninterpreted (R10, U1; log 5). -/
opaque digestOctet : HashAlg → Bytes → Nat → Byte

/-- `DigestAlgorithmOID(alg)`, the DigestInfo prefix (R11). PRESUMED, unsafe: the octets are general knowledge (log 7). -/
def infoPrefix : HashAlg → Bytes
  | .sha224 => [0x30, 0x2d, 0x30, 0x0d, 0x06, 0x09, 0x60, 0x86, 0x48, 0x01, 0x65, 0x03, 0x04, 0x02, 0x04, 0x05, 0x00, 0x04, 0x1c]
  | .sha256 => [0x30, 0x31, 0x30, 0x0d, 0x06, 0x09, 0x60, 0x86, 0x48, 0x01, 0x65, 0x03, 0x04, 0x02, 0x01, 0x05, 0x00, 0x04, 0x20]
  | .sha384 => [0x30, 0x41, 0x30, 0x0d, 0x06, 0x09, 0x60, 0x86, 0x48, 0x01, 0x65, 0x03, 0x04, 0x02, 0x02, 0x05, 0x00, 0x04, 0x30]
  | .sha512 => [0x30, 0x51, 0x30, 0x0d, 0x06, 0x09, 0x60, 0x86, 0x48, 0x01, 0x65, 0x03, 0x04, 0x02, 0x03, 0x05, 0x00, 0x04, 0x40]

/-- The digest that an algorithm code selects (R9 to R11). -/
def digest (alg : HashAlg) : Digest := ⟨hLen alg, digestOctet alg, infoPrefix alg⟩

/-- The RNG port: octet `i` of the `n`-th draw. A free value: nothing constrains it (R14, U5; log 4). -/
opaque rngOctet : Nat → Nat → Byte

/-- The RNG port's non-zero octets: octet `i` of the `n`-th non-zero draw is this plus 1. A free value (R14, U14; log 4). -/
opaque rngNonzero : Nat → Nat → Fin 255

/-- `draw(len)`, taken as the `n`-th draw (R14). -/
def draw (n len : Nat) : Bytes := (List.range len).map (rngOctet n)

/-- `draw_nonzero(len)`, taken as the `n`-th draw: no octet is 0x00 (R14). -/
def drawNonzero (n len : Nat) : Bytes := (List.range len).map fun i => BitVec.ofNat 8 ((rngNonzero n i).val + 1)

end Config

end Sys2Proof
end

