-- ==== Sys2Proof/Syntax.lean ====
section
/-! DEFINITION. The 24 commands (30_encoding.md R80 to R84) as syntax. -/

namespace Sys2Proof

/-- The two formats of rule R82: N does not use `LEN`, L does. -/
inductive Format
  | n | l
  deriving DecidableEq, Repr

/-- The 24 mnemonics of rule R84. -/
inductive Opcode
  | clear | i2osp | os2ip | rsaep | rsadp | rsasp1 | rsavp1 | cmpem
  | mgf1
  | oaepEnc | oaepDec | oaepEncrypt | oaepDecrypt
  | p1eEnc | p1eDec | pkcs1Encrypt | pkcs1Decrypt
  | pssEnc | pssVfy | pssSign | pssVerify
  | p1sEnc | pkcs1Sign | pkcs1Verify
  deriving DecidableEq, Repr

/-- A command with the fields its row of rule R84 lists: `fix` is bit `FIX` (R81: take the seed, `PS` or salt from
AUX), `sel` is bit `SEL`, `len` is the immediate `LEN` (an unsigned integer, R83). -/
inductive Instr
  | clear (sel : Bool)
  | i2osp (sel : Bool) (len : Nat)
  | os2ip (sel : Bool)
  | rsaep
  | rsadp
  | rsasp1
  | rsavp1
  | cmpem
  | mgf1 (len : Nat)
  | oaepEnc (fix : Bool) (len : Nat)
  | oaepDec (len : Nat)
  | oaepEncrypt (fix : Bool)
  | oaepDecrypt
  | p1eEnc (fix : Bool) (len : Nat)
  | p1eDec (len : Nat)
  | pkcs1Encrypt (fix : Bool)
  | pkcs1Decrypt
  | pssEnc (fix : Bool) (len : Nat)
  | pssVfy (len : Nat)
  | pssSign (fix : Bool)
  | pssVerify
  | p1sEnc (len : Nat)
  | pkcs1Sign
  | pkcs1Verify
  deriving DecidableEq, Repr

namespace Instr

/-- The mnemonic a command stands under in rule R84. -/
def opcode : Instr → Opcode
  | clear _ => .clear
  | i2osp _ _ => .i2osp
  | os2ip _ => .os2ip
  | rsaep => .rsaep
  | rsadp => .rsadp
  | rsasp1 => .rsasp1
  | rsavp1 => .rsavp1
  | cmpem => .cmpem
  | mgf1 _ => .mgf1
  | oaepEnc _ _ => .oaepEnc
  | oaepDec _ => .oaepDec
  | oaepEncrypt _ => .oaepEncrypt
  | oaepDecrypt => .oaepDecrypt
  | p1eEnc _ _ => .p1eEnc
  | p1eDec _ => .p1eDec
  | pkcs1Encrypt _ => .pkcs1Encrypt
  | pkcs1Decrypt => .pkcs1Decrypt
  | pssEnc _ _ => .pssEnc
  | pssVfy _ => .pssVfy
  | pssSign _ => .pssSign
  | pssVerify => .pssVerify
  | p1sEnc _ => .p1sEnc
  | pkcs1Sign => .pkcs1Sign
  | pkcs1Verify => .pkcs1Verify

/-- The `FIX` bit of a command; 0 where the row lists no F (R84). -/
def fix : Instr → Bool
  | oaepEnc f _ | oaepEncrypt f | p1eEnc f _ | pkcs1Encrypt f | pssEnc f _ | pssSign f => f
  | clear _ | i2osp _ _ | os2ip _ | rsaep | rsadp | rsasp1 | rsavp1 | cmpem | mgf1 _ | oaepDec _ | oaepDecrypt
  | p1eDec _ | pkcs1Decrypt | pssVfy _ | pssVerify | p1sEnc _ | pkcs1Sign | pkcs1Verify => false

/-- The `SEL` bit of a command; 0 where the row lists no S (R84). -/
def sel : Instr → Bool
  | clear b | i2osp b _ | os2ip b => b
  | rsaep | rsadp | rsasp1 | rsavp1 | cmpem | mgf1 _ | oaepEnc _ _ | oaepDec _ | oaepEncrypt _ | oaepDecrypt
  | p1eEnc _ _ | p1eDec _ | pkcs1Encrypt _ | pkcs1Decrypt | pssEnc _ _ | pssVfy _ | pssSign _ | pssVerify
  | p1sEnc _ | pkcs1Sign | pkcs1Verify => false

/-- The `LEN` immediate of a command; 0 in N-format (R82). -/
def len : Instr → Nat
  | i2osp _ n | mgf1 n | oaepEnc _ n | oaepDec n | p1eEnc _ n | p1eDec n | pssEnc _ n | pssVfy n | p1sEnc n => n
  | clear _ | os2ip _ | rsaep | rsadp | rsasp1 | rsavp1 | cmpem | oaepEncrypt _ | oaepDecrypt | pkcs1Encrypt _
  | pkcs1Decrypt | pssSign _ | pssVerify | pkcs1Sign | pkcs1Verify => 0

end Instr

end Sys2Proof
end

