-- ==== Sys2Proof/WellFormed.lean ====
section
/-! DEFINITION. When a command term stands for a command word: its `LEN` is an unsigned 16-bit integer
(30_encoding.md R83). The other fields are bits, so their types already hold the rest. -/

namespace Sys2Proof

/-- `LEN` fits the 16-bit field `w[31:16]` (R81, R83). -/
def Instr.wellFormed (i : Instr) : Bool := decide (i.len < 2 ^ 16)

end Sys2Proof
end

