-- ==== Sys2Proof/Decode.lean ====
section
/-! DEFINITION. The opcode map, the decoder (total on all 2^32 words), the encoder and the assembler notation
(30_encoding.md R81 to R88). -/

namespace Sys2Proof

/-- `OPC` of a mnemonic (R84). -/
def Opcode.code : Opcode → BitVec 8
  | .clear => 0x01
  | .i2osp => 0x10
  | .os2ip => 0x11
  | .rsaep => 0x12
  | .rsadp => 0x13
  | .rsasp1 => 0x14
  | .rsavp1 => 0x15
  | .cmpem => 0x16
  | .mgf1 => 0x20
  | .oaepEnc => 0x30
  | .oaepDec => 0x31
  | .oaepEncrypt => 0x32
  | .oaepDecrypt => 0x33
  | .p1eEnc => 0x40
  | .p1eDec => 0x41
  | .pkcs1Encrypt => 0x42
  | .pkcs1Decrypt => 0x43
  | .pssEnc => 0x50
  | .pssVfy => 0x51
  | .pssSign => 0x52
  | .pssVerify => 0x53
  | .p1sEnc => 0x60
  | .pkcs1Sign => 0x62
  | .pkcs1Verify => 0x63

/-- The format of a mnemonic (R84). -/
def Opcode.format : Opcode → Format
  | .i2osp | .mgf1 | .oaepEnc | .oaepDec | .p1eEnc | .p1eDec | .pssEnc | .pssVfy | .p1sEnc => .l
  | .clear | .os2ip | .rsaep | .rsadp | .rsasp1 | .rsavp1 | .cmpem | .oaepEncrypt | .oaepDecrypt | .pkcs1Encrypt
  | .pkcs1Decrypt | .pssSign | .pssVerify | .pkcs1Sign | .pkcs1Verify => .n

/-- Whether the row of a mnemonic lists F (R84). -/
def Opcode.hasFix : Opcode → Bool
  | .oaepEnc | .oaepEncrypt | .p1eEnc | .pkcs1Encrypt | .pssEnc | .pssSign => true
  | .clear | .i2osp | .os2ip | .rsaep | .rsadp | .rsasp1 | .rsavp1 | .cmpem | .mgf1 | .oaepDec | .oaepDecrypt
  | .p1eDec | .pkcs1Decrypt | .pssVfy | .pssVerify | .p1sEnc | .pkcs1Sign | .pkcs1Verify => false

/-- Whether the row of a mnemonic lists S (R84). -/
def Opcode.hasSel : Opcode → Bool
  | .clear | .i2osp | .os2ip => true
  | .rsaep | .rsadp | .rsasp1 | .rsavp1 | .cmpem | .mgf1 | .oaepEnc | .oaepDec | .oaepEncrypt | .oaepDecrypt
  | .p1eEnc | .p1eDec | .pkcs1Encrypt | .pkcs1Decrypt | .pssEnc | .pssVfy | .pssSign | .pssVerify | .p1sEnc
  | .pkcs1Sign | .pkcs1Verify => false

/-- The 24 mnemonics, in the order of rule R84. -/
def Opcode.all : List Opcode :=
  [.clear, .i2osp, .os2ip, .rsaep, .rsadp, .rsasp1, .rsavp1, .cmpem, .mgf1, .oaepEnc, .oaepDec, .oaepEncrypt,
   .oaepDecrypt, .p1eEnc, .p1eDec, .pkcs1Encrypt, .pkcs1Decrypt, .pssEnc, .pssVfy, .pssSign, .pssVerify, .p1sEnc,
   .pkcs1Sign, .pkcs1Verify]

/-- `match` of a mnemonic's pattern (R85). -/
def Opcode.matchWord (o : Opcode) : Word := o.code.setWidth 32

/-- `mask` of a mnemonic's pattern (R85). -/
def Opcode.maskWord (o : Opcode) : Word :=
  0x0000FCFF ||| (if o.hasFix then 0 else 0x00000100) ||| (if o.hasSel then 0 else 0x00000200)
    ||| (match o.format with | .n => 0xFFFF0000 | .l => 0)

/-- The command of a mnemonic with given fields; a field the mnemonic does not use is dropped. -/
def Opcode.build (o : Opcode) (fix sel : Bool) (len : Nat) : Instr :=
  match o with
  | .clear => .clear sel
  | .i2osp => .i2osp sel len
  | .os2ip => .os2ip sel
  | .rsaep => .rsaep
  | .rsadp => .rsadp
  | .rsasp1 => .rsasp1
  | .rsavp1 => .rsavp1
  | .cmpem => .cmpem
  | .mgf1 => .mgf1 len
  | .oaepEnc => .oaepEnc fix len
  | .oaepDec => .oaepDec len
  | .oaepEncrypt => .oaepEncrypt fix
  | .oaepDecrypt => .oaepDecrypt
  | .p1eEnc => .p1eEnc fix len
  | .p1eDec => .p1eDec len
  | .pkcs1Encrypt => .pkcs1Encrypt fix
  | .pkcs1Decrypt => .pkcs1Decrypt
  | .pssEnc => .pssEnc fix len
  | .pssVfy => .pssVfy len
  | .pssSign => .pssSign fix
  | .pssVerify => .pssVerify
  | .p1sEnc => .p1sEnc len
  | .pkcs1Sign => .pkcs1Sign
  | .pkcs1Verify => .pkcs1Verify

namespace Field

/-- `OPC = w[7:0]` (R81). -/
def opc (w : Word) : BitVec 8 := w.extractLsb' 0 8

/-- `FIX = w[8]` (R81). -/
def fix (w : Word) : Bool := w.getLsbD 8

/-- `SEL = w[9]` (R81). -/
def sel (w : Word) : Bool := w.getLsbD 9

/-- `RSV = w[15:10]` (R81). -/
def rsv (w : Word) : BitVec 6 := w.extractLsb' 10 6

/-- `LEN = zext(w[31:16])` (R83). -/
def len (w : Word) : Nat := (w.extractLsb' 16 16).toNat

end Field

/-- Why a word is illegal: the clause of rule R85 it breaks first. -/
inductive DecodeError
  /-- (a) `OPC` is not assigned. -/
  | unassignedOpcode
  /-- (b) `RSV` is not 0. -/
  | reservedBits
  /-- (c) `FIX` is 1 on a command without F. -/
  | fixNotUsed
  /-- (c) `SEL` is 1 on a command without S. -/
  | selNotUsed
  /-- (d) `LEN` is not 0 on an N-format command. -/
  | lenNotUsed
  deriving DecidableEq, Repr

/-- The mnemonic with a given `OPC`, if any (R84). -/
def Opcode.ofCode (c : BitVec 8) : Option Opcode := Opcode.all.find? fun o => o.code == c

/-- Decoding (R85): the command of a legal word, the broken clause of an illegal one. Total: rule R87. -/
def decode (w : Word) : Except DecodeError Instr :=
  match Opcode.ofCode (Field.opc w) with
  | none => .error .unassignedOpcode
  | some o =>
    if Field.rsv w ≠ 0 then .error .reservedBits
    else if Field.fix w = true ∧ o.hasFix = false then .error .fixNotUsed
    else if Field.sel w = true ∧ o.hasSel = false then .error .selNotUsed
    else if Field.len w ≠ 0 ∧ o.format = .n then .error .lenNotUsed
    else .ok (o.build (Field.fix w) (Field.sel w) (Field.len w))

/-- The word of rule R88: `(len << 16) OR (SEL << 9) OR (FIX << 8) OR OPC`. -/
def commandWord (o : Opcode) (fix sel : Bool) (len : Nat) : Word :=
  (BitVec.ofNat 32 len <<< 16) ||| ((BitVec.ofBool sel).setWidth 32 <<< 9)
    ||| ((BitVec.ofBool fix).setWidth 32 <<< 8) ||| o.code.setWidth 32

/-- The word of a well-formed command (R81, R88). -/
def encode (i : Instr) : Word := commandWord i.opcode i.fix i.sel i.len

/-- A line of the assembler notation `MNEMONIC[.F][.S] [len]` (R88). -/
structure AsmLine where
  mnemonic : Opcode
  f : Bool
  s : Bool
  len : Option Nat
  deriving DecidableEq, Repr

/-- The word an assembler line stands for: `len` is 0 .. 65535, required in L-format and forbidden in N-format; an
absent suffix is 0 (R88). Rule R88 does not forbid a suffix the mnemonic does not use: the word is then illegal by
rule R85 (log 17). -/
def AsmLine.word (a : AsmLine) : Option Word :=
  match a.mnemonic.format, a.len with
  | .l, some n => if n < 2 ^ 16 then some (commandWord a.mnemonic a.f a.s n) else none
  | .n, none => some (commandWord a.mnemonic a.f a.s 0)
  | .l, none => none
  | .n, some _ => none

/-- What the decoder reads from a word given with the bits of its row of the opcode table; the bits above are 0. A
command is one 32-bit word (R80), so no byte order enters. -/
def decodeTableWord (nbits w : Nat) : Option Instr :=
  (decode (BitVec.ofNat 32 (w % 2 ^ nbits))).toOption

end Sys2Proof
end

