-- ==== Sys2Proof/Machine/State.lean ====
section
/-! DEFINITION. The state of CKPAD (10_state.md R20 to R34), the host's turns, the reset state (R41), and the reasons a
step can stop. -/

namespace Sys2Proof.Machine

/-- Octets by index, as a list of cells in one canonical form (`Memory.wf`): an index that is not listed reads as
0x00, which is what every buffer octet holds after reset (10_state.md R41; log 12). -/
abbrev Memory := List Host.Cell

/-- An octet buffer: its data and its length register (10_state.md R21, R22). -/
structure Buffer where
  data : Memory
  len : Word
  deriving DecidableEq, Repr

/-- The five octet buffers (10_state.md R21). -/
inductive BufName
  | msg | lbl | aux | em | out
  deriving DecidableEq, Repr

/-- The nine key registers (10_state.md R28). -/
structure Keys where
  n : BigWord
  e : BigWord
  pn : BigWord
  d : BigWord
  p : BigWord
  q : BigWord
  dp : BigWord
  dq : BigWord
  qinv : BigWord
  deriving DecidableEq, Repr

/-- The ten integer registers: XI and the key registers (10_state.md R27, R28). -/
inductive IntReg
  | xi | n | e | pn | d | p | q | dp | dq | qinv
  deriving DecidableEq, Repr

/-- The two private-key forms, `CFG.KFORM` = 0 and 1 (10_state.md R31). -/
inductive KeyForm
  | modulus | crt
  deriving DecidableEq, Repr

/-- `CFG`: the fields it stores. Its reserved bits read 0 and ignore writes, so they are no storage (10_state.md R31;
log 11). -/
structure Cfg where
  hash : HashAlg
  kform : KeyForm
  deriving DecidableEq, Repr

/-- The error kinds with a code other than 0 (60_exceptions.md R230). -/
inductive ErrKind
  | illegalParameter
  | messageTooLong
  | decryptionFailure
  | invalidSignature
  | integerTooLarge
  | representativeOutOfRange
  | signatureOutOfRange
  | maskTooLong
  | invalidSeed
  | encodingError
  | illegalCommand
  | capacityExceeded
  deriving DecidableEq, Repr

/-- `STATUS`: the fields it stores; `err = none` is `OK`. Its reserved bits read 0 and no write reaches them
(10_state.md R33; log 11). -/
structure Status where
  busy : Bool
  done : Bool
  valid : Bool
  hzd : Bool
  err : Option ErrKind
  deriving DecidableEq, Repr

/-- The width of a host access. CKPAD answers 8- and 16-bit accesses with a bus error (20_memory.md R65). -/
inductive Width
  | w8 | w16 | w32
  deriving DecidableEq, Repr

/-- One host access to the register space (20_memory.md R61, R62). -/
inductive Access
  | read (width : Width) (addr : Offset)
  | write (width : Width) (addr : Offset) (value : Word)
  deriving DecidableEq, Repr

/-- The answer to a host access: the word read, an acknowledged write, or a bus error (20_memory.md R61, R65, R67). -/
inductive Response
  | data (value : Word)
  | written
  | busError
  deriving DecidableEq, Repr

/-- One turn of the schedule: the host performs an access, the command unit gets its turn, or reset is asserted and
released (00_scope.md R15, 70_reset_and_hazards.md R260; log 1). -/
inductive Turn
  | host (a : Access)
  | commandUnit
  | reset
  deriving DecidableEq, Repr

/-- The state: all of 10_state.md R20, and three fields of the model's own. -/
structure State where
  /-- MSG and MLEN. -/
  msg : Buffer
  /-- LBL and LLEN. -/
  lbl : Buffer
  /-- AUX and AUXLEN. -/
  aux : Buffer
  /-- EM and EMLEN. -/
  em : Buffer
  /-- OUT and OLEN. -/
  out : Buffer
  /-- XI (R27). -/
  xi : BigWord
  /-- N, E, PN, D, P, Q, DP, DQ, QINV (R28). -/
  keys : Keys
  /-- CMD, the latched command word CMDL (R30). -/
  cmdl : Word
  /-- STATUS (R33). -/
  status : Status
  /-- CFG (R31). -/
  cfg : Cfg
  /-- SLEN (R32). -/
  slen : Word
  /-- The model's own: how many draws the RNG port has given; it names the next free value (00_scope.md R14; log 4). -/
  draws : Nat
  /-- The model's own: the turns still to come, which are the host's program and the schedule (log 1). -/
  script : List Turn
  /-- The model's own: the answers the host has had, oldest first (log 3). -/
  responses : List Response
  deriving DecidableEq, Repr

/-- Reasons the machine stops with a fault. There is none: every command is defined on every state
(70_reset_and_hazards.md R262) and CKPAD has no fatal condition (60_exceptions.md R237); errors are next states. -/
inductive Fault
  deriving DecidableEq, Repr

/-- Reasons a step is refused. -/
inductive Refusal
  /-- Raised by `exec` for a command with no meaning yet, by its mnemonic. No arm of `exec` raises it. Safe: the model
  stops where the hardware goes on. -/
  | notModelled (mnemonic : String)
  deriving DecidableEq, Repr

/-- An empty buffer: every octet 0x00, length 0 (10_state.md R26, R41). -/
def Buffer.empty : Buffer := ⟨[], 0⟩

/-- All nine key registers 0 (10_state.md R41). -/
def Keys.zero : Keys := ⟨0, 0, 0, 0, 0, 0, 0, 0, 0⟩

/-- The reset state (10_state.md R41, 70_reset_and_hazards.md R260). The model's own fields are empty (logs 1, 3, 4). -/
def State.reset : State where
  msg := Buffer.empty
  lbl := Buffer.empty
  aux := Buffer.empty
  em := Buffer.empty
  out := Buffer.empty
  xi := 0
  keys := Keys.zero
  cmdl := 0
  status := ⟨false, false, false, false, none⟩
  cfg := ⟨.sha224, .modulus⟩
  slen := 0
  draws := 0
  script := []
  responses := []

end Sys2Proof.Machine
end

