-- ==== Sys2Proof/Machine/Flags.lean ====
section
/-! DEFINITION. STATUS and CFG as words, the error codes, and how a launch and a completion set the flags
(10_state.md R31, R33, R37, R39, R40, 60_exceptions.md R230, R239). -/

namespace Sys2Proof.Machine

/-- The code of an error kind in `STATUS.ERR` (60_exceptions.md R230). -/
def ErrKind.code : ErrKind → BitVec 8
  | .illegalParameter => 1
  | .messageTooLong => 2
  | .decryptionFailure => 3
  | .invalidSignature => 4
  | .integerTooLarge => 5
  | .representativeOutOfRange => 6
  | .signatureOutOfRange => 7
  | .maskTooLong => 8
  | .invalidSeed => 9
  | .encodingError => 10
  | .illegalCommand => 11
  | .capacityExceeded => 12

/-- `STATUS.ERR` (10_state.md R33): 0 is `OK`. -/
def errCode : Option ErrKind → BitVec 8
  | none => 0
  | some e => e.code

/-- A single bit of a word at a given place. -/
def bitAt (b : Bool) (i : Nat) : Word := (BitVec.ofBool b).setWidth 32 <<< i

/-- `STATUS` as the host reads it (10_state.md R33). -/
def Status.word (s : Status) : Word :=
  bitAt s.busy 0 ||| bitAt s.done 1 ||| bitAt s.valid 2 ||| bitAt s.hzd 3 ||| ((errCode s.err).setWidth 32 <<< 8)

/-- `CFG.HASH` as a code (10_state.md R31). -/
def hashCode : HashAlg → BitVec 2
  | .sha224 => 0
  | .sha256 => 1
  | .sha384 => 2
  | .sha512 => 3

/-- The digest algorithm of a `CFG.HASH` code; every value is legal (10_state.md R31). -/
def hashOfCode (c : BitVec 2) : HashAlg :=
  if c = 0 then .sha224 else if c = 1 then .sha256 else if c = 2 then .sha384 else .sha512

/-- `CFG` as the host reads it: reserved bits read 0 (10_state.md R31). -/
def Cfg.word (c : Cfg) : Word := (hashCode c.hash).setWidth 32 ||| bitAt (c.kform == .crt) 8

/-- `CFG` after a host write of `w`: reserved bits are ignored (10_state.md R31). -/
def Cfg.ofWord (w : Word) : Cfg := ⟨hashOfCode (w.extractLsb' 0 2), if w.getLsbD 8 then .crt else .modulus⟩

/-- The flags after a launch: BUSY 1, DONE, VALID, ERR 0, HZD kept (10_state.md R39). -/
def Status.launched (s : Status) : Status := { s with busy := true, done := false, valid := false, err := none }

/-- The flags after a completion: VALID and ERR as given, BUSY 0, DONE 1, HZD kept (10_state.md R40, R34). -/
def Status.completed (s : Status) (valid : Bool) (err : Option ErrKind) : Status :=
  { s with busy := false, done := true, valid := valid, err := err }

/-- HZD set (10_state.md R34, R42). -/
def Status.hazard (s : Status) : Status := { s with hzd := true }

/-- A host write of `w` to STATUS while idle: bit 3 clears HZD, the other bits are ignored (10_state.md R34). -/
def Status.hostWrite (s : Status) (w : Word) : Status := if w.getLsbD 3 then { s with hzd := false } else s

/-- The verdict flags of a boolean command: `VALID` and `ERR` say the same (60_exceptions.md R239). -/
def verdictErr (ok : Bool) : Option ErrKind := if ok then none else some .invalidSignature

end Sys2Proof.Machine
end

