-- ==== Sys2Proof/Machine/Ops.lean ====
section
/-! DEFINITION. The named operations over buffers and registers, taking an error (60_exceptions.md R232), the launch
that ends it (R237), and the ways a command completes (40_converters_primitives.md R100). -/

namespace Sys2Proof.Machine

/-! ### Octets by index -/

/-- The octet at an index; an index that is not listed reads as 0x00. -/
def Memory.read : Memory → Nat → Byte
  | [], _ => 0
  | (k, v) :: m, a => if k = a then v else if a < k then 0 else Memory.read m a

/-- The memory with one octet replaced; writing 0x00 removes the cell. -/
def Memory.write : Memory → Nat → Byte → Memory
  | [], a, v => if v = 0 then [] else [(a, v)]
  | (k, w) :: m, a, v =>
    if a < k then (if v = 0 then (k, w) :: m else (a, v) :: (k, w) :: m)
    else if a = k then (if v = 0 then m else (a, v) :: m)
    else (k, w) :: Memory.write m a v

/-- The cells of an octet string laid out from an index on. -/
def Memory.ofBytes : Nat → Bytes → Memory
  | _, [] => []
  | a, v :: vs => if v = 0 then Memory.ofBytes (a + 1) vs else (a, v) :: Memory.ofBytes (a + 1) vs

/-- The canonical form from an index on: indices strictly rising, no cell that holds 0x00. -/
def Memory.wfFrom : Nat → Memory → Bool
  | _, [] => true
  | a, (k, v) :: m => decide (a ≤ k) && decide (v ≠ 0) && Memory.wfFrom (k + 1) m

/-- The canonical form: equal memories are equal lists. -/
def Memory.wf (m : Memory) : Bool := Memory.wfFrom 0 m

/-- Every listed index lies below a capacity. -/
def Memory.below (cap : Nat) (m : Memory) : Bool := m.all fun c => decide (c.1 < cap)

/-! ### Buffers -/

/-- The capacity in octets of a buffer (10_state.md R21). -/
def BufName.cap : BufName → Nat
  | .msg => Config.mMax
  | .lbl => Config.lMax
  | .aux | .em | .out => Config.kMax

/-- The buffer of a name. -/
def State.buf (s : State) : BufName → Buffer
  | .msg => s.msg
  | .lbl => s.lbl
  | .aux => s.aux
  | .em => s.em
  | .out => s.out

/-- The state with a buffer replaced. -/
def State.setBuf (s : State) (b : BufName) (x : Buffer) : State :=
  match b with
  | .msg => { s with msg := x }
  | .lbl => { s with lbl := x }
  | .aux => { s with aux := x }
  | .em => { s with em := x }
  | .out => { s with out := x }

/-- `B.data[i]` (10_state.md R21, R23). -/
def State.octet (s : State) (b : BufName) (i : Nat) : Byte := (s.buf b).data.read i

/-- `len_B`, the value of B's length register (10_state.md R22). -/
def State.bufLen (s : State) (b : BufName) : Nat := (s.buf b).len.toNat

/-- `val(B)`: the octets below the length register's value (10_state.md R24). -/
def State.val (s : State) (b : BufName) : Bytes := (List.range (s.bufLen b)).map (s.octet b)

/-- A buffer that holds an octet string: its octets, 0x00 after them, and its length (10_state.md R25). -/
def Buffer.ofBytes (x : Bytes) : Buffer := ⟨Memory.ofBytes 0 x, BitVec.ofNat 32 x.length⟩

/-- `B <- x` (10_state.md R25). -/
def State.writeBuf (s : State) (b : BufName) (x : Bytes) : State := s.setBuf b (Buffer.ofBytes x)

/-- `clear(B)` (10_state.md R26). -/
def State.clearBuf (s : State) (b : BufName) : State := s.writeBuf b []

/-- One octet of a buffer replaced, its length register kept (20_memory.md R63). -/
def State.setOctet (s : State) (b : BufName) (i : Nat) (v : Byte) : State :=
  s.setBuf b { s.buf b with data := (s.buf b).data.write i v }

/-- A length register replaced, the data kept (10_state.md R22, 20_memory.md R63). -/
def State.setLen (s : State) (b : BufName) (v : Word) : State := s.setBuf b { s.buf b with len := v }

/-! ### Integer registers -/

/-- The value of an integer register (10_state.md R27, R28). -/
def State.intReg (s : State) : IntReg → BigWord
  | .xi => s.xi
  | .n => s.keys.n
  | .e => s.keys.e
  | .pn => s.keys.pn
  | .d => s.keys.d
  | .p => s.keys.p
  | .q => s.keys.q
  | .dp => s.keys.dp
  | .dq => s.keys.dq
  | .qinv => s.keys.qinv

/-- The state with an integer register replaced. -/
def State.setIntReg (s : State) (r : IntReg) (v : BigWord) : State :=
  match r with
  | .xi => { s with xi := v }
  | .n => { s with keys := { s.keys with n := v } }
  | .e => { s with keys := { s.keys with e := v } }
  | .pn => { s with keys := { s.keys with pn := v } }
  | .d => { s with keys := { s.keys with d := v } }
  | .p => { s with keys := { s.keys with p := v } }
  | .q => { s with keys := { s.keys with q := v } }
  | .dp => { s with keys := { s.keys with dp := v } }
  | .dq => { s with keys := { s.keys with dq := v } }
  | .qinv => { s with keys := { s.keys with qinv := v } }

/-- Limb `j` of an integer: bits `32j+31 : 32j` (20_memory.md R64). -/
def limb (x : BigWord) (j : Nat) : Word := x.extractLsb' (32 * j) 32

/-- An integer with limb `j` replaced and the others kept (20_memory.md R64). -/
def setLimb (x : BigWord) (j : Nat) (v : Word) : BigWord :=
  (x &&& ~~~((0xFFFFFFFF : BigWord) <<< (32 * j))) ||| (v.setWidth 4096 <<< (32 * j))

/-- `XI <- x` for a mathematical integer. Every result stored is below 2^4096 (40_converters_primitives.md R119). -/
def State.writeXi (s : State) (x : Nat) : State := { s with xi := BitVec.ofNat 4096 x }

/-! ### Launch, errors, completion -/

/-- Launch of a command word: CMDL latched, BUSY set, DONE, VALID and ERR cleared, nothing else changed
(10_state.md R39). It is also what ends an error (60_exceptions.md R237). -/
def State.launch (s : State) (w : Word) : State := { s with cmdl := w, status := s.status.launched }

/-- A destination of a command (60_exceptions.md R232). -/
inductive Dest
  | out | em | xi
  deriving DecidableEq, Repr

/-- A destination cleared: a buffer empty, XI 0 (60_exceptions.md R232). -/
def State.clearDest (s : State) : Dest → State
  | .out => s.clearBuf .out
  | .em => s.clearBuf .em
  | .xi => s.writeXi 0

/-- Whether a command is layer-1 or one of the eight scheme commands (00_scope.md glossary,
40_converters_primitives.md R100). -/
inductive Layer
  | component | scheme
  deriving DecidableEq, Repr

/-- What a scheme command does last, on success and on failure: `clear(EM)` and `XI <- 0`
(40_converters_primitives.md R100). -/
def State.discard (s : State) : Layer → State
  | .component => s
  | .scheme => (s.clearBuf .em).writeXi 0

/-- The end of a completion step: VALID and ERR written, BUSY 0, DONE 1 (10_state.md R40). -/
def State.retire (s : State) (valid : Bool) (err : Option ErrKind) : State :=
  { s with status := s.status.completed valid err }

/-- TAKING AN ERROR (60_exceptions.md R232, R236): the destinations are cleared, a scheme command discards its
transients, ERR is the code, VALID 0, BUSY 0, DONE 1. -/
def State.raise (s : State) (layer : Layer) (dests : List Dest) (e : ErrKind) : State :=
  ((dests.foldl State.clearDest s).discard layer).retire false (some e)

/-- The completion of an illegal word: nothing but STATUS is written (30_encoding.md R86, 60_exceptions.md R232(a)). -/
def State.raiseIllegal (s : State) : State := s.raise .component [] .illegalCommand

/-- The draws a command took: one, when it succeeded and its seed, `PS` or salt came from the RNG port. A command that
fails has drawn nothing: the draw is the last check of every encoder (00_scope.md R14; log 4). -/
def drawsTaken (fix : Bool) (r : Except ErrKind Bytes) : Nat :=
  match fix, r with
  | false, .ok _ => 1
  | false, .error _ => 0
  | true, _ => 0

/-- The state after `n` more draws. -/
def State.drew (s : State) (n : Nat) : State := { s with draws := s.draws + n }

/-- Completion of a command whose result goes into a buffer (40_converters_primitives.md R100): on success the result
is written and ERR is OK, on failure the error is taken; VALID is 0. -/
def State.finishBuf (s : State) (layer : Layer) (b : BufName) (d : Dest) : Except ErrKind Bytes → State
  | .ok x => ((s.writeBuf b x).discard layer).retire false none
  | .error e => s.raise layer [d] e

/-- Completion of a command whose result goes into OUT. -/
def State.finishOut (s : State) (layer : Layer) (r : Except ErrKind Bytes) : State := s.finishBuf layer .out .out r

/-- Completion of a command whose result goes into EM. -/
def State.finishEm (s : State) (layer : Layer) (r : Except ErrKind Bytes) : State := s.finishBuf layer .em .em r

/-- Completion of a command whose result goes into XI. -/
def State.finishXi (s : State) (r : Except ErrKind Nat) : State :=
  match r with
  | .ok x => (s.writeXi x).retire false none
  | .error e => s.raise .component [.xi] e

/-- Completion of a command that produces VALID (60_exceptions.md R239): it writes no buffer. -/
def State.finishVerdict (s : State) (layer : Layer) : Except ErrKind Bool → State
  | .ok ok => (s.discard layer).retire ok (verdictErr ok)
  | .error e => s.raise layer [] e

end Sys2Proof.Machine
end

