-- ==== Sys2Proof/Machine/Bus.lean ====
section
/-! DEFINITION. Host accesses to the register space and the reset event (20_memory.md R60 to R68, 10_state.md R34, R39,
R42, 70_reset_and_hazards.md R260). -/

namespace Sys2Proof.Machine

/-- The control registers of the address map (20_memory.md R66). -/
inductive Control
  | cmd | status | cfg | slen
  deriving DecidableEq, Repr

/-- What a mapped region holds (20_memory.md R66). -/
inductive RegionKind
  | control (c : Control)
  | length (b : BufName)
  | data (b : BufName)
  | integer (r : IntReg)
  deriving DecidableEq, Repr

/-- A row of the address map: `size` bytes from offset `base` on. -/
structure Region where
  base : Nat
  size : Nat
  kind : RegionKind
  deriving DecidableEq, Repr

/-- The control and length registers of the address map (20_memory.md R66). -/
def controlRegions : List Region :=
  [⟨0x0000, 4, .control .cmd⟩, ⟨0x0004, 4, .control .status⟩, ⟨0x0008, 4, .control .cfg⟩, ⟨0x000C, 4, .control .slen⟩,
   ⟨0x0010, 4, .length .msg⟩, ⟨0x0014, 4, .length .lbl⟩, ⟨0x0018, 4, .length .aux⟩, ⟨0x001C, 4, .length .em⟩,
   ⟨0x0020, 4, .length .out⟩]

/-- The buffers of the address map (20_memory.md R66). -/
def bufferRegions : List Region :=
  [⟨0x1000, Config.mMax, .data .msg⟩, ⟨0x2000, Config.lMax, .data .lbl⟩, ⟨0x2200, Config.kMax, .data .aux⟩,
   ⟨0x2400, Config.kMax, .data .em⟩, ⟨0x2600, Config.kMax, .data .out⟩]

/-- The integer registers of the address map (20_memory.md R66). -/
def integerRegions : List Region :=
  [⟨0x2800, Config.kMax, .integer .xi⟩, ⟨0x3000, Config.kMax, .integer .n⟩, ⟨0x3200, Config.kMax, .integer .e⟩,
   ⟨0x3400, Config.kMax, .integer .pn⟩, ⟨0x3600, Config.kMax, .integer .d⟩, ⟨0x3800, Config.kMax, .integer .p⟩,
   ⟨0x3A00, Config.kMax, .integer .q⟩, ⟨0x3C00, Config.kMax, .integer .dp⟩, ⟨0x3E00, Config.kMax, .integer .dq⟩,
   ⟨0x4000, Config.kMax, .integer .qinv⟩]

/-- The address map; every other offset is unmapped (20_memory.md R66). -/
def addressMap : List Region := controlRegions ++ bufferRegions ++ integerRegions

/-- Whether a byte offset lies in a region. -/
def Region.holds (r : Region) (a : Nat) : Bool := decide (r.base ≤ a) && decide (a < r.base + r.size)

/-- What an offset reaches: the region's kind and the index of the 32-bit word in it; `none` where unmapped. -/
def locate (a : Nat) : Option (RegionKind × Nat) :=
  (addressMap.find? fun r => r.holds a).map fun r => (r.kind, (a - r.base) / 4)

/-- Word `j` of a buffer: octet `4j` in bits 7:0 up to octet `4j+3` in bits 31:24 (20_memory.md R63). -/
def State.bufWord (s : State) (b : BufName) (j : Nat) : Word :=
  s.octet b (4 * j + 3) ++ s.octet b (4 * j + 2) ++ s.octet b (4 * j + 1) ++ s.octet b (4 * j)

/-- Word `j` of a buffer replaced; the length register is kept (20_memory.md R63). -/
def State.setBufWord (s : State) (b : BufName) (j : Nat) (v : Word) : State :=
  (((s.setOctet b (4 * j) (v.extractLsb' 0 8)).setOctet b (4 * j + 1) (v.extractLsb' 8 8)).setOctet b (4 * j + 2)
    (v.extractLsb' 16 8)).setOctet b (4 * j + 3) (v.extractLsb' 24 8)

/-- A control register as the host reads it (10_state.md R30 to R33). -/
def State.readControl (s : State) : Control → Word
  | .cmd => s.cmdl
  | .status => s.status.word
  | .cfg => s.cfg.word
  | .slen => s.slen

/-- The word a read returns while idle (20_memory.md R61). -/
def State.readWord (s : State) (k : RegionKind) (j : Nat) : Word :=
  match k with
  | .control c => s.readControl c
  | .length b => (s.buf b).len
  | .data b => s.bufWord b j
  | .integer r => limb (s.intReg r) j

/-- A write to a control register while idle: CMD launches (10_state.md R39), STATUS clears HZD (R34), CFG and SLEN
store (R31, R32). -/
def State.writeControl (s : State) (c : Control) (v : Word) : State :=
  match c with
  | .cmd => s.launch v
  | .status => { s with status := s.status.hostWrite v }
  | .cfg => { s with cfg := Cfg.ofWord v }
  | .slen => { s with slen := v }

/-- The effect of a write while idle (20_memory.md R62). -/
def State.writeWord (s : State) (k : RegionKind) (j : Nat) (v : Word) : State :=
  match k with
  | .control c => s.writeControl c v
  | .length b => s.setLen b v
  | .data b => s.setBufWord b j v
  | .integer r => s.setIntReg r (setLimb (s.intReg r) j v)

/-- HZD set and nothing else changed (10_state.md R34, R42). -/
def State.markHazard (s : State) : State := { s with status := s.status.hazard }

/-- Whether a read of this kind is answered normally while BUSY = 1 (10_state.md R42). -/
def RegionKind.readableBusy : RegionKind → Bool
  | .control .cmd | .control .status => true
  | .control .cfg | .control .slen | .length _ | .data _ | .integer _ => false

/-- A read of a mapped, aligned word (20_memory.md R61, 10_state.md R42). -/
def State.hostRead (s : State) (k : RegionKind) (j : Nat) : State × Response :=
  if s.status.busy && !k.readableBusy then (s.markHazard, .data 0) else (s, .data (s.readWord k j))

/-- A write of a mapped, aligned word (20_memory.md R62, 10_state.md R42). -/
def State.hostWrite (s : State) (k : RegionKind) (j : Nat) (v : Word) : State × Response :=
  if s.status.busy then (s.markHazard, .written) else (s.writeWord k j v, .written)

/-- What an access of a given width and offset reaches: only aligned 32-bit accesses to mapped offsets reach anything
(20_memory.md R65, R67). -/
def reach (w : Width) (a : Offset) : Option (RegionKind × Nat) :=
  if w = .w32 ∧ a.toNat % 4 = 0 then locate a.toNat else none

/-- A host access: a bus error changes no state (20_memory.md R61, R62, R65, R67). -/
def State.perform (s : State) : Access → State × Response
  | .read w a =>
    match reach w a with
    | none => (s, .busError)
    | some (k, j) => s.hostRead k j
  | .write w a v =>
    match reach w a with
    | none => (s, .busError)
    | some (k, j) => s.hostWrite k j v

/-- A turn of the host: the access, and its answer at the end of the list of answers. -/
def State.hostTurn (s : State) (a : Access) : State :=
  { (s.perform a).1 with responses := (s.perform a).1.responses ++ [(s.perform a).2] }

/-- Reset (70_reset_and_hazards.md R260): every register at its reset value, a command in flight abandoned. The model's
own fields are not CKPAD's and stay (log 10). DESIGN CHOICE (log 23): the assertion of reset and its release are this one
turn, so no host access falls between them; the spec gives such an access no response. -/
def State.resetTurn (s : State) : State :=
  { State.reset with draws := s.draws, script := s.script, responses := s.responses }

end Sys2Proof.Machine
end

