-- ==== Sys2Proof/Machine/Arith.lean ====
section
/-! DEFINITION. Octet strings and mathematical integers: slices, exclusive or, I2OSP, OS2IP, lengths in bits and octets,
modular exponentiation (00_scope.md R5, R6, R12, R13, 40_converters_primitives.md R102, R104, R110). -/

namespace Sys2Proof.Machine

/-- `zeros(n)` (00_scope.md R5). -/
def zeros (n : Nat) : Bytes := List.replicate n 0

/-- `rep(v, n)` (00_scope.md R5). -/
def rep (v : Byte) (n : Nat) : Bytes := List.replicate n v

/-- `X[a:b]` (00_scope.md R5). -/
def slice (x : Bytes) (a b : Nat) : Bytes := (x.drop a).take (b - a)

/-- `A xor B` on octet strings of one length (00_scope.md R5). -/
def xorBytes (a b : Bytes) : Bytes := List.zipWith (· ^^^ ·) a b

/-- `ceil(a / b)` for `b > 0` (00_scope.md R6). -/
def ceilDiv (a b : Nat) : Nat := (a + (b - 1)) / b

/-- `bitLength(x)`: the least `t` with `x < 2^t` (00_scope.md R6). -/
def bitLength (x : Nat) : Nat := if x = 0 then 0 else Nat.log2 x + 1

/-- `kOf(n)`, the key size in octets (00_scope.md R12). -/
def kOf (n : Nat) : Nat := ceilDiv (bitLength n) 8

/-- `emBitsOf(n)` (00_scope.md R12). -/
def emBitsOf (n : Nat) : Nat := bitLength n - 1

/-- The octets of `I2OSP(x, xLen)` where it does not fail: `X[i] = floor(x / 256^(xLen-1-i)) mod 256` (R102). -/
def octetsOf (x xLen : Nat) : Bytes := (List.range xLen).map fun i => BitVec.ofNat 8 (x / 256 ^ (xLen - 1 - i))

/-- `I2OSP(x, xLen)` (R102). -/
def i2osp (x xLen : Nat) : Except ErrKind Bytes :=
  if 256 ^ xLen ≤ x then .error .integerTooLarge else .ok (octetsOf x xLen)

/-- `OS2IP(X)`: the big-endian unsigned value (R104). -/
def os2ip (x : Bytes) : Nat := x.foldl (fun acc v => acc * 256 + v.toNat) 0

/-- `BE32(c)` for `c < 2^32` (00_scope.md R13). -/
def be32 (c : Nat) : Bytes := octetsOf c 4

/-- Square and multiply over the bits of the exponent, least significant first. -/
def modExpLoop (m : Nat) : Nat → Nat → Nat → Nat → Nat
  | 0, _, _, acc => acc % m
  | fuel + 1, b, x, acc => modExpLoop m fuel (b * b % m) (x / 2) (if x % 2 = 1 then acc * b % m else acc)

/-- The BIGINT port: `ModExp(b, x, m) = (b ^ x) mod m` for `m >= 1` (R110). The loop makes it runnable;
`Laws.modExp_eq` says that it is that expression. -/
def modExp (b x m : Nat) : Nat := modExpLoop m (bitLength x) (b % m) x 1

end Sys2Proof.Machine
end

