-- ==== Sys2Proof/Machine/Operands.lean ====
section
/-! DEFINITION. The operand forms of the commands: buffers by name with their capacity check, the digest and salt length
in force, the public and the private key, the fixed or drawn seed (10_state.md R24, R28, R29, R31, R32,
40_converters_primitives.md R100, R111, 00_scope.md R14). -/

namespace Sys2Proof.Machine

/-- Whether a buffer's length register exceeds its capacity (10_state.md R22, R100 stage 2). -/
def State.overCap (s : State) (b : BufName) : Bool := decide (b.cap < s.bufLen b)

/-- Whether AUX is read and exceeds its capacity: it is read only when `FIX = 1` (42_oaep.md R151, R154,
43_pkcs1_encryption.md R171, R174, 44_pss.md R191, R194). -/
def State.fixOverCap (s : State) (fix : Bool) : Bool := fix && s.overCap .aux

/-- The digest selected by `CFG.HASH` (00_scope.md R9 to R11). -/
def State.digest (s : State) : Digest := Config.digest s.cfg.hash

/-- `sLen`, the value of SLEN (10_state.md R32). -/
def State.saltLen (s : State) : Nat := s.slen.toNat

/-- The source of a seed, `PS` or salt: supplied, or the draw of a given number (42_oaep.md R150). -/
inductive PadSource
  | fixed (x : Bytes)
  | random (n : Nat)
  deriving DecidableEq, Repr

/-- The source a command with flag `FIX` uses: `val(AUX)` or the next draw (30_encoding.md R81). -/
def State.padSource (s : State) (fix : Bool) : PadSource :=
  if fix then .fixed (s.val .aux) else .random s.draws

/-- A public key `(n, e)` (10_state.md R28). -/
structure PubKey where
  n : Nat
  e : Nat
  deriving DecidableEq, Repr

/-- A private key in one of its two forms (10_state.md R28). -/
inductive PrivKey
  | modulus (n d : Nat)
  | crt (p q dp dq qinv : Nat)
  deriving DecidableEq, Repr

/-- The public key `(N, E)` (10_state.md R28). -/
def State.pubKey (s : State) : PubKey := ⟨s.keys.n.toNat, s.keys.e.toNat⟩

/-- The private key in the form `CFG.KFORM` selects; the other form's registers are ignored (10_state.md R28, R31). -/
def State.privKey (s : State) : PrivKey :=
  match s.cfg.kform with
  | .modulus => .modulus s.keys.pn.toNat s.keys.d.toNat
  | .crt => .crt s.keys.p.toNat s.keys.q.toNat s.keys.dp.toNat s.keys.dq.toNat s.keys.qinv.toNat

/-- `nPriv` (10_state.md R29). -/
def PrivKey.n : PrivKey → Nat
  | .modulus n _ => n
  | .crt p q _ _ _ => p * q

/-- Whether a CRT modulus is wider than `8 * KMAX` bits (10_state.md R29). -/
def PrivKey.tooWide : PrivKey → Bool
  | .modulus _ _ => false
  | .crt p q _ _ _ => decide (8 * Config.kMax < bitLength (p * q))

/-- Stage 3 of rule R100 for a public-key command: a zero modulus is refused (R111). -/
def PubKey.check (k : PubKey) : Except ErrKind PubKey :=
  if k.n = 0 then .error .illegalParameter else .ok k

/-- Stage 3 of rule R100 for a private-key command: a zero modulus, then a CRT modulus that is too wide. -/
def PrivKey.check (k : PrivKey) : Except ErrKind PrivKey :=
  if k.n = 0 then .error .illegalParameter
  else if k.tooWide then .error .capacityExceeded
  else .ok k

end Sys2Proof.Machine
end

