-- ==== Sys2Proof/Machine/Mgf1.lean ====
section
/-! DEFINITION. MGF1 (41_mgf1.md R140, R141). -/

namespace Sys2Proof.Machine

/-- Block `c` of the mask: `Hash(seed || BE32(c))` (R140). -/
def mgf1Block (D : Digest) (seed : Bytes) (c : Nat) : Bytes := D.hash (seed ++ be32 c)

/-- The concatenation of the blocks `0 .. n-1`, block 0 leftmost (R140). -/
def mgf1Blocks (D : Digest) (seed : Bytes) (n : Nat) : Bytes := (List.range n).flatMap (mgf1Block D seed)

/-- `MGF1(seed, maskLen)` (R140). -/
def mgf1 (D : Digest) (seed : Bytes) (maskLen : Nat) : Except ErrKind Bytes :=
  if 2 ^ 32 * D.hLen < maskLen then .error .maskTooLong
  else .ok ((mgf1Blocks D seed (ceilDiv maskLen D.hLen)).take maskLen)

/-- The mask command `MGF1` writes: capacities of AUX and of the result (stage 2), then rule R140 (R141). -/
def State.mgf1Op (s : State) (len : Nat) : Except ErrKind Bytes :=
  if s.overCap .aux || decide (Config.kMax < len) then .error .capacityExceeded
  else mgf1 s.digest (s.val .aux) len

/-- `MGF1` (R141). -/
def execMgf1 (len : Nat) (s : State) : Host.Outcome State Fault Refusal := .next (s.finishOut .component (s.mgf1Op len))

end Sys2Proof.Machine
end

