-- ==== Sys2Proof/Machine/Primitives.lean ====
section
/-! DEFINITION. CLEAR, the converters, the comparator and the four RSA primitives (40_converters_primitives.md R101 to
R118). -/

namespace Sys2Proof.Machine

/-! ### Functions -/

/-- `checkRange(x, n, kind)` (R111): the range is the closed interval `[0, n-1]` (90_conflicts.md C1). -/
def checkRange (x n : Nat) (kind : ErrKind) : Except ErrKind Unit := if n ≤ x then .error kind else .ok ()

/-- `RSAEP((n, e), m)` and `RSAVP1`, which differ in the error kind (R112, R118). -/
def rsaPublic (k : PubKey) (x : Nat) (kind : ErrKind) : Except ErrKind Nat := do
  checkRange x k.n kind
  return modExp x k.e k.n

/-- The private-key computation without its range check (R114, R115). The residue `h` is the non-negative one, also
when `m1 < m2`. -/
def PrivKey.apply (k : PrivKey) (c : Nat) : Nat :=
  match k with
  | .modulus n d => modExp c d n
  | .crt p q dp dq qinv =>
    let m1 := modExp c dp p
    let m2 := modExp c dq q
    let h := ((((m1 : Int) - (m2 : Int)) * (qinv : Int)) % (p : Int)).toNat
    m2 + q * h

/-- `RSADP(priv, c)` and `RSASP1`, which differ in the error kind (R114, R115, R117). Both key forms are checked
against the same modulus. -/
def rsaPrivate (k : PrivKey) (x : Nat) (kind : ErrKind) : Except ErrKind Nat := do
  checkRange x k.n kind
  return k.apply x

/-! ### Commands -/

/-- A public-key primitive on XI: stage 3, range check, `ModExp` (R113, R118). -/
def State.publicOp (s : State) (kind : ErrKind) : Except ErrKind Nat := do
  let k ← s.pubKey.check
  rsaPublic k s.xi.toNat kind

/-- A private-key primitive on XI: stage 3, range check, computation (R116, R117). -/
def State.privateOp (s : State) (kind : ErrKind) : Except ErrKind Nat := do
  let k ← s.privKey.check
  rsaPrivate k s.xi.toNat kind

/-- The five buffers cleared and XI 0 (R101). -/
def State.clearBuffers (s : State) : State :=
  (((((s.clearBuf .msg).clearBuf .lbl).clearBuf .aux).clearBuf .em).clearBuf .out).writeXi 0

/-- `CLEAR` (R101): with `SEL = 1` the key registers too; CFG, SLEN and HZD are kept.
DEDUCED (log 22): `DONE = 1` after it, as R33, R40 and R100 say of every completion and V-CNV-26 shows of `CLEAR.S`
(`STATUS = 0x0000000A`), though R260 says in passing that `CLEAR.S` and writes of CFG and SLEN reach the reset state but for
HZD and CMDL. -/
def execClear (sel : Bool) (s : State) : Host.Outcome State Fault Refusal :=
  .next ((if sel then { s.clearBuffers with keys := Keys.zero } else s.clearBuffers).retire false none)

/-- The octets `I2OSP` writes: `LEN` against the capacity (stage 2), then rule R102 (R103). -/
def State.i2ospOp (s : State) (len : Nat) : Except ErrKind Bytes :=
  if Config.kMax < len then .error .capacityExceeded else i2osp s.xi.toNat len

/-- `I2OSP` (R103): the destination is OUT, with `SEL = 1` EM. -/
def execI2osp (sel : Bool) (len : Nat) (s : State) : Host.Outcome State Fault Refusal :=
  .next (if sel then s.finishEm .component (s.i2ospOp len) else s.finishOut .component (s.i2ospOp len))

/-- The source of `OS2IP`: EM, with `SEL = 1` MSG (R105). -/
def os2ipSource (sel : Bool) : BufName := if sel then .msg else .em

/-- The integer `OS2IP` writes: both capacity checks, then rule R104 (R105). -/
def State.os2ipOp (s : State) (b : BufName) : Except ErrKind Nat :=
  if s.overCap b || decide (Config.kMax < s.bufLen b) then .error .capacityExceeded else .ok (os2ip (s.val b))

/-- `OS2IP` (R105). -/
def execOs2ip (sel : Bool) (s : State) : Host.Outcome State Fault Refusal :=
  .next (s.finishXi (s.os2ipOp (os2ipSource sel)))

/-- `RSAEP` (R113). -/
def execRsaep (s : State) : Host.Outcome State Fault Refusal :=
  .next (s.finishXi (s.publicOp .representativeOutOfRange))

/-- `RSADP` (R116). -/
def execRsadp (s : State) : Host.Outcome State Fault Refusal :=
  .next (s.finishXi (s.privateOp .representativeOutOfRange))

/-- `RSASP1` (R117). -/
def execRsasp1 (s : State) : Host.Outcome State Fault Refusal :=
  .next (s.finishXi (s.privateOp .signatureOutOfRange))

/-- `RSAVP1` (R118). -/
def execRsavp1 (s : State) : Host.Outcome State Fault Refusal :=
  .next (s.finishXi (s.publicOp .signatureOutOfRange))

/-- `CMPEM`'s comparison: both capacities (stage 2), then equality of the two strings (R106). -/
def State.cmpemOp (s : State) : Except ErrKind Bool :=
  if s.overCap .em || s.overCap .out then .error .capacityExceeded else .ok (decide (s.val .em = s.val .out))

/-- `CMPEM` (R106). -/
def execCmpem (s : State) : Host.Outcome State Fault Refusal := .next (s.finishVerdict .component s.cmpemOp)

end Sys2Proof.Machine
end

