-- ==== Sys2Proof/Machine/Oaep.lean ====
section
/-! DEFINITION. OAEP (42_oaep.md R150 to R155). -/

namespace Sys2Proof.Machine

/-- The seed of an encoding: a supplied one must have length `hLen`, else it is drawn (R150 step 4). -/
def oaepSeed (D : Digest) : PadSource → Except ErrKind Bytes
  | .fixed x => if x.length ≠ D.hLen then .error .invalidSeed else .ok x
  | .random n => .ok (Config.draw n D.hLen)

/-- Steps 5 to 7 of rule R150: masking of `DB` and of the seed. -/
def oaepMask (D : Digest) (k : Nat) (seed db : Bytes) : Except ErrKind Bytes := do
  let dbMask ← mgf1 D seed (k - D.hLen - 1)
  let maskedDB := xorBytes db dbMask
  let seedMask ← mgf1 D maskedDB D.hLen
  let maskedSeed := xorBytes seed seedMask
  return [0x00] ++ maskedSeed ++ maskedDB

/-- `OAEP_Encode(k, M, L, seedSrc)` (R150). -/
def oaepEncode (D : Digest) (k : Nat) (m l : Bytes) (src : PadSource) : Except ErrKind Bytes :=
  let lHash := D.hash l
  let psLen : Int := (k : Int) - m.length - 2 * D.hLen - 2
  if psLen < 0 then .error .messageTooLong
  else do
    let seed ← oaepSeed D src
    oaepMask D k seed (lHash ++ zeros psLen.toNat ++ [0x01] ++ m)

/-- The message in an unmasked `DB` with leading octet `Y`: the conjunction of the three conditions of rule R152, and
what follows the separator. -/
def oaepUnpad (D : Digest) (y : Byte) (db l : Bytes) : Except ErrKind Bytes :=
  let lHash' := db.take D.hLen
  let rest := db.drop D.hLen
  match rest.findIdx? (fun v => decide (v ≠ 0x00)) with
  | none => .error .decryptionFailure
  | some i =>
    if y = 0x00 ∧ lHash' = D.hash l ∧ rest[i]? = some 0x01 then .ok (rest.drop (i + 1)) else .error .decryptionFailure

/-- `OAEP_Decode(k, EM, L)` (R152): every failure is `DecryptionFailure`. The two MGF1 calls cannot fail for
`k <= KMAX`; past that bound a failure of theirs is folded in too (log 14). -/
def oaepDecode (D : Digest) (k : Nat) (em l : Bytes) : Except ErrKind Bytes :=
  if em.length ≠ k ∨ k < 2 * D.hLen + 2 then .error .decryptionFailure
  else
    let maskedSeed := slice em 1 (1 + D.hLen)
    let maskedDB := slice em (1 + D.hLen) k
    match mgf1 D maskedDB D.hLen with
    | .error _ => .error .decryptionFailure
    | .ok seedMask =>
      match mgf1 D (xorBytes maskedSeed seedMask) (k - D.hLen - 1) with
      | .error _ => .error .decryptionFailure
      | .ok dbMask => oaepUnpad D (em.headD 0) (xorBytes maskedDB dbMask) l

/-- What `OAEP_ENC` writes (R151). -/
def State.oaepEncOp (s : State) (fix : Bool) (len : Nat) : Except ErrKind Bytes :=
  if s.overCap .msg || s.overCap .lbl || s.fixOverCap fix || decide (Config.kMax < len) then .error .capacityExceeded
  else oaepEncode s.digest len (s.val .msg) (s.val .lbl) (s.padSource fix)

/-- `OAEP_ENC` (R151). -/
def execOaepEnc (fix : Bool) (len : Nat) (s : State) : Host.Outcome State Fault Refusal :=
  .next ((s.finishEm .component (s.oaepEncOp fix len)).drew (drawsTaken fix (s.oaepEncOp fix len)))

/-- What `OAEP_DEC` writes (R153). -/
def State.oaepDecOp (s : State) (len : Nat) : Except ErrKind Bytes :=
  if s.overCap .em || s.overCap .lbl || decide (Config.kMax < len) then .error .capacityExceeded
  else oaepDecode s.digest len (s.val .em) (s.val .lbl)

/-- `OAEP_DEC` (R153). -/
def execOaepDec (len : Nat) (s : State) : Host.Outcome State Fault Refusal :=
  .next (s.finishOut .component (s.oaepDecOp len))

/-- The encryption half shared by the two encrypt commands: `I2OSP(RSAEP(pub, OS2IP(EM)), k)` (R154). -/
def encryptEm (k : PubKey) (em : Bytes) : Except ErrKind Bytes := do
  let c ← rsaPublic k (os2ip em) .representativeOutOfRange
  i2osp c (kOf k.n)

/-- Folds every failure into `DecryptionFailure` (R155 `generic`). -/
def generic (r : Except ErrKind Bytes) : Except ErrKind Bytes :=
  match r with
  | .ok x => .ok x
  | .error _ => .error .decryptionFailure

/-- The decryption half shared by the two decrypt commands: `I2OSP(RSADP(priv, OS2IP(C)), k)` (R155). -/
def decryptToEm (k : PrivKey) (c : Bytes) : Except ErrKind Bytes := do
  let m ← rsaPrivate k (os2ip c) .representativeOutOfRange
  i2osp m (kOf k.n)

/-- What `OAEP_ENCRYPT` writes (R154). -/
def State.oaepEncryptOp (s : State) (fix : Bool) : Except ErrKind Bytes :=
  if s.overCap .msg || s.overCap .lbl || s.fixOverCap fix then .error .capacityExceeded
  else do
    let pub ← s.pubKey.check
    let em ← oaepEncode s.digest (kOf pub.n) (s.val .msg) (s.val .lbl) (s.padSource fix)
    encryptEm pub em

/-- `OAEP_ENCRYPT` (R154). -/
def execOaepEncrypt (fix : Bool) (s : State) : Host.Outcome State Fault Refusal :=
  .next ((s.finishOut .scheme (s.oaepEncryptOp fix)).drew (drawsTaken fix (s.oaepEncryptOp fix)))

/-- `OAEP_DECRYPT`'s generic region (R155). -/
def oaepDecryptCore (D : Digest) (priv : PrivKey) (c l : Bytes) : Except ErrKind Bytes :=
  let k := kOf priv.n
  if c.length ≠ k ∨ k < 2 * D.hLen + 2 then .error .decryptionFailure
  else do
    let em ← decryptToEm priv c
    oaepDecode D k em l

/-- What `OAEP_DECRYPT` writes (R155). -/
def State.oaepDecryptOp (s : State) : Except ErrKind Bytes :=
  if s.overCap .msg || s.overCap .lbl then .error .capacityExceeded
  else do
    let priv ← s.privKey.check
    generic (oaepDecryptCore s.digest priv (s.val .msg) (s.val .lbl))

/-- `OAEP_DECRYPT` (R155). -/
def execOaepDecrypt (s : State) : Host.Outcome State Fault Refusal := .next (s.finishOut .scheme s.oaepDecryptOp)

end Sys2Proof.Machine
end

