-- ==== Sys2Proof/Machine/Pkcs1Encryption.lean ====
section
/-! DEFINITION. PKCS#1 v1.5 encryption (43_pkcs1_encryption.md R170 to R175). -/

namespace Sys2Proof.Machine

/-- The padding string of an encoding: a supplied one must have the exact length and no octet 00, else it is drawn
(R170 step 3). -/
def p1ePad (psLen : Nat) : PadSource → Except ErrKind Bytes
  | .fixed x => if x.length ≠ psLen ∨ (0x00 : Byte) ∈ x then .error .illegalParameter else .ok x
  | .random n => .ok (Config.drawNonzero n psLen)

/-- `P1E_Encode(k, M, psSrc)` (R170). -/
def p1eEncode (k : Nat) (m : Bytes) (src : PadSource) : Except ErrKind Bytes :=
  if k < m.length + 11 then .error .messageTooLong
  else do
    let ps ← p1ePad (k - m.length - 3) src
    return [0x00, 0x02] ++ ps ++ [0x00] ++ m

/-- `P1E_Decode(k, EM)` (R172): the separator is the first 00 at index 2 or later; every failure is
`DecryptionFailure`. -/
def p1eDecode (k : Nat) (em : Bytes) : Except ErrKind Bytes :=
  if em.length ≠ k ∨ k < 11 then .error .decryptionFailure
  else
    match (em.drop 2).findIdx? (fun v => decide (v = 0x00)) with
    | none => .error .decryptionFailure
    | some j =>
      let i := 2 + j
      if em[0]? = some 0x00 ∧ em[1]? = some 0x02 ∧ 8 ≤ i - 2 then .ok (em.drop (i + 1)) else .error .decryptionFailure

/-- What `P1E_ENC` writes (R171). -/
def State.p1eEncOp (s : State) (fix : Bool) (len : Nat) : Except ErrKind Bytes :=
  if s.overCap .msg || s.fixOverCap fix || decide (Config.kMax < len) then .error .capacityExceeded
  else p1eEncode len (s.val .msg) (s.padSource fix)

/-- `P1E_ENC` (R171). -/
def execP1eEnc (fix : Bool) (len : Nat) (s : State) : Host.Outcome State Fault Refusal :=
  .next ((s.finishEm .component (s.p1eEncOp fix len)).drew (drawsTaken fix (s.p1eEncOp fix len)))

/-- What `P1E_DEC` writes (R173). -/
def State.p1eDecOp (s : State) (len : Nat) : Except ErrKind Bytes :=
  if s.overCap .em || decide (Config.kMax < len) then .error .capacityExceeded
  else p1eDecode len (s.val .em)

/-- `P1E_DEC` (R173). -/
def execP1eDec (len : Nat) (s : State) : Host.Outcome State Fault Refusal :=
  .next (s.finishOut .component (s.p1eDecOp len))

/-- What `PKCS1_ENCRYPT` writes (R174). -/
def State.pkcs1EncryptOp (s : State) (fix : Bool) : Except ErrKind Bytes :=
  if s.overCap .msg || s.fixOverCap fix then .error .capacityExceeded
  else do
    let pub ← s.pubKey.check
    let em ← p1eEncode (kOf pub.n) (s.val .msg) (s.padSource fix)
    encryptEm pub em

/-- `PKCS1_ENCRYPT` (R174). -/
def execPkcs1Encrypt (fix : Bool) (s : State) : Host.Outcome State Fault Refusal :=
  .next ((s.finishOut .scheme (s.pkcs1EncryptOp fix)).drew (drawsTaken fix (s.pkcs1EncryptOp fix)))

/-- `PKCS1_DECRYPT`'s generic region (R175). -/
def pkcs1DecryptCore (priv : PrivKey) (c : Bytes) : Except ErrKind Bytes :=
  let k := kOf priv.n
  if c.length ≠ k ∨ k < 11 then .error .decryptionFailure
  else do
    let em ← decryptToEm priv c
    p1eDecode k em

/-- What `PKCS1_DECRYPT` writes (R175). -/
def State.pkcs1DecryptOp (s : State) : Except ErrKind Bytes :=
  if s.overCap .msg then .error .capacityExceeded
  else do
    let priv ← s.privKey.check
    generic (pkcs1DecryptCore priv (s.val .msg))

/-- `PKCS1_DECRYPT` (R175). -/
def execPkcs1Decrypt (s : State) : Host.Outcome State Fault Refusal := .next (s.finishOut .scheme s.pkcs1DecryptOp)

end Sys2Proof.Machine
end

