-- ==== Sys2Proof/Machine/Pss.lean ====
section
/-! DEFINITION. PSS (44_pss.md R190 to R196). -/

namespace Sys2Proof.Machine

/-- The octet `0xFF >> z` (00_scope.md R7). -/
def lowMask (z : Nat) : Byte := (0xFF : Byte) >>> z

/-- A string with the top `z` bits of its first octet cleared (R190 step 8, R192 step 8). -/
def clearTop (z : Nat) : Bytes → Bytes
  | [] => []
  | v :: vs => (v &&& lowMask z) :: vs

/-- The salt of an encoding: a supplied one must have length `sLen`, else it is drawn (R190 step 3). -/
def pssSalt (sLen : Nat) : PadSource → Except ErrKind Bytes
  | .fixed x => if x.length ≠ sLen then .error .illegalParameter else .ok x
  | .random n => .ok (Config.draw n sLen)

/-- `H = Hash(0x00*8 || mHash || salt)` (R190 steps 4 and 5, R192 step 12). -/
def pssHash (D : Digest) (mHash salt : Bytes) : Bytes := D.hash (zeros 8 ++ mHash ++ salt)

/-- `emLen = ceil(emBits / 8)` (R190 step 2). -/
def pssEmLen (emBits : Nat) : Nat := ceilDiv emBits 8

/-- `z = 8*emLen - emBits` (R190 step 8, R196). -/
def pssZ (emBits : Nat) : Nat := 8 * pssEmLen emBits - emBits

/-- `PSS_Encode(M, emBits, sLen, saltSrc)` (R190). -/
def pssEncode (D : Digest) (m : Bytes) (emBits sLen : Nat) (src : PadSource) : Except ErrKind Bytes :=
  let mHash := D.hash m
  let emLen := pssEmLen emBits
  if emLen < D.hLen + sLen + 2 then .error .encodingError
  else do
    let salt ← pssSalt sLen src
    let h := pssHash D mHash salt
    let db := zeros (emLen - sLen - D.hLen - 2) ++ [0x01] ++ salt
    let dbMask ← mgf1 D h (emLen - D.hLen - 1)
    return clearTop (pssZ emBits) (xorBytes db dbMask) ++ h ++ [0xBC]

/-- Steps 7 to 13 of rule R192: the unmasked `DB` and the recomputed hash. -/
def pssCheckDb (D : Digest) (mHash h maskedDB : Bytes) (emLen z sLen : Nat) : Bool :=
  match mgf1 D h (emLen - D.hLen - 1) with
  | .error _ => false
  | .ok dbMask =>
    let db := clearTop z (xorBytes maskedDB dbMask)
    let pl := emLen - D.hLen - sLen - 2
    decide (db.take pl = zeros pl) && decide (db[pl]? = some 0x01)
      && decide (pssHash D mHash (db.drop (pl + 1)) = h)

/-- `PSS_Verify(M, EM, emBits, sLen)` (R192). MGF1 cannot fail for an `emLen` up to `KMAX`; past that bound a failure
of its is a rejection (log 14). -/
def pssVerify (D : Digest) (m em : Bytes) (emBits sLen : Nat) : Bool :=
  let mHash := D.hash m
  let emLen := pssEmLen emBits
  let z := pssZ emBits
  if em.length ≠ emLen then false
  else if emLen < D.hLen + sLen + 2 then false
  else if em[emLen - 1]? ≠ some 0xBC then false
  else
    let maskedDB := slice em 0 (emLen - D.hLen - 1)
    let h := slice em (emLen - D.hLen - 1) (emLen - 1)
    if maskedDB.headD 0 &&& ~~~lowMask z ≠ 0x00 then false
    else pssCheckDb D mHash h maskedDB emLen z sLen

/-- What `PSS_ENC` writes; `LEN` is `emBits` (R191). -/
def State.pssEncOp (s : State) (fix : Bool) (len : Nat) : Except ErrKind Bytes :=
  if s.overCap .msg || s.fixOverCap fix || decide (Config.kMax < pssEmLen len) then .error .capacityExceeded
  else pssEncode s.digest (s.val .msg) len s.saltLen (s.padSource fix)

/-- `PSS_ENC` (R191). -/
def execPssEnc (fix : Bool) (len : Nat) (s : State) : Host.Outcome State Fault Refusal :=
  .next ((s.finishEm .component (s.pssEncOp fix len)).drew (drawsTaken fix (s.pssEncOp fix len)))

/-- The verdict of `PSS_VFY`; `LEN` is `emBits` (R193). -/
def State.pssVfyOp (s : State) (len : Nat) : Except ErrKind Bool :=
  if s.overCap .msg || s.overCap .em || decide (Config.kMax < pssEmLen len) then .error .capacityExceeded
  else .ok (pssVerify s.digest (s.val .msg) (s.val .em) len s.saltLen)

/-- `PSS_VFY` (R193). -/
def execPssVfy (len : Nat) (s : State) : Host.Outcome State Fault Refusal :=
  .next (s.finishVerdict .component (s.pssVfyOp len))

/-- The signing half shared by the two sign commands: `I2OSP(RSASP1(priv, OS2IP(EM)), k)` (R194, R212). -/
def signEm (priv : PrivKey) (em : Bytes) : Except ErrKind Bytes := do
  let x ← rsaPrivate priv (os2ip em) .signatureOutOfRange
  i2osp x (kOf priv.n)

/-- What `PSS_SIGN` writes (R194). -/
def State.pssSignOp (s : State) (fix : Bool) : Except ErrKind Bytes :=
  if s.overCap .msg || s.fixOverCap fix then .error .capacityExceeded
  else do
    let priv ← s.privKey.check
    let em ← pssEncode s.digest (s.val .msg) (emBitsOf priv.n) s.saltLen (s.padSource fix)
    signEm priv em

/-- `PSS_SIGN` (R194). -/
def execPssSign (fix : Bool) (s : State) : Host.Outcome State Fault Refusal :=
  .next ((s.finishOut .scheme (s.pssSignOp fix)).drew (drawsTaken fix (s.pssSignOp fix)))

/-- The verdict of `PSS_VERIFY` on a checked key (R195): a failure of RSAVP1 or I2OSP is `false`. -/
def pssVerifySignature (D : Digest) (pub : PubKey) (m sig : Bytes) (sLen : Nat) : Bool :=
  let emBits := emBitsOf pub.n
  if sig.length = kOf pub.n then
    match rsaPublic pub (os2ip sig) .signatureOutOfRange with
    | .error _ => false
    | .ok x =>
      match i2osp x (pssEmLen emBits) with
      | .error _ => false
      | .ok em => pssVerify D m em emBits sLen
  else false

/-- The outcome of `PSS_VERIFY` (R195). -/
def State.pssVerifyOp (s : State) : Except ErrKind Bool :=
  if s.overCap .msg || s.overCap .aux then .error .capacityExceeded
  else do
    let pub ← s.pubKey.check
    return pssVerifySignature s.digest pub (s.val .msg) (s.val .aux) s.saltLen

/-- `PSS_VERIFY` (R195). -/
def execPssVerify (s : State) : Host.Outcome State Fault Refusal := .next (s.finishVerdict .scheme s.pssVerifyOp)

end Sys2Proof.Machine
end

