-- ==== Sys2Proof/Machine/Pkcs1Signature.lean ====
section
/-! DEFINITION. PKCS#1 v1.5 signatures (45_pkcs1_signature.md R210 to R213). -/

namespace Sys2Proof.Machine

/-- `T = prefix || Hash(M)` (R210 step 2). -/
def p1sT (D : Digest) (m : Bytes) : Bytes := D.infoPrefix ++ D.hash m

/-- `P1S_Encode(M, emLen)` (R210). -/
def p1sEncode (D : Digest) (m : Bytes) (emLen : Nat) : Except ErrKind Bytes :=
  let t := p1sT D m
  if emLen < t.length + 11 then .error .encodingError
  else .ok ([0x00, 0x01] ++ rep 0xFF (emLen - t.length - 3) ++ [0x00] ++ t)

/-- What `P1S_ENC` writes (R211). -/
def State.p1sEncOp (s : State) (len : Nat) : Except ErrKind Bytes :=
  if s.overCap .msg || decide (Config.kMax < len) then .error .capacityExceeded
  else p1sEncode s.digest (s.val .msg) len

/-- `P1S_ENC` (R211). -/
def execP1sEnc (len : Nat) (s : State) : Host.Outcome State Fault Refusal :=
  .next (s.finishEm .component (s.p1sEncOp len))

/-- What `PKCS1_SIGN` writes (R212): the encoded message has length `k` (90_conflicts.md C4). -/
def State.pkcs1SignOp (s : State) : Except ErrKind Bytes :=
  if s.overCap .msg then .error .capacityExceeded
  else do
    let priv ← s.privKey.check
    let em ← p1sEncode s.digest (s.val .msg) (kOf priv.n)
    signEm priv em

/-- `PKCS1_SIGN` (R212). -/
def execPkcs1Sign (s : State) : Host.Outcome State Fault Refusal := .next (s.finishOut .scheme s.pkcs1SignOp)

/-- The verdict of `PKCS1_VERIFY` on a checked key (R213): re-encode, recover, compare; every inner failure is
`false`. -/
def pkcs1VerifySignature (D : Digest) (pub : PubKey) (m sig : Bytes) : Bool :=
  let k := kOf pub.n
  if sig.length = k then
    match p1sEncode D m k with
    | .error _ => false
    | .ok em' =>
      match rsaPublic pub (os2ip sig) .signatureOutOfRange with
      | .error _ => false
      | .ok x =>
        match i2osp x k with
        | .error _ => false
        | .ok em => decide (em = em')
  else false

/-- The outcome of `PKCS1_VERIFY` (R213). -/
def State.pkcs1VerifyOp (s : State) : Except ErrKind Bool :=
  if s.overCap .msg || s.overCap .aux then .error .capacityExceeded
  else do
    let pub ← s.pubKey.check
    return pkcs1VerifySignature s.digest pub (s.val .msg) (s.val .aux)

/-- `PKCS1_VERIFY` (R213). -/
def execPkcs1Verify (s : State) : Host.Outcome State Fault Refusal := .next (s.finishVerdict .scheme s.pkcs1VerifyOp)

end Sys2Proof.Machine
end

