-- ==== Sys2Proof/Machine/Dispatch.lean ====
section
/-! DEFINITION. `exec`: the completion of each command (10_state.md R40, 40_converters_primitives.md R100). -/

namespace Sys2Proof.Machine

def exec (i : Instr) (s : State) : Host.Outcome State Fault Refusal :=
  match i with
  -- housekeeping, converters, primitives, comparator: 40_converters_primitives.md
  | .clear sel => Sys2Proof.Machine.execClear sel s
  | .i2osp sel len => Sys2Proof.Machine.execI2osp sel len s
  | .os2ip sel => Sys2Proof.Machine.execOs2ip sel s
  | .rsaep => Sys2Proof.Machine.execRsaep s
  | .rsadp => Sys2Proof.Machine.execRsadp s
  | .rsasp1 => Sys2Proof.Machine.execRsasp1 s
  | .rsavp1 => Sys2Proof.Machine.execRsavp1 s
  | .cmpem => Sys2Proof.Machine.execCmpem s
  -- 41_mgf1.md
  | .mgf1 len => Sys2Proof.Machine.execMgf1 len s
  -- 42_oaep.md
  | .oaepEnc fix len => Sys2Proof.Machine.execOaepEnc fix len s
  | .oaepDec len => Sys2Proof.Machine.execOaepDec len s
  | .oaepEncrypt fix => Sys2Proof.Machine.execOaepEncrypt fix s
  | .oaepDecrypt => Sys2Proof.Machine.execOaepDecrypt s
  -- 43_pkcs1_encryption.md
  | .p1eEnc fix len => Sys2Proof.Machine.execP1eEnc fix len s
  | .p1eDec len => Sys2Proof.Machine.execP1eDec len s
  | .pkcs1Encrypt fix => Sys2Proof.Machine.execPkcs1Encrypt fix s
  | .pkcs1Decrypt => Sys2Proof.Machine.execPkcs1Decrypt s
  -- 44_pss.md
  | .pssEnc fix len => Sys2Proof.Machine.execPssEnc fix len s
  | .pssVfy len => Sys2Proof.Machine.execPssVfy len s
  | .pssSign fix => Sys2Proof.Machine.execPssSign fix s
  | .pssVerify => Sys2Proof.Machine.execPssVerify s
  -- 45_pkcs1_signature.md
  | .p1sEnc len => Sys2Proof.Machine.execP1sEnc len s
  | .pkcs1Sign => Sys2Proof.Machine.execPkcs1Sign s
  | .pkcs1Verify => Sys2Proof.Machine.execPkcs1Verify s

end Sys2Proof.Machine
end

