-- ==== Sys2Proof/Machine/CommandUnit.lean ====
section
/-! DEFINITION. The command unit's turn: the completion step of the latched word (10_state.md R40). -/

namespace Sys2Proof.Machine

/-- The completion step of CMDL: an illegal word takes IllegalCommand (30_encoding.md R86), a legal one is executed. -/
def State.complete (s : State) : Host.Outcome State Fault Refusal :=
  match decode s.cmdl with
  | .error _ => .next s.raiseIllegal
  | .ok i => exec i s

/-- The command unit's turn: its one enabled step while BUSY = 1; while BUSY = 0 it has none and the state is kept
(10_state.md R40, 60_exceptions.md R241; log 2). -/
def State.unitTurn (s : State) : Host.Outcome State Fault Refusal := if s.status.busy then s.complete else .next s

/-- The next turn of the schedule. With no turn left the command unit has it, so a launched command completes
(10_state.md R40; log 1). -/
def State.turn (s : State) : Host.Outcome State Fault Refusal :=
  match s.script with
  | [] => s.unitTurn
  | .commandUnit :: rest => State.unitTurn { s with script := rest }
  | .host a :: rest => .next (State.hostTurn { s with script := rest } a)
  | .reset :: rest => .next (State.resetTurn { s with script := rest })

/-- The schedule with the command unit's turn next. -/
def unitNext : List Turn → List Turn
  | [] => []
  | t :: rest => .commandUnit :: t :: rest

/-- The state in which a word is latched and launched and the command unit has the next turn. -/
def State.launchNext (s : State) (w : Word) : State := { s.launch w with script := unitNext s.script }

end Sys2Proof.Machine
end

