-- ==== Sys2Proof/Machine/Step.lean ====
section
/-! DEFINITION. One step of the machine: the next turn of the schedule (00_scope.md R15), and how a command word comes
to be the next one to run (log 9). -/

namespace Sys2Proof.Machine

/-- One step: the next turn of the schedule. -/
def step (s : State) : Host.Outcome State Fault Refusal := s.turn

/-- The state in which a command word (`nbits` low bits of `w`, the bits above 0) is the one the next step runs: CKPAD
has no fetch (10_state.md R36), so the word is the one latched by a launch (R39) and the command unit has the turn. -/
def State.withFetchWord (s : State) (nbits w : Nat) : State := s.launchNext (BitVec.ofNat 32 (w % 2 ^ nbits))

end Sys2Proof.Machine
end

