-- ==== Sys2Proof/Machine/HostScript.lean ====
section
/-! DEFINITION. The pseudo-instructions of host scripts as lists of turns (30_encoding.md R89). -/

namespace Sys2Proof.Machine

/-- The row of the address map that holds a kind. -/
def regionOf (k : RegionKind) : Option Region := addressMap.find? fun r => r.kind == k

/-- The offset of a register or buffer (20_memory.md R66). -/
def offsetOf (k : RegionKind) : Nat :=
  match regionOf k with
  | none => 0
  | some r => r.base

/-- `MemRead(addr, 4)` as a turn (20_memory.md R61). -/
def memRead (a : Nat) : Turn := .host (.read .w32 (BitVec.ofNat 16 a))

/-- `MemWrite(addr, 4, v)` as a turn (20_memory.md R62). -/
def memWrite (a : Nat) (v : Word) : Turn := .host (.write .w32 (BitVec.ofNat 16 a) v)

/-- `WR reg, v` (R89). -/
def scriptWr (k : RegionKind) (v : Word) : List Turn := [memWrite (offsetOf k) v]

/-- `RD reg` (R89). -/
def scriptRd (k : RegionKind) : List Turn := [memRead (offsetOf k)]

/-- `word_j` of an octet string: octets `4j .. 4j+3`, 0x00 past its end (R89, 20_memory.md R63). -/
def packWord (x : Bytes) (j : Nat) : Word :=
  x.getD (4 * j + 3) 0 ++ x.getD (4 * j + 2) 0 ++ x.getD (4 * j + 1) 0 ++ x.getD (4 * j) 0

/-- `LDB buf, s`: the data words, then the length register (R89). -/
def scriptLdb (b : BufName) (x : Bytes) : List Turn :=
  (List.range (ceilDiv4 x.length)).map (fun j => memWrite (offsetOf (.data b) + 4 * j) (packWord x j))
    ++ scriptWr (.length b) (BitVec.ofNat 32 x.length)
where
  /-- `ceil(n / 4)`. -/
  ceilDiv4 (n : Nat) : Nat := (n + 3) / 4

/-- `LDI reg, x`: all `KMAX / 4` limbs, the least significant first (R89). -/
def scriptLdi (r : IntReg) (x : Nat) : List Turn :=
  (List.range (Config.kMax / 4)).map fun j =>
    memWrite (offsetOf (.integer r) + 4 * j) (BitVec.ofNat 32 (x / 2 ^ (32 * j)))

/-- `RUN cmd` under a schedule: the launch, `polls` reads of STATUS that find BUSY = 1, the command unit's turn, and
the read that finds BUSY = 0 (R89; the number of polls is the schedule's, log 1). -/
def scriptRun (w : Word) (polls : Nat) : List Turn :=
  scriptWr (.control .cmd) w ++ List.replicate polls (memRead (offsetOf (.control .status))) ++ [.commandUnit]
    ++ scriptRd (.control .status)

/-- `RDB buf` for a buffer whose length register holds `n`: the length register, then `ceil(n / 4)` data words (R89). -/
def scriptRdb (b : BufName) (n : Nat) : List Turn :=
  scriptRd (.length b) ++ (List.range ((n + 3) / 4)).map fun j => memRead (offsetOf (.data b) + 4 * j)

/-- The octets of a bus word in ascending address order (20_memory.md R63). -/
def unpackWord (w : Word) : Bytes :=
  [w.extractLsb' 0 8, w.extractLsb' 8 8, w.extractLsb' 16 8, w.extractLsb' 24 8]

/-- The octet string `RDB` reassembles from a length and the data words read (R89). -/
def reassemble (n : Nat) (ws : List Word) : Bytes := (ws.flatMap unpackWord).take n

end Sys2Proof.Machine
end

