-- ==== Sys2Proof/Safety.lean ====
section
/-! DEFINITION. The terms claims use: the invariant of every reachable state, safe host runs, the tables of
60_exceptions.md R230 and R232 by command, the acceptance conditions of the decoders and verifiers as plain
propositions, and key pairs. -/

namespace Sys2Proof.Machine

/-! ### The invariant -/

/-- A buffer is in canonical form and lists no octet at or beyond its capacity. -/
def Buffer.wf (cap : Nat) (x : Buffer) : Bool := x.data.wf && x.data.below cap

/-- The flags are those of an idle, a busy or a completed CKPAD: BUSY and DONE are never both 1 (10_state.md R33); BUSY
clears VALID and ERR (R39); VALID comes only with DONE and ERR = OK (R33, 60_exceptions.md R239); `MaskTooLong` is
never reported (60_exceptions.md R230). -/
def Status.wf (s : Status) : Bool :=
  (!s.busy || (!s.done && !s.valid && s.err.isNone)) && (!s.valid || (s.done && s.err.isNone))
    && decide (s.err ≠ some .maskTooLong)

/-- The invariant: every buffer well-formed within its capacity, the flags consistent. -/
def State.inv (s : State) : Bool :=
  s.msg.wf BufName.msg.cap && s.lbl.wf BufName.lbl.cap && s.aux.wf BufName.aux.cap && s.em.wf BufName.em.cap
    && s.out.wf BufName.out.cap && s.status.wf

/-- A host run is correct only if HZD stays 0 (70_reset_and_hazards.md R263): the host broke no rule of the busy
window. -/
def State.safe (s : State) : Bool := s.inv && !s.status.hzd

/-! ### Completions -/

/-- STATUS after a completion: BUSY 0, DONE 1, VALID and ERR as given, HZD kept (10_state.md R40, R34). -/
def doneFlags (s : State) (valid : Bool) (err : Option ErrKind) : Status := ⟨false, true, valid, s.status.hzd, err⟩

/-- The layer of a command: the eight scheme commands of 40_converters_primitives.md R100. -/
def layerOf : Instr → Layer
  | .oaepEncrypt _ | .oaepDecrypt | .pkcs1Encrypt _ | .pkcs1Decrypt | .pssSign _ | .pssVerify | .pkcs1Sign
  | .pkcs1Verify => .scheme
  | .clear _ | .i2osp _ _ | .os2ip _ | .rsaep | .rsadp | .rsasp1 | .rsavp1 | .cmpem | .mgf1 _ | .oaepEnc _ _
  | .oaepDec _ | .p1eEnc _ _ | .p1eDec _ | .pssEnc _ _ | .pssVfy _ | .p1sEnc _ => .component

/-- The destination a failing command clears (60_exceptions.md R232). -/
def destOf : Instr → Option Dest
  | .i2osp sel _ => some (if sel then .em else .out)
  | .os2ip _ | .rsaep | .rsadp | .rsasp1 | .rsavp1 => some .xi
  | .mgf1 _ | .oaepDec _ | .p1eDec _ => some .out
  | .oaepEnc _ _ | .p1eEnc _ _ | .pssEnc _ _ | .p1sEnc _ => some .em
  | .oaepEncrypt _ | .oaepDecrypt | .pkcs1Encrypt _ | .pkcs1Decrypt | .pssSign _ | .pkcs1Sign => some .out
  | .clear _ | .cmpem | .pssVfy _ | .pssVerify | .pkcs1Verify => none

/-- The state a command leaves when it fails with a kind (60_exceptions.md R232(b) to (d)). -/
def State.failed (s : State) (i : Instr) (e : ErrKind) : State :=
  { s with
    out := if destOf i = some .out then Buffer.empty else s.out
    em := if destOf i = some .em ∨ layerOf i = .scheme then Buffer.empty else s.em
    xi := if destOf i = some .xi ∨ layerOf i = .scheme then 0 else s.xi
    status := doneFlags s false (some e) }

/-- The four commands that produce VALID (60_exceptions.md R239). -/
def producesValid : Instr → Bool
  | .pssVfy _ | .pssVerify | .pkcs1Verify | .cmpem => true
  | .clear _ | .i2osp _ _ | .os2ip _ | .rsaep | .rsadp | .rsasp1 | .rsavp1 | .mgf1 _ | .oaepEnc _ _ | .oaepDec _
  | .oaepEncrypt _ | .oaepDecrypt | .p1eEnc _ _ | .p1eDec _ | .pkcs1Encrypt _ | .pkcs1Decrypt | .pssEnc _ _
  | .pssSign _ | .p1sEnc _ | .pkcs1Sign => false

/-- The kinds a legal command can report: the `ERR` list of each command's rule, a bad supplied seed, `PS` or salt only
with `FIX = 1` (60_exceptions.md R230). -/
def mayReport : Instr → List ErrKind
  | .clear _ => []
  | .i2osp _ _ => [.capacityExceeded, .integerTooLarge]
  | .os2ip _ => [.capacityExceeded]
  | .rsaep => [.illegalParameter, .representativeOutOfRange]
  | .rsadp => [.illegalParameter, .capacityExceeded, .representativeOutOfRange]
  | .rsasp1 => [.illegalParameter, .capacityExceeded, .signatureOutOfRange]
  | .rsavp1 => [.illegalParameter, .signatureOutOfRange]
  | .cmpem => [.capacityExceeded, .invalidSignature]
  | .mgf1 _ => [.capacityExceeded]
  | .oaepEnc fix _ => [.capacityExceeded, .messageTooLong] ++ if fix then [.invalidSeed] else []
  | .oaepDec _ => [.capacityExceeded, .decryptionFailure]
  | .oaepEncrypt fix => [.capacityExceeded, .illegalParameter, .messageTooLong] ++ if fix then [.invalidSeed] else []
  | .oaepDecrypt => [.capacityExceeded, .illegalParameter, .decryptionFailure]
  | .p1eEnc fix _ => [.capacityExceeded, .messageTooLong] ++ if fix then [.illegalParameter] else []
  | .p1eDec _ => [.capacityExceeded, .decryptionFailure]
  | .pkcs1Encrypt _ => [.capacityExceeded, .illegalParameter, .messageTooLong]
  | .pkcs1Decrypt => [.capacityExceeded, .illegalParameter, .decryptionFailure]
  | .pssEnc fix _ => [.capacityExceeded, .encodingError] ++ if fix then [.illegalParameter] else []
  | .pssVfy _ => [.capacityExceeded, .invalidSignature]
  | .pssSign _ => [.capacityExceeded, .illegalParameter, .encodingError]
  | .pssVerify => [.capacityExceeded, .illegalParameter, .invalidSignature]
  | .p1sEnc _ => [.capacityExceeded, .encodingError]
  | .pkcs1Sign => [.capacityExceeded, .illegalParameter, .encodingError]
  | .pkcs1Verify => [.capacityExceeded, .illegalParameter, .invalidSignature]

/-- Stage 2 of rule R100 by command: a length register beyond its buffer's capacity, or a `LEN` that gives a result
beyond KMAX (40_converters_primitives.md R100, R103, R105, R106, and the rule of each command). AUX counts only with
`FIX = 1` where it is a seed, `PS` or salt. -/
def overCapacity (s : State) : Instr → Prop
  | .clear _ | .rsaep | .rsadp | .rsasp1 | .rsavp1 => False
  | .i2osp _ len => 512 < len
  | .os2ip sel => 512 < s.bufLen (if sel then .msg else .em)
  | .cmpem => 512 < s.bufLen .em ∨ 512 < s.bufLen .out
  | .mgf1 len => 512 < s.bufLen .aux ∨ 512 < len
  | .oaepEnc fix len =>
    4096 < s.bufLen .msg ∨ 512 < s.bufLen .lbl ∨ (fix = true ∧ 512 < s.bufLen .aux) ∨ 512 < len
  | .oaepDec len => 512 < s.bufLen .em ∨ 512 < s.bufLen .lbl ∨ 512 < len
  | .oaepEncrypt fix => 4096 < s.bufLen .msg ∨ 512 < s.bufLen .lbl ∨ (fix = true ∧ 512 < s.bufLen .aux)
  | .oaepDecrypt => 4096 < s.bufLen .msg ∨ 512 < s.bufLen .lbl
  | .p1eEnc fix len => 4096 < s.bufLen .msg ∨ (fix = true ∧ 512 < s.bufLen .aux) ∨ 512 < len
  | .p1eDec len => 512 < s.bufLen .em ∨ 512 < len
  | .pkcs1Encrypt fix => 4096 < s.bufLen .msg ∨ (fix = true ∧ 512 < s.bufLen .aux)
  | .pkcs1Decrypt => 4096 < s.bufLen .msg
  | .pssEnc fix len => 4096 < s.bufLen .msg ∨ (fix = true ∧ 512 < s.bufLen .aux) ∨ 512 < (len + 7) / 8
  | .pssVfy len => 4096 < s.bufLen .msg ∨ 512 < s.bufLen .em ∨ 512 < (len + 7) / 8
  | .pssSign fix => 4096 < s.bufLen .msg ∨ (fix = true ∧ 512 < s.bufLen .aux)
  | .pssVerify => 4096 < s.bufLen .msg ∨ 512 < s.bufLen .aux
  | .p1sEnc len => 4096 < s.bufLen .msg ∨ 512 < len
  | .pkcs1Sign => 4096 < s.bufLen .msg
  | .pkcs1Verify => 4096 < s.bufLen .msg ∨ 512 < s.bufLen .aux

/-- Whether a command works with the private key in force (10_state.md R28, R31). -/
def usesPrivateKey : Instr → Bool
  | .rsadp | .rsasp1 | .oaepDecrypt | .pkcs1Decrypt | .pssSign _ | .pkcs1Sign => true
  | .clear _ | .i2osp _ _ | .os2ip _ | .rsaep | .rsavp1 | .cmpem | .mgf1 _ | .oaepEnc _ _ | .oaepDec _ | .oaepEncrypt _
  | .p1eEnc _ _ | .p1eDec _ | .pkcs1Encrypt _ | .pssEnc _ _ | .pssVfy _ | .pssVerify | .p1sEnc _ | .pkcs1Verify => false

/-- The modulus a command works with: `N`, `nPriv`, or none (10_state.md R28, R29). -/
def keyModulus (s : State) : Instr → Option Nat
  | .rsaep | .rsavp1 | .oaepEncrypt _ | .pkcs1Encrypt _ | .pssVerify | .pkcs1Verify => some s.keys.n.toNat
  | .rsadp | .rsasp1 | .oaepDecrypt | .pkcs1Decrypt | .pssSign _ | .pkcs1Sign => some s.privKey.n
  | .clear _ | .i2osp _ _ | .os2ip _ | .cmpem | .mgf1 _ | .oaepEnc _ _ | .oaepDec _ | .p1eEnc _ _ | .p1eDec _
  | .pssEnc _ _ | .pssVfy _ | .p1sEnc _ => none

/-! ### The address map in figures -/

/-- The base offset of a buffer (20_memory.md R66). -/
def bufBase : BufName → Nat
  | .msg => 0x1000
  | .lbl => 0x2000
  | .aux => 0x2200
  | .em => 0x2400
  | .out => 0x2600

/-- The offset of a length register (20_memory.md R66). -/
def lenOffset : BufName → Nat
  | .msg => 0x0010
  | .lbl => 0x0014
  | .aux => 0x0018
  | .em => 0x001C
  | .out => 0x0020

/-- The base offset of an integer register (20_memory.md R66). -/
def intBase : IntReg → Nat
  | .xi => 0x2800
  | .n => 0x3000
  | .e => 0x3200
  | .pn => 0x3400
  | .d => 0x3600
  | .p => 0x3800
  | .q => 0x3A00
  | .dp => 0x3C00
  | .dq => 0x3E00
  | .qinv => 0x4000

/-- The unmapped ranges (20_memory.md R66). -/
def unmapped (a : Nat) : Prop := (0x24 ≤ a ∧ a ≤ 0x0FFF) ∨ (0x2A00 ≤ a ∧ a ≤ 0x2FFF) ∨ (0x4200 ≤ a ∧ a ≤ 0xFFFF)

/-! ### What two states share -/

/-- Two states that differ at most in buffer octets at or beyond the length registers (10_state.md R23). Their draw counters
are equal, so a command takes the same draw in both (log 4, DESIGN CHOICE). -/
def SameBelowLengths (s t : State) : Prop :=
  (∀ b, (s.buf b).len = (t.buf b).len ∧ ∀ i, i < s.bufLen b → s.octet b i = t.octet b i) ∧ s.xi = t.xi ∧ s.keys = t.keys
    ∧ s.cmdl = t.cmdl ∧ s.status = t.status ∧ s.cfg = t.cfg ∧ s.slen = t.slen ∧ s.draws = t.draws
    ∧ s.script = t.script ∧ s.responses = t.responses

/-! ### Acceptance -/

/-- `EM` is an OAEP encoding of `M` with label `L` in `k` octets: leading octet 00, and the unmasked `DB` is
`lHash || 00..00 || 01 || M` (42_oaep.md R150, R152). -/
def OaepAccepts (D : Digest) (k : Nat) (em l m : Bytes) : Prop :=
  ∃ maskedSeed maskedDB seedMask dbMask pad,
    em = [0x00] ++ maskedSeed ++ maskedDB ∧ maskedSeed.length = D.hLen ∧ em.length = k ∧ 2 * D.hLen + 2 ≤ k
      ∧ mgf1 D maskedDB D.hLen = .ok seedMask
      ∧ mgf1 D (xorBytes maskedSeed seedMask) (k - D.hLen - 1) = .ok dbMask
      ∧ xorBytes maskedDB dbMask = D.hash l ++ zeros pad ++ [0x01] ++ m

/-- `EM` is a PKCS#1 v1.5 encryption encoding of `M` in `k` octets: `00 02 PS 00 M`, `PS` of at least 8 octets, none of
them 00 (43_pkcs1_encryption.md R172). -/
def P1eAccepts (k : Nat) (em m : Bytes) : Prop :=
  em.length = k ∧ ∃ ps : Bytes, em = [0x00, 0x02] ++ ps ++ [0x00] ++ m ∧ (0x00 : Byte) ∉ ps ∧ 8 ≤ ps.length

/-- `EM` is a PSS encoding of `M` in `emBits` bits with some salt of `sLen` octets (44_pss.md R192): `maskedDB || H || bc`,
the top `z` bits of `maskedDB` 0, the unmasked `DB` with its top `z` bits cleared `00..00 || 01 || salt`, and `H` the
recomputed hash. -/
def PssAccepts (D : Digest) (m em : Bytes) (emBits sLen : Nat) : Prop :=
  ∃ maskedDB h dbMask salt,
    em = maskedDB ++ h ++ [0xBC] ∧ em.length = (emBits + 7) / 8 ∧ h.length = D.hLen ∧ salt.length = sLen
      ∧ D.hLen + sLen + 2 ≤ (emBits + 7) / 8
      ∧ clearTop (8 * ((emBits + 7) / 8) - emBits) maskedDB = maskedDB
      ∧ mgf1 D h maskedDB.length = .ok dbMask
      ∧ clearTop (8 * ((emBits + 7) / 8) - emBits) (xorBytes maskedDB dbMask)
          = zeros ((emBits + 7) / 8 - D.hLen - sLen - 2) ++ [0x01] ++ salt
      ∧ D.hash (zeros 8 ++ D.hash m ++ salt) = h

/-! ### Key pairs -/

/-- A public and a private key that belong together (40_converters_primitives.md R119): distinct primes, `n = p*q`,
`e*d = 1 mod lcm(p-1, q-1)`, the CRT values those of `d`. The primes are odd: for `p = 2` the value `dP = d mod 1` is 0
and R119's equivalence fails (log 18). -/
def RsaPair (pub : PubKey) (priv : PrivKey) : Prop :=
  ∃ p q d : Nat, p.Prime ∧ q.Prime ∧ p ≠ q ∧ 2 < p ∧ 2 < q ∧ pub.n = p * q
    ∧ pub.e * d % Nat.lcm (p - 1) (q - 1) = 1
    ∧ (priv = .modulus (p * q) d
      ∨ ∃ qinv, qinv * q % p = 1 ∧ priv = .crt p q (d % (p - 1)) (d % (q - 1)) qinv)

end Sys2Proof.Machine
end

