-- ==== Sys2Proof/Certificates/Slice0/Obligations.lean ====
section
/-! DEFINITION. The statements for the provers. `doneFlags s v e` is STATUS after a completion, `s.failed i e` the state a
command `i` leaves when it fails with kind `e`; both are spelled out in Safety.lean. A completion statement equates
`exec i s` with a whole next state, so its frame is the record update it shows: every field not named is unchanged. -/

open Sys2Proof Sys2Proof.Machine

/-! ### Encoding -/

/-- Decoding an encoded well-formed command gives it back, for every command and every operand; and a legal word is the
encoding of the well-formed command it decodes to (30_encoding.md R81, R84, R85). -/
def Obligations.DecodeEncodeAgree : Prop :=
  (∀ i : Instr, i.wellFormed = true → decode (encode i) = .ok i)
    ∧ ∀ (w : Word) (i : Instr), decode w = .ok i → i.wellFormed = true ∧ encode i = w

/-- R85: a word is legal for a mnemonic exactly when the four clauses hold, which is exactly `w AND mask = match`, with
the mask of the rule. -/
def Obligations.LegalExactlyByPattern : Prop :=
  ∀ (w : Word) (o : Opcode),
    ((∃ i, decode w = .ok i ∧ i.opcode = o) ↔
      w.extractLsb' 0 8 = o.code ∧ w.extractLsb' 10 6 = 0
        ∧ (o.hasFix = false → w.getLsbD 8 = false) ∧ (o.hasSel = false → w.getLsbD 9 = false)
        ∧ (o.format = .n → w.extractLsb' 16 16 = 0))
    ∧ ((∃ i, decode w = .ok i ∧ i.opcode = o) ↔
      w &&& (0x0000FCFF ||| (if o.hasFix then 0 else 0x00000100) ||| (if o.hasSel then 0 else 0x00000200)
        ||| (if o.format = .n then 0xFFFF0000 else 0)) = o.code.setWidth 32)

/-- The example words of 30_encoding.md R88, written out, decode to the commands they stand for. -/
def Obligations.ExampleWordsDecode : Prop :=
  decode 0x00800130 = .ok (.oaepEnc true 128) ∧ decode 0x00800210 = .ok (.i2osp true 128)
    ∧ decode 0x00040010 = .ok (.i2osp false 4) ∧ decode 0x00000011 = .ok (.os2ip false)
    ∧ decode 0x00000211 = .ok (.os2ip true) ∧ decode 0x00000201 = .ok (.clear true)
    ∧ decode 0x03FF0150 = .ok (.pssEnc true 1023) ∧ decode 0x00000063 = .ok .pkcs1Verify

/-! ### Steps -/

/-- A step of the command unit while BUSY = 1 runs the command CMDL decodes to; and the word `withFetchWord` places is
the one the very next step runs. -/
def Obligations.StepRunsDecodedCommand : Prop :=
  ∀ (s : State) (i : Instr),
    (s.status.busy = true → decode s.cmdl = .ok i → s.script = [] → step s = exec i s)
    ∧ (∀ rest, s.status.busy = true → decode s.cmdl = .ok i → s.script = .commandUnit :: rest →
        step s = exec i { s with script := rest })
    ∧ (∀ nbits w, decode (BitVec.ofNat 32 (w % 2 ^ nbits)) = .ok i →
        step (s.withFetchWord nbits w) = exec i { s with
          cmdl := BitVec.ofNat 32 (w % 2 ^ nbits), status := ⟨true, false, false, s.status.hzd, none⟩ })

/-- R86: an illegal word is latched and launched like any other; its completion step changes nothing but STATUS, with
ERR = IllegalCommand, VALID 0, BUSY 0, DONE 1. -/
def Obligations.IllegalWordCompletes : Prop :=
  ∀ (s : State) (w : Word) (e : DecodeError), s.status.busy = false → decode w = .error e →
    (s.perform (.write .w32 0x0000 w)).1 = { s with cmdl := w, status := ⟨true, false, false, s.status.hzd, none⟩ }
    ∧ State.complete (s.perform (.write .w32 0x0000 w)).1
        = .next { s with cmdl := w, status := ⟨false, true, false, s.status.hzd, some .illegalCommand⟩ }

/-- R39: a write of CMD while idle latches the word, legal or not, sets BUSY, clears DONE, VALID and ERR, and changes
nothing else; while BUSY = 1 it is dropped (R42). -/
def Obligations.LaunchLatchesWord : Prop :=
  ∀ (s : State) (w : Word),
    (s.status.busy = false → (s.perform (.write .w32 0x0000 w)).1
      = { s with cmdl := w, status := ⟨true, false, false, s.status.hzd, none⟩ })
    ∧ (s.status.busy = true → (s.perform (.write .w32 0x0000 w)).1 = { s with status := { s.status with hzd := true } })

/-- R89, R39, R40, R42: the host pseudo-instruction `RUN`: a write of the word to CMD, any number of reads of STATUS
that find BUSY = 1, the completion, and the read that finds BUSY = 0. How many reads come before the completion is the
model's schedule (log 1). -/
def Obligations.RunPseudoInstruction : Prop :=
  ∀ (s t : State) (w : Word) (i : Instr) (polls : Nat) (rest : List Turn),
    s.status.busy = false → s.script = scriptRun w polls ++ rest → decode w = .ok i →
    exec i (s.launch w) = .next t →
    Host.Core.run Sys2Proof.core (polls + 3) s = .next { t with
      script := rest
      responses := s.responses ++ [.written]
        ++ List.replicate polls (.data (⟨true, false, false, s.status.hzd, none⟩ : Status).word)
        ++ [.data t.status.word] }

/-- R41: the state right after reset, and the state after a reset turn from any state, have every register at its reset
value. -/
def Obligations.ResetRestoresResetValues : Prop :=
  ∀ t : State, (t = State.reset ∨ ∃ (s : State) (rest : List Turn), s.script = .reset :: rest ∧ step s = .next t) →
    (∀ b, t.bufLen b = 0 ∧ ∀ i, t.octet b i = 0) ∧ (∀ r, t.intReg r = 0) ∧ t.cmdl = 0 ∧ t.status.word = 0
      ∧ t.status = ⟨false, false, false, false, none⟩ ∧ t.cfg.word = 0 ∧ t.cfg.hash = .sha224 ∧ t.cfg.kform = .modulus
      ∧ t.slen = 0

/-- Every step answers a next state: CKPAD has no state and no word on which it stops (70_reset_and_hazards.md R262,
30_encoding.md R87); while idle the command unit's turn changes nothing (the model's choice, log 2). -/
def Obligations.EveryStepAnswersNext : Prop :=
  (∀ s : State, ∃ t, step s = .next t)
    ∧ ∀ s : State, s.status.busy = false → s.script = [] → step s = .next s

/-- The invariant holds after reset. -/
def Obligations.ResetMeetsInvariant : Prop := State.reset.inv = true

/-- Every step keeps the invariant: buffers in canonical form within their capacity; BUSY and DONE never both 1; VALID
only with DONE and ERR = OK; MaskTooLong never reported. -/
def Obligations.StepKeepsInvariant : Prop := ∀ s t : State, s.inv = true → step s = .next t → t.inv = true

/-! ### The bus -/

/-- R42: while BUSY = 1, on mapped offsets: reads of STATUS and CMD are normal, every other read returns 0 and sets HZD,
every write changes nothing but HZD. -/
def Obligations.BusyAccessOnlyMarksHazard : Prop :=
  ∀ (s : State) (a : Offset) (v : Word), s.status.busy = true → a.toNat % 4 = 0 → ¬ unmapped a.toNat →
    (a = 0x0000 → s.perform (.read .w32 a) = (s, .data s.cmdl))
    ∧ (a = 0x0004 → s.perform (.read .w32 a) = (s, .data s.status.word))
    ∧ (a ≠ 0x0000 → a ≠ 0x0004 →
        s.perform (.read .w32 a) = ({ s with status := { s.status with hzd := true } }, .data 0))
    ∧ (s.perform (.write .w32 a v)).1 = { s with status := { s.status with hzd := true } }

/-- R65, R67: an access of another width, a misaligned one, or one to an unmapped offset is answered with a bus error
and changes no state, busy or not. -/
def Obligations.BusErrorChangesNothing : Prop :=
  ∀ (s : State) (w : Width) (a : Offset) (v : Word), w ≠ .w32 ∨ a.toNat % 4 ≠ 0 ∨ unmapped a.toNat →
    s.perform (.read w a) = (s, .busError) ∧ s.perform (.write w a v) = (s, .busError)

/-- R66: the address map, mapped and unmapped. -/
def Obligations.AddressMapPlacesRegisters : Prop :=
  locate 0x0000 = some (.control .cmd, 0) ∧ locate 0x0004 = some (.control .status, 0)
    ∧ locate 0x0008 = some (.control .cfg, 0) ∧ locate 0x000C = some (.control .slen, 0)
    ∧ (∀ b, locate (lenOffset b) = some (.length b, 0))
    ∧ (∀ b j, 4 * j < b.cap → locate (bufBase b + 4 * j) = some (.data b, j))
    ∧ (∀ r j, j < 128 → locate (intBase r + 4 * j) = some (.integer r, j))
    ∧ (∀ a, unmapped a → locate a = none)

/-- R63: word `j` of a buffer holds octets `4j .. 4j+3`, little-endian lanes; a write sets those four octets and leaves
every other octet, every length register and every other buffer alone. -/
def Obligations.BufferWordLanes : Prop :=
  ∀ (s : State) (b : BufName) (j : Nat) (v : Word), s.inv = true → s.status.busy = false → 4 * j < b.cap →
    (∃ w, s.perform (.read .w32 (BitVec.ofNat 16 (bufBase b + 4 * j))) = (s, .data w)
      ∧ ∀ l, l < 4 → w.extractLsb' (8 * l) 8 = s.octet b (4 * j + l))
    ∧ ∃ x, (s.perform (.write .w32 (BitVec.ofNat 16 (bufBase b + 4 * j)) v)).1 = s.setBuf b x
      ∧ x.len = (s.buf b).len
      ∧ (∀ l, l < 4 → x.data.read (4 * j + l) = v.extractLsb' (8 * l) 8)
      ∧ (∀ i, i < 4 * j ∨ 4 * j + 4 ≤ i → x.data.read i = s.octet b i)

/-- R64: word `j` of an integer register is its limb `floor(R / 2^(32j)) mod 2^32`; a write replaces that limb and leaves
the others and every other register alone. -/
def Obligations.IntegerLimbs : Prop :=
  ∀ (s : State) (r : IntReg) (j : Nat) (v : Word), s.status.busy = false → j < 128 →
    s.perform (.read .w32 (BitVec.ofNat 16 (intBase r + 4 * j)))
        = (s, .data (BitVec.ofNat 32 ((s.intReg r).toNat / 2 ^ (32 * j))))
    ∧ ∃ x : BigWord, (s.perform (.write .w32 (BitVec.ofNat 16 (intBase r + 4 * j)) v)).1 = s.setIntReg r x
      ∧ ∀ k, k < 128 → x.toNat / 2 ^ (32 * k) % 2 ^ 32
          = if k = j then v.toNat else (s.intReg r).toNat / 2 ^ (32 * k) % 2 ^ 32

/-- R31, R32, R22: CFG stores its two fields and drops its reserved bits; SLEN and the length registers store any word;
each reads back; nothing else changes. -/
def Obligations.ConfigurationRegistersStore : Prop :=
  ∀ (s : State) (v : Word), s.status.busy = false →
    (∃ c, (s.perform (.write .w32 0x0008 v)).1 = { s with cfg := c } ∧ c.word = v &&& 0x00000103
      ∧ (c.hash = .sha224 ↔ v.extractLsb' 0 2 = 0) ∧ (c.hash = .sha256 ↔ v.extractLsb' 0 2 = 1)
      ∧ (c.hash = .sha384 ↔ v.extractLsb' 0 2 = 2) ∧ (c.hash = .sha512 ↔ v.extractLsb' 0 2 = 3)
      ∧ (c.kform = .crt ↔ v.getLsbD 8 = true))
    ∧ s.perform (.read .w32 0x0008) = (s, .data s.cfg.word)
    ∧ (s.perform (.write .w32 0x000C v)).1 = { s with slen := v }
    ∧ s.perform (.read .w32 0x000C) = (s, .data s.slen)
    ∧ ∀ b, (s.perform (.write .w32 (BitVec.ofNat 16 (lenOffset b)) v)).1 = s.setBuf b { s.buf b with len := v }
      ∧ s.perform (.read .w32 (BitVec.ofNat 16 (lenOffset b))) = (s, .data (s.buf b).len)

/-- R33: the places of the fields of STATUS and the codes of ERR; the reserved bits read 0. -/
def Obligations.StatusWordLayout : Prop :=
  ∀ s : State, s.perform (.read .w32 0x0004) = (s, .data s.status.word)
    ∧ s.status.word.getLsbD 0 = s.status.busy ∧ s.status.word.getLsbD 1 = s.status.done
    ∧ s.status.word.getLsbD 2 = s.status.valid ∧ s.status.word.getLsbD 3 = s.status.hzd
    ∧ s.status.word.extractLsb' 4 4 = 0 ∧ s.status.word.extractLsb' 16 16 = 0
    ∧ s.status.word.extractLsb' 8 8 = (match s.status.err with
      | none => 0
      | some .illegalParameter => 1
      | some .messageTooLong => 2
      | some .decryptionFailure => 3
      | some .invalidSignature => 4
      | some .integerTooLarge => 5
      | some .representativeOutOfRange => 6
      | some .signatureOutOfRange => 7
      | some .maskTooLong => 8
      | some .invalidSeed => 9
      | some .encodingError => 10
      | some .illegalCommand => 11
      | some .capacityExceeded => 12)

/-- R34: HZD is set by a mapped access that R42 drops or blanks, cleared only by reset or by a write of STATUS with bit 3
set while idle, whose other bits are ignored; no step of the command unit writes it. The last clause, that no command reads it, is derived:
it compares two runs of a command, for the same draw; that a drawing command takes the same draw in both is the model's
choice (log 4, DESIGN CHOICE). -/
def Obligations.HazardFlagRule : Prop :=
  (∀ s t : State, step s = .next t →
    (∀ w a, s.script.head? = some (.host (.read w a)) → s.status.busy = true → w = .w32 → a.toNat % 4 = 0 →
      ¬ unmapped a.toNat → a ≠ 0x0000 → a ≠ 0x0004 → t.status.hzd = true)
    ∧ (∀ w a v, s.script.head? = some (.host (.write w a v)) → s.status.busy = true → w = .w32 → a.toNat % 4 = 0 →
      ¬ unmapped a.toNat → t.status.hzd = true)
    ∧ (∀ v, s.script.head? = some (.host (.write .w32 0x0004 v)) → s.status.busy = false →
      t.status = { s.status with hzd := s.status.hzd && !v.getLsbD 3 })
    ∧ (s.script.head? = some .reset → t.status.hzd = false)
    ∧ (s.status.hzd = true → t.status.hzd = false → s.script.head? = some .reset ∨
      ∃ v, s.script.head? = some (.host (.write .w32 0x0004 v)) ∧ s.status.busy = false ∧ v.getLsbD 3 = true)
    ∧ (s.status.hzd = false → t.status.hzd = true → s.status.busy = true ∧ ∃ a, s.script.head? = some (.host a)))
    ∧ ∀ (i : Instr) (s t : State) (h : Bool), exec i s = .next t →
      exec i { s with status := { s.status with hzd := h } } = .next { t with status := { t.status with hzd := h } }

/-- R40, R42: whatever the host does between launch and completion, the completion gives the same result: only HZD and
the answers the host has had differ. The two completions are compared for the same draw, which the model gives a drawing
command in both (log 4, DESIGN CHOICE). -/
def Obligations.BusyWindowLeavesResult : Prop :=
  ∀ (s t : State) (as : List Access), s.status.busy = true → s.complete = .next t →
    State.complete (as.foldl State.hostTurn s) = .next { t with
      status := { t.status with hzd := (as.foldl State.hostTurn s).status.hzd }
      responses := (as.foldl State.hostTurn s).responses }

/-! ### Whole-machine rules over all commands -/

/-- R40, R100: every command ends with BUSY 0 and DONE 1, keeps CMDL and HZD (and the schedule and the answers); a
scheme command ends with EM cleared and XI 0. -/
def Obligations.CompletionFlags : Prop :=
  ∀ (i : Instr) (s t : State), exec i s = .next t →
    t.status.busy = false ∧ t.status.done = true ∧ t.status.hzd = s.status.hzd ∧ t.cmdl = s.cmdl
      ∧ t.script = s.script ∧ t.responses = s.responses
      ∧ (layerOf i = .scheme → t.em = Buffer.empty ∧ t.xi = 0)

/-- R239: after a command that produces VALID, VALID = 1 with ERR = OK, or VALID = 0 with ERR one of InvalidSignature,
CapacityExceeded and IllegalParameter; after every other command VALID = 0. -/
def Obligations.VerdictFlagsAgree : Prop :=
  ∀ (i : Instr) (s t : State), exec i s = .next t →
    (producesValid i = true → (t.status.valid = true ∧ t.status.err = none) ∨ (t.status.valid = false
      ∧ (t.status.err = some .invalidSignature ∨ t.status.err = some .capacityExceeded
        ∨ t.status.err = some .illegalParameter)))
    ∧ (producesValid i = false → t.status.valid = false)

/-- R35: no command writes CFG or SLEN; only CLEAR writes MSG, LBL, AUX or their lengths; only CLEAR with SEL = 1 writes
a key register. -/
def Obligations.ConfigurationPersists : Prop :=
  ∀ (i : Instr) (s t : State), exec i s = .next t →
    t.cfg = s.cfg ∧ t.slen = s.slen
      ∧ ((∀ sel, i ≠ .clear sel) → t.msg = s.msg ∧ t.lbl = s.lbl ∧ t.aux = s.aux)
      ∧ (i ≠ .clear true → t.keys = s.keys)

/-- R232: a command that reports an error leaves its destinations cleared, a scheme command EM cleared and XI 0, STATUS
as said, and every other state as before; IllegalCommand writes nothing but STATUS. -/
def Obligations.FailureClearsDestinations : Prop :=
  (∀ (i : Instr) (s t : State) (e : ErrKind), exec i s = .next t → t.status.err = some e → t = s.failed i e)
    ∧ ∀ (s : State) (e : DecodeError), decode s.cmdl = .error e →
      s.complete = .next { s with status := doneFlags s false (some .illegalCommand) }

/-- R230 and the `ERR` list of each command's rule: a legal command reports OK or a kind of its list. In particular no
encrypt or sign command reports a range or conversion error, and nothing reports MaskTooLong. -/
def Obligations.ErrorKindsPerCommand : Prop :=
  ∀ (i : Instr) (s t : State) (e : ErrKind), exec i s = .next t → t.status.err = some e → e ∈ mayReport i

/-- R37: no command reads a flag: other flags at the start give the same end, but for HZD, which is kept. The two
runs are compared for the same draw, which the model gives a drawing command in both (log 4, DESIGN CHOICE). -/
def Obligations.NoCommandReadsFlags : Prop :=
  ∀ (i : Instr) (s t : State) (f : Status), exec i s = .next t →
    exec i { s with status := f } = .next { t with status := { t.status with hzd := f.hzd } }

/-- R23: octets at or beyond a length register never influence a result, STATUS or another buffer. The two runs are
compared for the same draw: `SameBelowLengths` has equal draw counters, and the model gives equal counters equal draws
(log 4, DESIGN CHOICE). -/
def Obligations.OctetsPastLengthUnread : Prop :=
  ∀ (i : Instr) (s s' t t' : State), SameBelowLengths s s' → exec i s = .next t → exec i s' = .next t' →
    SameBelowLengths t t'

/-- R28, R116: the key registers of the form CFG.KFORM does not select are ignored; and R151, R171, R191 with the scheme
commands of R154, R174, R194: with `FIX = 0`, AUX and AUXLEN are ignored. The two runs are compared for the same draw, which
the model gives a drawing command in both (log 4, DESIGN CHOICE). -/
def Obligations.IgnoredRegistersUnread : Prop :=
  ∀ (i : Instr) (s t : State), exec i s = .next t →
    (∀ k : Keys, i ≠ .clear true → k.n = s.keys.n → k.e = s.keys.e →
      (s.cfg.kform = .modulus → k.pn = s.keys.pn ∧ k.d = s.keys.d) →
      (s.cfg.kform = .crt → k.p = s.keys.p ∧ k.q = s.keys.q ∧ k.dp = s.keys.dp ∧ k.dq = s.keys.dq
        ∧ k.qinv = s.keys.qinv) →
      exec i { s with keys := k } = .next { t with keys := k })
    ∧ ∀ x : Buffer, i.opcode.hasFix = true → i.fix = false → exec i { s with aux := x } = .next { t with aux := x }

/-- R100 stages 2 and 3, R233: a command reports CapacityExceeded exactly when a length it uses is beyond its capacity, or
the CRT modulus it uses is wider than 4096 bits; past that, a zero modulus is IllegalParameter. -/
def Obligations.CapacityAndKeyShapeChecks : Prop :=
  ∀ (i : Instr) (s t : State), exec i s = .next t →
    (t.status.err = some .capacityExceeded ↔ overCapacity s i ∨ (usesPrivateKey i = true ∧ s.cfg.kform = .crt
      ∧ 2 ^ 4096 ≤ s.keys.p.toNat * s.keys.q.toNat))
    ∧ (¬ overCapacity s i → keyModulus s i = some 0 → t.status.err = some .illegalParameter)

/-! ### Housekeeping, converters, comparator, primitives -/

/-- R101: CLEAR empties the five buffers and XI, with `SEL = 1` also the nine key registers. -/
def Obligations.ClearCompletes : Prop :=
  ∀ (s : State) (sel : Bool), exec (.clear sel) s = .next { s with
    msg := Buffer.empty, lbl := Buffer.empty, aux := Buffer.empty, em := Buffer.empty, out := Buffer.empty, xi := 0
    keys := if sel then ⟨0, 0, 0, 0, 0, 0, 0, 0, 0⟩ else s.keys
    status := doneFlags s false none }

/-- R25, R26: a buffer that a string has been written to holds its octets, 0x00 at every index after them, and its
length; the empty buffer is the write of the empty string. -/
def Obligations.BufferWriteReplacesAll : Prop :=
  (∀ (s : State) (b : BufName) (x : Bytes), x.length ≤ b.cap →
    s.writeBuf b x = s.setBuf b (Buffer.ofBytes x) ∧ (s.writeBuf b x).bufLen b = x.length ∧ (s.writeBuf b x).val b = x
      ∧ ∀ i, (s.writeBuf b x).octet b i = x.getD i 0)
    ∧ Buffer.ofBytes [] = Buffer.empty ∧ ∀ i, Buffer.empty.data.read i = 0

/-- R102, R103: `I2OSP` writes the octets `floor(XI / 256^(LEN-1-i)) mod 256` to OUT or EM; a `LEN` above KMAX fails
first, then an XI of `256^LEN` or more. -/
def Obligations.I2ospCompletes : Prop :=
  ∀ (s : State) (sel : Bool) (len : Nat),
    (len ≤ 512 → s.xi.toNat < 256 ^ len → ∃ x : Bytes, x.length = len
      ∧ (∀ i, i < len → (x.getD i 0).toNat = s.xi.toNat / 256 ^ (len - 1 - i) % 256)
      ∧ exec (.i2osp sel len) s = .next (if sel then { s with em := Buffer.ofBytes x, status := doneFlags s false none }
          else { s with out := Buffer.ofBytes x, status := doneFlags s false none }))
    ∧ (512 < len → exec (.i2osp sel len) s = .next (s.failed (.i2osp sel len) .capacityExceeded))
    ∧ (len ≤ 512 → 256 ^ len ≤ s.xi.toNat →
        exec (.i2osp sel len) s = .next (s.failed (.i2osp sel len) .integerTooLarge))

/-- R104, R105: `OS2IP` writes the big-endian value of EM or MSG to XI; a source longer than its capacity or than KMAX
fails. -/
def Obligations.Os2ipCompletes : Prop :=
  ∀ (s : State) (sel : Bool) (b : BufName), b = (if sel then .msg else .em) →
    (s.bufLen b ≤ 512 → ∃ x : BigWord, exec (.os2ip sel) s = .next { s with xi := x, status := doneFlags s false none }
      ∧ x.toNat = ∑ i ∈ Finset.range (s.bufLen b), (s.octet b i).toNat * 256 ^ (s.bufLen b - 1 - i))
    ∧ (512 < s.bufLen b → exec (.os2ip sel) s = .next (s.failed (.os2ip sel) .capacityExceeded))

/-- R106: `CMPEM` compares the lengths and the octets of EM and OUT below them. -/
def Obligations.CmpemCompletes : Prop :=
  ∀ s : State,
    (s.bufLen .em ≤ 512 → s.bufLen .out ≤ 512 →
      (s.bufLen .em = s.bufLen .out ∧ (∀ i, i < s.bufLen .em → s.octet .em i = s.octet .out i) →
        exec .cmpem s = .next { s with status := doneFlags s true none })
      ∧ (¬ (s.bufLen .em = s.bufLen .out ∧ ∀ i, i < s.bufLen .em → s.octet .em i = s.octet .out i) →
        exec .cmpem s = .next { s with status := doneFlags s false (some .invalidSignature) }))
    ∧ (512 < s.bufLen .em ∨ 512 < s.bufLen .out →
        exec .cmpem s = .next { s with status := doneFlags s false (some .capacityExceeded) })

/-- R113, R118: `RSAEP` and `RSAVP1` replace XI by `XI^E mod N`; a zero modulus, then an XI outside `[0, N-1]`, fails
with the kind of each. -/
def Obligations.PublicPrimitivesComplete : Prop :=
  ∀ (s : State) (i : Instr) (kind : ErrKind),
    (i = .rsaep ∧ kind = .representativeOutOfRange) ∨ (i = .rsavp1 ∧ kind = .signatureOutOfRange) →
    (s.xi.toNat < s.keys.n.toNat → ∃ x : BigWord, x.toNat = s.xi.toNat ^ s.keys.e.toNat % s.keys.n.toNat
      ∧ exec i s = .next { s with xi := x, status := doneFlags s false none })
    ∧ (s.keys.n.toNat = 0 → exec i s = .next (s.failed i .illegalParameter))
    ∧ (s.keys.n.toNat ≠ 0 → s.keys.n.toNat ≤ s.xi.toNat → exec i s = .next (s.failed i kind))

/-- R114, R116, R117 in modulus form: `RSADP` and `RSASP1` replace XI by `XI^D mod PN`. -/
def Obligations.PrivatePrimitivesModulusForm : Prop :=
  ∀ (s : State) (i : Instr) (kind : ErrKind),
    (i = .rsadp ∧ kind = .representativeOutOfRange) ∨ (i = .rsasp1 ∧ kind = .signatureOutOfRange) →
    s.cfg.kform = .modulus →
    (s.xi.toNat < s.keys.pn.toNat → ∃ x : BigWord, x.toNat = s.xi.toNat ^ s.keys.d.toNat % s.keys.pn.toNat
      ∧ exec i s = .next { s with xi := x, status := doneFlags s false none })
    ∧ (s.keys.pn.toNat = 0 → exec i s = .next (s.failed i .illegalParameter))
    ∧ (s.keys.pn.toNat ≠ 0 → s.keys.pn.toNat ≤ s.xi.toNat → exec i s = .next (s.failed i kind))

/-- R115, R116, R117 in CRT form: `m = m2 + q*h` with the non-negative residue `h`; a zero factor, then a product wider
than 4096 bits, then an XI outside `[0, P*Q-1]`, fails. -/
def Obligations.PrivatePrimitivesCrtForm : Prop :=
  ∀ (s : State) (i : Instr) (kind : ErrKind) (p q m1 m2 : Nat) (h : Int),
    (i = .rsadp ∧ kind = .representativeOutOfRange) ∨ (i = .rsasp1 ∧ kind = .signatureOutOfRange) →
    s.cfg.kform = .crt → p = s.keys.p.toNat → q = s.keys.q.toNat →
    m1 = s.xi.toNat ^ s.keys.dp.toNat % p → m2 = s.xi.toNat ^ s.keys.dq.toNat % q →
    h = ((m1 : Int) - (m2 : Int)) * (s.keys.qinv.toNat : Int) % (p : Int) →
    (s.xi.toNat < p * q → p * q < 2 ^ 4096 → ∃ x : BigWord, (x.toNat : Int) = m2 + q * h
      ∧ exec i s = .next { s with xi := x, status := doneFlags s false none })
    ∧ (p = 0 ∨ q = 0 → exec i s = .next (s.failed i .illegalParameter))
    ∧ (2 ^ 4096 ≤ p * q → exec i s = .next (s.failed i .capacityExceeded))
    ∧ (p ≠ 0 → q ≠ 0 → p * q < 2 ^ 4096 → p * q ≤ s.xi.toNat → exec i s = .next (s.failed i kind))

/-- R119, the source's CRT/modulus equivalence: the two forms of a private key compute the same, for every operand in
range. The primes are odd (log 18: for p = 2 the rule's equivalence fails). -/
def Obligations.CrtAgreesWithModulus : Prop :=
  ∀ p q e d qinv c : Nat, p.Prime → q.Prime → p ≠ q → 2 < p → 2 < q → e * d % Nat.lcm (p - 1) (q - 1) = 1 →
    qinv * q % p = 1 → c < p * q →
    (PrivKey.crt p q (d % (p - 1)) (d % (q - 1)) qinv).apply c = (PrivKey.modulus (p * q) d).apply c

/-! ### MGF1 -/

/-- R140, R141: `MGF1` writes the first `LEN` octets of `Hash(seed || BE32(0)) || Hash(seed || BE32(1)) || ...` to OUT;
an AUX or a `LEN` above KMAX fails. -/
def Obligations.Mgf1Completes : Prop :=
  ∀ (s : State) (len : Nat),
    (s.bufLen .aux ≤ 512 → len ≤ 512 → ∃ x : Bytes, x.length = len
      ∧ (∀ i, i < len → x.getD i 0 = (s.digest.hash (s.val .aux ++ [0, 0, 0, BitVec.ofNat 8 (i / s.digest.hLen)])).getD
          (i % s.digest.hLen) 0)
      ∧ exec (.mgf1 len) s = .next { s with out := Buffer.ofBytes x, status := doneFlags s false none })
    ∧ (512 < s.bufLen .aux ∨ 512 < len → exec (.mgf1 len) s = .next (s.failed (.mgf1 len) .capacityExceeded))

/-- R142: the mask of a smaller length is a prefix of the mask of a larger one; a mask has the length asked for. -/
def Obligations.Mgf1PrefixProperty : Prop :=
  ∀ (D : Digest) (seed x : Bytes) (m n : Nat), m ≤ n → mgf1 D seed n = .ok x →
    x.length = n ∧ mgf1 D seed m = .ok (x.take m)

/-! ### OAEP -/

/-- R150, R151: `OAEP_ENC` writes `00 || maskedSeed || maskedDB`, of length `LEN`, from the supplied seed or the next
draw; a message that is too long, then a supplied seed of another length, is reported. -/
def Obligations.OaepEncCompletes : Prop :=
  ∀ (s : State) (fix : Bool) (len : Nat),
    s.bufLen .msg ≤ 4096 → s.bufLen .lbl ≤ 512 → (fix = true → s.bufLen .aux ≤ 512) → len ≤ 512 →
    (∀ seed db : Bytes, s.bufLen .msg + 2 * s.digest.hLen + 2 ≤ len → (fix = true → s.bufLen .aux = s.digest.hLen) →
      seed = (if fix then s.val .aux else Config.draw s.draws s.digest.hLen) →
      db = s.digest.hash (s.val .lbl) ++ zeros (len - s.bufLen .msg - 2 * s.digest.hLen - 2) ++ [0x01] ++ s.val .msg →
      ∃ dbMask seedMask em, mgf1 s.digest seed (len - s.digest.hLen - 1) = .ok dbMask
        ∧ mgf1 s.digest (xorBytes db dbMask) s.digest.hLen = .ok seedMask
        ∧ em = [0x00] ++ xorBytes seed seedMask ++ xorBytes db dbMask ∧ em.length = len
        ∧ exec (.oaepEnc fix len) s = .next { s with
            em := Buffer.ofBytes em, status := doneFlags s false none, draws := s.draws + if fix then 0 else 1 })
    ∧ (len < s.bufLen .msg + 2 * s.digest.hLen + 2 →
        exec (.oaepEnc fix len) s = .next (s.failed (.oaepEnc fix len) .messageTooLong))
    ∧ (s.bufLen .msg + 2 * s.digest.hLen + 2 ≤ len → fix = true → s.bufLen .aux ≠ s.digest.hLen →
        exec (.oaepEnc fix len) s = .next (s.failed (.oaepEnc fix len) .invalidSeed))

/-- R152, R153: `OAEP_DEC` writes the message exactly when EM is an encoding with the label; every rejection is the one
DecryptionFailure. -/
def Obligations.OaepDecCompletes : Prop :=
  ∀ (s : State) (len : Nat), s.bufLen .em ≤ 512 → s.bufLen .lbl ≤ 512 → len ≤ 512 →
    (∀ m, OaepAccepts s.digest len (s.val .em) (s.val .lbl) m →
      exec (.oaepDec len) s = .next { s with out := Buffer.ofBytes m, status := doneFlags s false none })
    ∧ ((∀ m, ¬ OaepAccepts s.digest len (s.val .em) (s.val .lbl) m) →
      exec (.oaepDec len) s = .next (s.failed (.oaepDec len) .decryptionFailure))

/-- R156: decoding an encoding gives the message back, for every digest, size, message, label and seed source for which
encoding does not fail; with a leading octet other than 00 it is rejected, whatever the rest. -/
def Obligations.OaepRoundTrip : Prop :=
  ∀ (D : Digest) (k : Nat) (m l em : Bytes) (src : PadSource), oaepEncode D k m l src = .ok em →
    oaepDecode D k em l = .ok m ∧ ∀ y : Byte, y ≠ 0x00 → oaepDecode D k (y :: em.tail) l = .error .decryptionFailure

/-- R154: `OAEP_ENCRYPT` writes `I2OSP(OS2IP(EM)^E mod N, k)` for the encoding `EM` of the message, to OUT; a zero
modulus, a message that is too long, and a supplied seed of another length are reported, in this order. -/
def Obligations.OaepEncryptCompletes : Prop :=
  ∀ (s : State) (fix : Bool) (k : Nat), k = (bitLength s.keys.n.toNat + 7) / 8 →
    s.bufLen .msg ≤ 4096 → s.bufLen .lbl ≤ 512 → (fix = true → s.bufLen .aux ≤ 512) →
    (s.keys.n ≠ 0 → s.bufLen .msg + 2 * s.digest.hLen + 2 ≤ k → (fix = true → s.bufLen .aux = s.digest.hLen) →
      ∃ em c, oaepEncode s.digest k (s.val .msg) (s.val .lbl) (s.padSource fix) = .ok em ∧ c.length = k
        ∧ os2ip c = os2ip em ^ s.keys.e.toNat % s.keys.n.toNat
        ∧ exec (.oaepEncrypt fix) s = .next { s with
            out := Buffer.ofBytes c, em := Buffer.empty, xi := 0, status := doneFlags s false none
            draws := s.draws + if fix then 0 else 1 })
    ∧ (s.keys.n = 0 → exec (.oaepEncrypt fix) s = .next (s.failed (.oaepEncrypt fix) .illegalParameter))
    ∧ (s.keys.n ≠ 0 → k < s.bufLen .msg + 2 * s.digest.hLen + 2 →
        exec (.oaepEncrypt fix) s = .next (s.failed (.oaepEncrypt fix) .messageTooLong))
    ∧ (s.keys.n ≠ 0 → s.bufLen .msg + 2 * s.digest.hLen + 2 ≤ k → fix = true → s.bufLen .aux ≠ s.digest.hLen →
        exec (.oaepEncrypt fix) s = .next (s.failed (.oaepEncrypt fix) .invalidSeed))

/-- R155: `OAEP_DECRYPT` writes the message exactly when the ciphertext has `k` octets, is below the modulus and decrypts
to an encoding; every other case is the one DecryptionFailure. -/
def Obligations.OaepDecryptCompletes : Prop :=
  ∀ (s : State) (k c : Nat), k = (bitLength s.privKey.n + 7) / 8 → c = os2ip (s.val .msg) →
    s.bufLen .msg ≤ 4096 → s.bufLen .lbl ≤ 512 → s.privKey.n ≠ 0 → s.privKey.n < 2 ^ 4096 →
    (∀ m em, s.bufLen .msg = k → c < s.privKey.n → em.length = k → os2ip em = s.privKey.apply c →
      OaepAccepts s.digest k em (s.val .lbl) m →
      exec .oaepDecrypt s = .next { s with
        out := Buffer.ofBytes m, em := Buffer.empty, xi := 0, status := doneFlags s false none })
    ∧ ((s.bufLen .msg ≠ k ∨ s.privKey.n ≤ c ∨ ∀ m em, em.length = k → os2ip em = s.privKey.apply c →
        ¬ OaepAccepts s.digest k em (s.val .lbl) m) →
      exec .oaepDecrypt s = .next (s.failed .oaepDecrypt .decryptionFailure))

/-! ### PKCS#1 v1.5 encryption -/

/-- R170, R171: `P1E_ENC` writes `00 02 PS 00 M`, of length `LEN`, with the supplied `PS` or a drawn one without 00; a
message that is too long, then a supplied `PS` of another length or with a 00, is reported. -/
def Obligations.P1eEncCompletes : Prop :=
  ∀ (s : State) (fix : Bool) (len : Nat),
    s.bufLen .msg ≤ 4096 → (fix = true → s.bufLen .aux ≤ 512) → len ≤ 512 →
    (s.bufLen .msg + 11 ≤ len →
      (fix = true → s.bufLen .aux + s.bufLen .msg + 3 = len ∧ (0x00 : Byte) ∉ s.val .aux) →
      ∃ ps em : Bytes, (fix = true → ps = s.val .aux) ∧ (fix = false → ps = Config.drawNonzero s.draws ps.length)
        ∧ ps.length + s.bufLen .msg + 3 = len ∧ (0x00 : Byte) ∉ ps
        ∧ em = [0x00, 0x02] ++ ps ++ [0x00] ++ s.val .msg
        ∧ exec (.p1eEnc fix len) s = .next { s with
            em := Buffer.ofBytes em, status := doneFlags s false none, draws := s.draws + if fix then 0 else 1 })
    ∧ (len < s.bufLen .msg + 11 → exec (.p1eEnc fix len) s = .next (s.failed (.p1eEnc fix len) .messageTooLong))
    ∧ (s.bufLen .msg + 11 ≤ len → fix = true →
        (s.bufLen .aux + s.bufLen .msg + 3 ≠ len ∨ (0x00 : Byte) ∈ s.val .aux) →
        exec (.p1eEnc fix len) s = .next (s.failed (.p1eEnc fix len) .illegalParameter))

/-- R172, R173: `P1E_DEC` writes the message exactly when EM is `00 02 PS 00 M` with at least 8 octets of `PS`, none 00;
every rejection is the one DecryptionFailure. -/
def Obligations.P1eDecCompletes : Prop :=
  ∀ (s : State) (len : Nat), s.bufLen .em ≤ 512 → len ≤ 512 →
    (∀ m, P1eAccepts len (s.val .em) m →
      exec (.p1eDec len) s = .next { s with out := Buffer.ofBytes m, status := doneFlags s false none })
    ∧ ((∀ m, ¬ P1eAccepts len (s.val .em) m) →
      exec (.p1eDec len) s = .next (s.failed (.p1eDec len) .decryptionFailure))

/-- R176: decoding an encoding gives the message back; with another octet at index 0 or 1 it is rejected. -/
def Obligations.P1eRoundTrip : Prop :=
  ∀ (k : Nat) (m em : Bytes) (src : PadSource), p1eEncode k m src = .ok em →
    p1eDecode k em = .ok m
      ∧ ∀ y z : Byte, (y ≠ 0x00 ∨ z ≠ 0x02) → p1eDecode k (y :: z :: em.drop 2) = .error .decryptionFailure

/-- R174: `PKCS1_ENCRYPT` writes `I2OSP(OS2IP(EM)^E mod N, k)` for the encoding `EM` of the message, to OUT; a zero
modulus, a message that is too long, and a supplied `PS` of another length or with a 00 are reported, in this order. -/
def Obligations.Pkcs1EncryptCompletes : Prop :=
  ∀ (s : State) (fix : Bool) (k : Nat), k = (bitLength s.keys.n.toNat + 7) / 8 →
    s.bufLen .msg ≤ 4096 → (fix = true → s.bufLen .aux ≤ 512) →
    (s.keys.n ≠ 0 → s.bufLen .msg + 11 ≤ k →
      (fix = true → s.bufLen .aux + s.bufLen .msg + 3 = k ∧ (0x00 : Byte) ∉ s.val .aux) →
      ∃ em c, p1eEncode k (s.val .msg) (s.padSource fix) = .ok em ∧ c.length = k
        ∧ os2ip c = os2ip em ^ s.keys.e.toNat % s.keys.n.toNat
        ∧ exec (.pkcs1Encrypt fix) s = .next { s with
            out := Buffer.ofBytes c, em := Buffer.empty, xi := 0, status := doneFlags s false none
            draws := s.draws + if fix then 0 else 1 })
    ∧ (s.keys.n = 0 → exec (.pkcs1Encrypt fix) s = .next (s.failed (.pkcs1Encrypt fix) .illegalParameter))
    ∧ (s.keys.n ≠ 0 → k < s.bufLen .msg + 11 →
        exec (.pkcs1Encrypt fix) s = .next (s.failed (.pkcs1Encrypt fix) .messageTooLong))
    ∧ (s.keys.n ≠ 0 → s.bufLen .msg + 11 ≤ k → fix = true →
        (s.bufLen .aux + s.bufLen .msg + 3 ≠ k ∨ (0x00 : Byte) ∈ s.val .aux) →
        exec (.pkcs1Encrypt fix) s = .next (s.failed (.pkcs1Encrypt fix) .illegalParameter))

/-- R175: `PKCS1_DECRYPT` writes the message exactly when the ciphertext has `k` octets, is below the modulus and
decrypts to an encoding; every other case is the one DecryptionFailure. -/
def Obligations.Pkcs1DecryptCompletes : Prop :=
  ∀ (s : State) (k c : Nat), k = (bitLength s.privKey.n + 7) / 8 → c = os2ip (s.val .msg) →
    s.bufLen .msg ≤ 4096 → s.privKey.n ≠ 0 → s.privKey.n < 2 ^ 4096 →
    (∀ m em, s.bufLen .msg = k → c < s.privKey.n → em.length = k → os2ip em = s.privKey.apply c → P1eAccepts k em m →
      exec .pkcs1Decrypt s = .next { s with
        out := Buffer.ofBytes m, em := Buffer.empty, xi := 0, status := doneFlags s false none })
    ∧ ((s.bufLen .msg ≠ k ∨ s.privKey.n ≤ c ∨ ∀ m em, em.length = k → os2ip em = s.privKey.apply c →
        ¬ P1eAccepts k em m) →
      exec .pkcs1Decrypt s = .next (s.failed .pkcs1Decrypt .decryptionFailure))

/-- The source's round trip (T1; R156, R176): with keys that belong together, decrypting what an encrypt command left in
OUT gives the message back, in both schemes, for every seed and padding, and in both private-key forms. -/
def Obligations.EncryptDecryptRoundTrip : Prop :=
  ∀ (s t : State) (fix : Bool), RsaPair s.pubKey s.privKey → t.status.err = none →
    (exec (.oaepEncrypt fix) s = .next t →
      ∃ u, exec .oaepDecrypt { t with msg := t.out } = .next u ∧ u.status.err = none
        ∧ u.out = Buffer.ofBytes (s.val .msg))
    ∧ (exec (.pkcs1Encrypt fix) s = .next t →
      ∃ u, exec .pkcs1Decrypt { t with msg := t.out } = .next u ∧ u.status.err = none
        ∧ u.out = Buffer.ofBytes (s.val .msg))

/-! ### PSS -/

/-- R190, R191: `PSS_ENC` writes `maskedDB || H || bc`, of length `ceil(LEN/8)`, from the supplied salt or the next
draw; a `LEN` that is too small, then a supplied salt of another length, is reported. -/
def Obligations.PssEncCompletes : Prop :=
  ∀ (s : State) (fix : Bool) (len emLen : Nat), emLen = (len + 7) / 8 →
    s.bufLen .msg ≤ 4096 → (fix = true → s.bufLen .aux ≤ 512) → emLen ≤ 512 →
    (∀ salt h : Bytes, s.digest.hLen + s.slen.toNat + 2 ≤ emLen → (fix = true → s.bufLen .aux = s.slen.toNat) →
      salt = (if fix then s.val .aux else Config.draw s.draws s.slen.toNat) →
      h = s.digest.hash (zeros 8 ++ s.digest.hash (s.val .msg) ++ salt) →
      ∃ dbMask em, mgf1 s.digest h (emLen - s.digest.hLen - 1) = .ok dbMask
        ∧ em = clearTop (8 * emLen - len)
            (xorBytes (zeros (emLen - s.slen.toNat - s.digest.hLen - 2) ++ [0x01] ++ salt) dbMask) ++ h ++ [0xBC]
        ∧ em.length = emLen
        ∧ exec (.pssEnc fix len) s = .next { s with
            em := Buffer.ofBytes em, status := doneFlags s false none, draws := s.draws + if fix then 0 else 1 })
    ∧ (emLen < s.digest.hLen + s.slen.toNat + 2 →
        exec (.pssEnc fix len) s = .next (s.failed (.pssEnc fix len) .encodingError))
    ∧ (s.digest.hLen + s.slen.toNat + 2 ≤ emLen → fix = true → s.bufLen .aux ≠ s.slen.toNat →
        exec (.pssEnc fix len) s = .next (s.failed (.pssEnc fix len) .illegalParameter))

/-- R192, R193: `PSS_VFY` accepts exactly the encodings of the message; every rejection is the one InvalidSignature. -/
def Obligations.PssVfyCompletes : Prop :=
  ∀ (s : State) (len : Nat), s.bufLen .msg ≤ 4096 → s.bufLen .em ≤ 512 → (len + 7) / 8 ≤ 512 →
    (PssAccepts s.digest (s.val .msg) (s.val .em) len s.slen.toNat →
      exec (.pssVfy len) s = .next { s with status := doneFlags s true none })
    ∧ (¬ PssAccepts s.digest (s.val .msg) (s.val .em) len s.slen.toNat →
      exec (.pssVfy len) s = .next { s with status := doneFlags s false (some .invalidSignature) })

/-- R196, R197: what `PSS_Encode` gives, `PSS_Verify` accepts, for every digest, size in bits (multiples of 8 too), salt
length and salt source. -/
def Obligations.PssRoundTrip : Prop :=
  ∀ (D : Digest) (m em : Bytes) (emBits sLen : Nat) (src : PadSource), pssEncode D m emBits sLen src = .ok em →
    pssVerify D m em emBits sLen = true

/-- R194: `PSS_SIGN` writes `I2OSP(s, k)` for the private-key operation `s` on the encoding of the message in
`modBits - 1` bits, to OUT; a zero modulus, a key that is too small, and a supplied salt of another length are reported,
in this order. -/
def Obligations.PssSignCompletes : Prop :=
  ∀ (s : State) (fix : Bool) (k emBits : Nat), k = (bitLength s.privKey.n + 7) / 8 → emBits = bitLength s.privKey.n - 1 →
    s.bufLen .msg ≤ 4096 → (fix = true → s.bufLen .aux ≤ 512) → s.privKey.n < 2 ^ 4096 →
    (s.privKey.n ≠ 0 → s.digest.hLen + s.slen.toNat + 2 ≤ (emBits + 7) / 8 →
      (fix = true → s.bufLen .aux = s.slen.toNat) →
      ∃ em c, pssEncode s.digest (s.val .msg) emBits s.slen.toNat (s.padSource fix) = .ok em ∧ c.length = k
        ∧ os2ip c = s.privKey.apply (os2ip em)
        ∧ exec (.pssSign fix) s = .next { s with
            out := Buffer.ofBytes c, em := Buffer.empty, xi := 0, status := doneFlags s false none
            draws := s.draws + if fix then 0 else 1 })
    ∧ (s.privKey.n = 0 → exec (.pssSign fix) s = .next (s.failed (.pssSign fix) .illegalParameter))
    ∧ (s.privKey.n ≠ 0 → (emBits + 7) / 8 < s.digest.hLen + s.slen.toNat + 2 →
        exec (.pssSign fix) s = .next (s.failed (.pssSign fix) .encodingError))
    ∧ (s.privKey.n ≠ 0 → s.digest.hLen + s.slen.toNat + 2 ≤ (emBits + 7) / 8 → fix = true →
        s.bufLen .aux ≠ s.slen.toNat →
        exec (.pssSign fix) s = .next (s.failed (.pssSign fix) .illegalParameter))

/-- R195: `PSS_VERIFY` accepts exactly the signatures of `k` octets below the modulus whose public-key operation gives
an encoding of the message; every rejection is the one InvalidSignature; EM is cleared and XI is 0. -/
def Obligations.PssVerifyCompletes : Prop :=
  ∀ (s : State) (n sig x : Nat), n = s.keys.n.toNat → sig = os2ip (s.val .aux) → x = sig ^ s.keys.e.toNat % n →
    s.bufLen .msg ≤ 4096 → s.bufLen .aux ≤ 512 → n ≠ 0 →
    (∀ em, s.bufLen .aux = (bitLength n + 7) / 8 → sig < n → os2ip em = x →
      PssAccepts s.digest (s.val .msg) em (bitLength n - 1) s.slen.toNat →
      exec .pssVerify s = .next { s with em := Buffer.empty, xi := 0, status := doneFlags s true none })
    ∧ ((s.bufLen .aux ≠ (bitLength n + 7) / 8 ∨ n ≤ sig ∨ ∀ em, os2ip em = x →
        ¬ PssAccepts s.digest (s.val .msg) em (bitLength n - 1) s.slen.toNat) →
      exec .pssVerify s = .next (s.failed .pssVerify .invalidSignature))

/-! ### PKCS#1 v1.5 signatures -/

/-- R210, R211: `P1S_ENC` writes `00 01 ff..ff 00 || prefix || Hash(M)`, of length `LEN`; a `LEN` that is too short is
EncodingError. -/
def Obligations.P1sEncCompletes : Prop :=
  ∀ (s : State) (len tLen : Nat), tLen = s.digest.infoPrefix.length + s.digest.hLen →
    s.bufLen .msg ≤ 4096 → len ≤ 512 →
    (tLen + 11 ≤ len → ∃ em, em = [0x00, 0x01] ++ List.replicate (len - tLen - 3) 0xFF ++ [0x00] ++ s.digest.infoPrefix
        ++ s.digest.hash (s.val .msg) ∧ em.length = len
      ∧ exec (.p1sEnc len) s = .next { s with em := Buffer.ofBytes em, status := doneFlags s false none })
    ∧ (len < tLen + 11 → exec (.p1sEnc len) s = .next (s.failed (.p1sEnc len) .encodingError))

/-- R212: `PKCS1_SIGN` writes `I2OSP(s, k)` for the private-key operation `s` on the encoding of the message in `k`
octets, to OUT; a zero modulus and a key that is too small are reported. -/
def Obligations.Pkcs1SignCompletes : Prop :=
  ∀ (s : State) (k : Nat), k = (bitLength s.privKey.n + 7) / 8 → s.bufLen .msg ≤ 4096 → s.privKey.n < 2 ^ 4096 →
    (s.privKey.n ≠ 0 → s.digest.infoPrefix.length + s.digest.hLen + 11 ≤ k →
      ∃ em c, p1sEncode s.digest (s.val .msg) k = .ok em ∧ c.length = k ∧ os2ip c = s.privKey.apply (os2ip em)
        ∧ exec .pkcs1Sign s = .next { s with
            out := Buffer.ofBytes c, em := Buffer.empty, xi := 0, status := doneFlags s false none })
    ∧ (s.privKey.n = 0 → exec .pkcs1Sign s = .next (s.failed .pkcs1Sign .illegalParameter))
    ∧ (s.privKey.n ≠ 0 → k < s.digest.infoPrefix.length + s.digest.hLen + 11 →
        exec .pkcs1Sign s = .next (s.failed .pkcs1Sign .encodingError))

/-- R213, R214: `PKCS1_VERIFY` accepts exactly the signatures of `k` octets below the modulus with
`OS2IP(S)^E mod N = OS2IP(P1S_Encode(M, k))`; every rejection is the one InvalidSignature; EM is cleared and XI is 0. -/
def Obligations.Pkcs1VerifyCompletes : Prop :=
  ∀ (s : State) (n k sig : Nat), n = s.keys.n.toNat → k = (bitLength n + 7) / 8 → sig = os2ip (s.val .aux) →
    s.bufLen .msg ≤ 4096 → s.bufLen .aux ≤ 512 → n ≠ 0 →
    (∀ em, s.bufLen .aux = k → sig < n → p1sEncode s.digest (s.val .msg) k = .ok em →
      sig ^ s.keys.e.toNat % n = os2ip em →
      exec .pkcs1Verify s = .next { s with em := Buffer.empty, xi := 0, status := doneFlags s true none })
    ∧ ((s.bufLen .aux ≠ k ∨ n ≤ sig ∨ ∀ em, p1sEncode s.digest (s.val .msg) k = .ok em →
        sig ^ s.keys.e.toNat % n ≠ os2ip em) →
      exec .pkcs1Verify s = .next (s.failed .pkcs1Verify .invalidSignature))

/-- The source's signature correctness (T2; R197, R214): with keys that belong together, verifying what a sign command
left in OUT gives VALID = 1, in both schemes, for every salt, and in both private-key forms. -/
def Obligations.SignVerifyRoundTrip : Prop :=
  ∀ (s t : State) (fix : Bool), RsaPair s.pubKey s.privKey → t.status.err = none →
    (exec (.pssSign fix) s = .next t →
      ∃ u, exec .pssVerify { t with aux := t.out } = .next u ∧ u.status.valid = true ∧ u.status.err = none)
    ∧ (exec .pkcs1Sign s = .next t →
      ∃ u, exec .pkcs1Verify { t with aux := t.out } = .next u ∧ u.status.valid = true ∧ u.status.err = none)
end

