-- ==== Sys2Proof/Laws/Arith.lean ====
section
/-! SUPPORT. Octet strings and integers: I2OSP and OS2IP undo each other, the lengths of a number in bits and octets,
modular exponentiation is the mathematical one, exclusive or cancels (00_scope.md R12, 40_converters_primitives.md R102
to R104, R110). -/

namespace Sys2Proof.Machine

/-! ### I2OSP and OS2IP -/

@[simp] theorem octetsOf_length (x n : Nat) : (octetsOf x n).length = n := by simp [octetsOf]

theorem octetsOf_getElem (x n i : Nat) (h : i < (octetsOf x n).length) :
    (octetsOf x n)[i] = BitVec.ofNat 8 (x / 256 ^ (n - 1 - i)) := by simp [octetsOf]

theorem octetsOf_zero_length (x : Nat) : octetsOf x 0 = [] := rfl

/-- The last octet is the least significant one. -/
theorem octetsOf_succ (x n : Nat) : octetsOf x (n + 1) = octetsOf (x / 256) n ++ [BitVec.ofNat 8 x] := by
  simp only [octetsOf, List.range_succ, List.map_append, List.map_cons, List.map_nil]
  congr 1
  · apply List.map_congr_left
    intro i hi
    have hi' : i < n := List.mem_range.mp hi
    have e : n + 1 - 1 - i = (n - 1 - i) + 1 := by omega
    rw [e, pow_succ', ← Nat.div_div_eq_div_mul]
  · simp

@[simp] theorem os2ip_nil : os2ip [] = 0 := rfl

theorem os2ip_concat (x : Bytes) (v : Byte) : os2ip (x ++ [v]) = os2ip x * 256 + v.toNat := by simp [os2ip]

theorem os2ip_append (x y : Bytes) : os2ip (x ++ y) = os2ip x * 256 ^ y.length + os2ip y := by
  induction y using List.reverseRecOn with
  | nil => simp
  | append_singleton y v ih =>
    rw [← List.append_assoc, os2ip_concat, ih, os2ip_concat, List.length_append, List.length_singleton, pow_succ]
    ring

theorem os2ip_singleton (v : Byte) : os2ip [v] = v.toNat := by simp [os2ip]

theorem os2ip_cons (v : Byte) (x : Bytes) : os2ip (v :: x) = v.toNat * 256 ^ x.length + os2ip x := by
  rw [← List.singleton_append, os2ip_append, os2ip_singleton]

/-- Leading 0x00 octets contribute nothing (R104). -/
theorem os2ip_zero_cons (x : Bytes) : os2ip (0 :: x) = os2ip x := by simp [os2ip_cons]

theorem os2ip_lt (x : Bytes) : os2ip x < 256 ^ x.length := by
  induction x using List.reverseRecOn with
  | nil => simp
  | append_singleton x v ih =>
    rw [os2ip_concat, List.length_append, List.length_singleton, pow_succ]
    have := v.isLt
    omega

/-- OS2IP is the sum of rule R104. -/
theorem os2ip_eq_sum (x : Bytes) :
    os2ip x = ∑ i ∈ Finset.range x.length, (x.getD i 0).toNat * 256 ^ (x.length - 1 - i) := by
  induction x with
  | nil => simp
  | cons v x ih =>
    rw [os2ip_cons, List.length_cons, Finset.sum_range_succ', ih, add_comm]
    congr 1
    apply Finset.sum_congr rfl
    intro i hi
    have : x.length + 1 - 1 - (i + 1) = x.length - 1 - i := by omega
    rw [this]
    simp

theorem os2ip_octetsOf {x n : Nat} (h : x < 256 ^ n) : os2ip (octetsOf x n) = x := by
  induction n generalizing x with
  | zero =>
    have : x = 0 := by simpa using h
    simp [this, octetsOf_zero_length]
  | succ n ih =>
    have h' : x / 256 < 256 ^ n := Nat.div_lt_of_lt_mul (by rwa [← pow_succ'])
    rw [octetsOf_succ, os2ip_concat, ih h', BitVec.toNat_ofNat]
    omega

theorem octetsOf_os2ip (x : Bytes) : octetsOf (os2ip x) x.length = x := by
  induction x using List.reverseRecOn with
  | nil => rfl
  | append_singleton x v ih =>
    have hv := v.isLt
    have e : (os2ip x * 256 + v.toNat) / 256 = os2ip x := by omega
    rw [List.length_append, List.length_singleton, octetsOf_succ, os2ip_concat, e, ih]
    congr 2
    apply BitVec.eq_of_toNat_eq
    rw [BitVec.toNat_ofNat]
    omega

/-- Strings of one length with one value are one string. -/
theorem os2ip_inj {x y : Bytes} (hl : x.length = y.length) (h : os2ip x = os2ip y) : x = y := by
  rw [← octetsOf_os2ip x, ← octetsOf_os2ip y, hl, h]

theorem i2osp_of_lt {x n : Nat} (h : x < 256 ^ n) : i2osp x n = .ok (octetsOf x n) := by
  simp [i2osp, Nat.not_le.mpr h]

theorem i2osp_of_le {x n : Nat} (h : 256 ^ n ≤ x) : i2osp x n = .error .integerTooLarge := by simp [i2osp, h]

theorem i2osp_eq_ok {x n : Nat} {y : Bytes} : i2osp x n = .ok y ↔ x < 256 ^ n ∧ y = octetsOf x n := by
  by_cases h : 256 ^ n ≤ x
  · simp [i2osp, h]
  · simp [i2osp, h, Nat.lt_of_not_le h, eq_comm]

/-! ### Lengths of numbers -/

theorem lt_two_pow_bitLength (x : Nat) : x < 2 ^ bitLength x := by
  by_cases h : x = 0
  · simp [bitLength, h]
  · simpa [bitLength, h] using Nat.lt_log2_self

theorem two_pow_le_of_bitLength {x : Nat} (h : x ≠ 0) : 2 ^ (bitLength x - 1) ≤ x := by
  simpa [bitLength, h] using Nat.log2_self_le h

/-- `bitLength(x)` is the least `t` with `x < 2^t` (00_scope.md R6). -/
theorem bitLength_le_iff (x t : Nat) : bitLength x ≤ t ↔ x < 2 ^ t := by
  constructor
  · exact fun h => lt_of_lt_of_le (lt_two_pow_bitLength x) (Nat.pow_le_pow_right (by norm_num) h)
  · intro h
    by_cases hx : x = 0
    · simp [bitLength, hx]
    · by_contra hlt
      have h1 : t ≤ bitLength x - 1 := by omega
      have h2 := two_pow_le_of_bitLength hx
      have h3 : 2 ^ t ≤ 2 ^ (bitLength x - 1) := Nat.pow_le_pow_right (by norm_num) h1
      omega

theorem bitLength_pos {x : Nat} (h : x ≠ 0) : 0 < bitLength x := by simp [bitLength, h]

theorem kOf_eq (n : Nat) : kOf n = (bitLength n + 7) / 8 := rfl

theorem kOf_pos {n : Nat} (h : n ≠ 0) : 0 < kOf n := by
  have := bitLength_pos h
  rw [kOf_eq]
  omega

theorem pow256 (k : Nat) : 256 ^ k = 2 ^ (8 * k) := by rw [pow_mul]; norm_num

/-- A modulus fits its own key size (00_scope.md R12). -/
theorem lt_pow_kOf (n : Nat) : n < 256 ^ kOf n := by
  rw [pow256, ← bitLength_le_iff, kOf_eq]
  omega

/-- A modulus does not fit one octet less. -/
theorem pow_kOf_le {n : Nat} (h : n ≠ 0) : 256 ^ (kOf n - 1) ≤ n := by
  refine le_trans ?_ (two_pow_le_of_bitLength h)
  rw [pow256]
  apply Nat.pow_le_pow_right (by norm_num)
  rw [kOf_eq]
  omega

/-- A modulus held in a register has a key size within the capacity (42_oaep.md R154: `k <= KMAX always`). -/
theorem kOf_le_kMax {n : Nat} (h : n < 2 ^ (8 * Config.kMax)) : kOf n ≤ Config.kMax := by
  have := (bitLength_le_iff n _).mpr h
  rw [kOf_eq]
  omega

/-! ### ModExp -/

theorem modExpLoop_eq (m fuel b x acc : Nat) (h : bitLength x ≤ fuel) :
    modExpLoop m fuel b x acc = acc * b ^ x % m := by
  induction fuel generalizing b x acc with
  | zero =>
    have hx : x = 0 := by simpa using (bitLength_le_iff x 0).mp h
    simp [modExpLoop, hx]
  | succ fuel ih =>
    have hx : x < 2 ^ (fuel + 1) := (bitLength_le_iff x _).mp h
    have h2 : bitLength (x / 2) ≤ fuel := (bitLength_le_iff _ _).mpr (Nat.div_lt_of_lt_mul (by rwa [← pow_succ']))
    have hb : b ^ x = b ^ (x % 2) * (b * b) ^ (x / 2) := by
      rw [← sq, ← pow_mul, ← pow_add, Nat.mod_add_div]
    rw [modExpLoop, ih _ _ _ h2, Nat.mul_mod, ← Nat.pow_mod, ← Nat.mul_mod, hb]
    by_cases hodd : x % 2 = 1
    · simp only [hodd, if_true, pow_one]
      rw [Nat.mul_mod, Nat.mod_mod, ← Nat.mul_mod, mul_assoc]
    · have h0 : x % 2 = 0 := by omega
      simp [h0]

/-- The BIGINT port's contract: `ModExp(b, x, m) = (b ^ x) mod m` (R110). -/
theorem modExp_eq (b x m : Nat) : modExp b x m = b ^ x % m := by
  rw [modExp, modExpLoop_eq m _ _ x 1 le_rfl, one_mul, ← Nat.pow_mod]

theorem modExp_lt (b x : Nat) {m : Nat} (h : 0 < m) : modExp b x m < m := by rw [modExp_eq]; exact Nat.mod_lt _ h

/-! ### RSA primitives -/

theorem rsaPublic_of_lt {k : PubKey} {x : Nat} (kind : ErrKind) (h : x < k.n) :
    rsaPublic k x kind = .ok (x ^ k.e % k.n) := by
  simp [rsaPublic, checkRange, Nat.not_le.mpr h, modExp_eq, pure, Except.pure, bind, Except.bind]

theorem rsaPublic_of_le {k : PubKey} {x : Nat} (kind : ErrKind) (h : k.n ≤ x) : rsaPublic k x kind = .error kind := by
  simp [rsaPublic, checkRange, h, bind, Except.bind]

theorem rsaPrivate_of_lt {k : PrivKey} {x : Nat} (kind : ErrKind) (h : x < k.n) :
    rsaPrivate k x kind = .ok (k.apply x) := by
  simp [rsaPrivate, checkRange, Nat.not_le.mpr h, pure, Except.pure, bind, Except.bind]

theorem rsaPrivate_of_le {k : PrivKey} {x : Nat} (kind : ErrKind) (h : k.n ≤ x) : rsaPrivate k x kind = .error kind := by
  simp [rsaPrivate, checkRange, h, bind, Except.bind]

/-- The modulus form (R114). -/
theorem apply_modulus (n d c : Nat) : (PrivKey.modulus n d).apply c = c ^ d % n := modExp_eq c d n

/-- The CRT form (R115). -/
theorem apply_crt (p q dp dq qinv c : Nat) :
    (PrivKey.crt p q dp dq qinv).apply c =
      c ^ dq % q + q * (((((c ^ dp % p : Nat) : Int) - ((c ^ dq % q : Nat) : Int)) * (qinv : Int)) % (p : Int)).toNat := by
  simp [PrivKey.apply, modExp_eq]

/-- The result of a private-key operation is below the modulus (R115). -/
theorem PrivKey.apply_lt (k : PrivKey) (c : Nat) (h : k.n ≠ 0) : k.apply c < k.n := by
  cases k with
  | modulus n d => exact modExp_lt c d (Nat.pos_of_ne_zero h)
  | crt p q dp dq qinv =>
    have hp : 0 < p := Nat.pos_of_ne_zero fun e => h (by simp [PrivKey.n, e])
    have hq : 0 < q := Nat.pos_of_ne_zero fun e => h (by simp [PrivKey.n, e])
    rw [apply_crt]
    have h2 : c ^ dq % q < q := Nat.mod_lt _ hq
    generalize (((c ^ dp % p : Nat) : Int) - ((c ^ dq % q : Nat) : Int)) * (qinv : Int) = z
    have h0 : 0 ≤ z % (p : Int) := Int.emod_nonneg _ (by omega)
    have h1 : z % (p : Int) < p := Int.emod_lt_of_pos _ (by omega)
    have h3 : (z % (p : Int)).toNat + 1 ≤ p := by omega
    calc c ^ dq % q + q * (z % (p : Int)).toNat < q + q * (z % (p : Int)).toNat := by omega
      _ = q * ((z % (p : Int)).toNat + 1) := by ring
      _ ≤ q * p := Nat.mul_le_mul_left q h3
      _ = p * q := Nat.mul_comm q p

/-! ### Exclusive or and slices -/

@[simp] theorem xorBytes_length (a b : Bytes) : (xorBytes a b).length = min a.length b.length := by simp [xorBytes]

/-- Unmasking undoes masking. -/
theorem xorBytes_cancel {a b : Bytes} (h : a.length ≤ b.length) : xorBytes (xorBytes a b) b = a := by
  apply List.ext_getElem
  · simp [h]
  · intro i h1 h2
    simp [xorBytes]

@[simp] theorem zeros_length (n : Nat) : (zeros n).length = n := by simp [zeros]

@[simp] theorem rep_length (v : Byte) (n : Nat) : (rep v n).length = n := by simp [rep]

theorem slice_length (x : Bytes) (a b : Nat) (h : b ≤ x.length) : (slice x a b).length = b - a := by
  simp [slice]; omega

/-- The middle of three concatenated strings. -/
theorem slice_middle (x y z : Bytes) : slice (x ++ y ++ z) x.length (x.length + y.length) = y := by
  simp [slice]

theorem draw_length (n len : Nat) : (Config.draw n len).length = len := by simp [Config.draw]

theorem drawNonzero_length (n len : Nat) : (Config.drawNonzero n len).length = len := by simp [Config.drawNonzero]

/-- A non-zero draw holds no octet 0x00 (00_scope.md R14). -/
theorem zero_not_mem_drawNonzero (n len : Nat) : (0 : Byte) ∉ Config.drawNonzero n len := by
  intro h
  obtain ⟨i, -, hi⟩ := List.mem_map.mp h
  have h1 := congrArg BitVec.toNat hi
  have h2 := (Config.rngNonzero n i).isLt
  simp [BitVec.toNat_ofNat] at h1
  omega

@[simp] theorem hash_length (D : Digest) (x : Bytes) : (D.hash x).length = D.hLen := by simp [Digest.hash]

/-- `hLen` is 28, 32, 48 or 64 (00_scope.md R9). -/
theorem hLen_pos (alg : HashAlg) : 0 < (Config.digest alg).hLen := by cases alg <;> decide

end Sys2Proof.Machine
end

