-- ==== Sys2Proof/Laws/State.lean ====
section
/-! SUPPORT. What each update of the state does to each field, as rewriting rules, so that no later proof unfolds a record
update. -/

namespace Sys2Proof.Machine

section Updates

variable (s : State)

/-! ### `State.retire` -/

@[simp] theorem State.retire_msg (v : Bool) (e : Option ErrKind) : (s.retire v e).msg = s.msg := rfl
@[simp] theorem State.retire_lbl (v : Bool) (e : Option ErrKind) : (s.retire v e).lbl = s.lbl := rfl
@[simp] theorem State.retire_aux (v : Bool) (e : Option ErrKind) : (s.retire v e).aux = s.aux := rfl
@[simp] theorem State.retire_em (v : Bool) (e : Option ErrKind) : (s.retire v e).em = s.em := rfl
@[simp] theorem State.retire_out (v : Bool) (e : Option ErrKind) : (s.retire v e).out = s.out := rfl
@[simp] theorem State.retire_xi (v : Bool) (e : Option ErrKind) : (s.retire v e).xi = s.xi := rfl
@[simp] theorem State.retire_keys (v : Bool) (e : Option ErrKind) : (s.retire v e).keys = s.keys := rfl
@[simp] theorem State.retire_cmdl (v : Bool) (e : Option ErrKind) : (s.retire v e).cmdl = s.cmdl := rfl
@[simp] theorem State.retire_status (v : Bool) (e : Option ErrKind) : (s.retire v e).status = s.status.completed v e := rfl
@[simp] theorem State.retire_cfg (v : Bool) (e : Option ErrKind) : (s.retire v e).cfg = s.cfg := rfl
@[simp] theorem State.retire_slen (v : Bool) (e : Option ErrKind) : (s.retire v e).slen = s.slen := rfl
@[simp] theorem State.retire_draws (v : Bool) (e : Option ErrKind) : (s.retire v e).draws = s.draws := rfl
@[simp] theorem State.retire_script (v : Bool) (e : Option ErrKind) : (s.retire v e).script = s.script := rfl
@[simp] theorem State.retire_responses (v : Bool) (e : Option ErrKind) : (s.retire v e).responses = s.responses := rfl

/-! ### `State.writeXi` -/

@[simp] theorem State.writeXi_msg (x : Nat) : (s.writeXi x).msg = s.msg := rfl
@[simp] theorem State.writeXi_lbl (x : Nat) : (s.writeXi x).lbl = s.lbl := rfl
@[simp] theorem State.writeXi_aux (x : Nat) : (s.writeXi x).aux = s.aux := rfl
@[simp] theorem State.writeXi_em (x : Nat) : (s.writeXi x).em = s.em := rfl
@[simp] theorem State.writeXi_out (x : Nat) : (s.writeXi x).out = s.out := rfl
@[simp] theorem State.writeXi_xi (x : Nat) : (s.writeXi x).xi = BitVec.ofNat 4096 x := rfl
@[simp] theorem State.writeXi_keys (x : Nat) : (s.writeXi x).keys = s.keys := rfl
@[simp] theorem State.writeXi_cmdl (x : Nat) : (s.writeXi x).cmdl = s.cmdl := rfl
@[simp] theorem State.writeXi_status (x : Nat) : (s.writeXi x).status = s.status := rfl
@[simp] theorem State.writeXi_cfg (x : Nat) : (s.writeXi x).cfg = s.cfg := rfl
@[simp] theorem State.writeXi_slen (x : Nat) : (s.writeXi x).slen = s.slen := rfl
@[simp] theorem State.writeXi_draws (x : Nat) : (s.writeXi x).draws = s.draws := rfl
@[simp] theorem State.writeXi_script (x : Nat) : (s.writeXi x).script = s.script := rfl
@[simp] theorem State.writeXi_responses (x : Nat) : (s.writeXi x).responses = s.responses := rfl

/-! ### `State.launch` -/

@[simp] theorem State.launch_msg (w : Word) : (s.launch w).msg = s.msg := rfl
@[simp] theorem State.launch_lbl (w : Word) : (s.launch w).lbl = s.lbl := rfl
@[simp] theorem State.launch_aux (w : Word) : (s.launch w).aux = s.aux := rfl
@[simp] theorem State.launch_em (w : Word) : (s.launch w).em = s.em := rfl
@[simp] theorem State.launch_out (w : Word) : (s.launch w).out = s.out := rfl
@[simp] theorem State.launch_xi (w : Word) : (s.launch w).xi = s.xi := rfl
@[simp] theorem State.launch_keys (w : Word) : (s.launch w).keys = s.keys := rfl
@[simp] theorem State.launch_cmdl (w : Word) : (s.launch w).cmdl = w := rfl
@[simp] theorem State.launch_status (w : Word) : (s.launch w).status = s.status.launched := rfl
@[simp] theorem State.launch_cfg (w : Word) : (s.launch w).cfg = s.cfg := rfl
@[simp] theorem State.launch_slen (w : Word) : (s.launch w).slen = s.slen := rfl
@[simp] theorem State.launch_draws (w : Word) : (s.launch w).draws = s.draws := rfl
@[simp] theorem State.launch_script (w : Word) : (s.launch w).script = s.script := rfl
@[simp] theorem State.launch_responses (w : Word) : (s.launch w).responses = s.responses := rfl

/-! ### `State.drew` -/

@[simp] theorem State.drew_msg (n : Nat) : (s.drew n).msg = s.msg := rfl
@[simp] theorem State.drew_lbl (n : Nat) : (s.drew n).lbl = s.lbl := rfl
@[simp] theorem State.drew_aux (n : Nat) : (s.drew n).aux = s.aux := rfl
@[simp] theorem State.drew_em (n : Nat) : (s.drew n).em = s.em := rfl
@[simp] theorem State.drew_out (n : Nat) : (s.drew n).out = s.out := rfl
@[simp] theorem State.drew_xi (n : Nat) : (s.drew n).xi = s.xi := rfl
@[simp] theorem State.drew_keys (n : Nat) : (s.drew n).keys = s.keys := rfl
@[simp] theorem State.drew_cmdl (n : Nat) : (s.drew n).cmdl = s.cmdl := rfl
@[simp] theorem State.drew_status (n : Nat) : (s.drew n).status = s.status := rfl
@[simp] theorem State.drew_cfg (n : Nat) : (s.drew n).cfg = s.cfg := rfl
@[simp] theorem State.drew_slen (n : Nat) : (s.drew n).slen = s.slen := rfl
@[simp] theorem State.drew_draws (n : Nat) : (s.drew n).draws = s.draws + n := rfl
@[simp] theorem State.drew_script (n : Nat) : (s.drew n).script = s.script := rfl
@[simp] theorem State.drew_responses (n : Nat) : (s.drew n).responses = s.responses := rfl

/-! ### `State.markHazard` -/

@[simp] theorem State.markHazard_msg : (s.markHazard).msg = s.msg := rfl
@[simp] theorem State.markHazard_lbl : (s.markHazard).lbl = s.lbl := rfl
@[simp] theorem State.markHazard_aux : (s.markHazard).aux = s.aux := rfl
@[simp] theorem State.markHazard_em : (s.markHazard).em = s.em := rfl
@[simp] theorem State.markHazard_out : (s.markHazard).out = s.out := rfl
@[simp] theorem State.markHazard_xi : (s.markHazard).xi = s.xi := rfl
@[simp] theorem State.markHazard_keys : (s.markHazard).keys = s.keys := rfl
@[simp] theorem State.markHazard_cmdl : (s.markHazard).cmdl = s.cmdl := rfl
@[simp] theorem State.markHazard_status : (s.markHazard).status = s.status.hazard := rfl
@[simp] theorem State.markHazard_cfg : (s.markHazard).cfg = s.cfg := rfl
@[simp] theorem State.markHazard_slen : (s.markHazard).slen = s.slen := rfl
@[simp] theorem State.markHazard_draws : (s.markHazard).draws = s.draws := rfl
@[simp] theorem State.markHazard_script : (s.markHazard).script = s.script := rfl
@[simp] theorem State.markHazard_responses : (s.markHazard).responses = s.responses := rfl

/-! ### `State.resetTurn` -/

@[simp] theorem State.resetTurn_msg : (s.resetTurn).msg = Buffer.empty := rfl
@[simp] theorem State.resetTurn_lbl : (s.resetTurn).lbl = Buffer.empty := rfl
@[simp] theorem State.resetTurn_aux : (s.resetTurn).aux = Buffer.empty := rfl
@[simp] theorem State.resetTurn_em : (s.resetTurn).em = Buffer.empty := rfl
@[simp] theorem State.resetTurn_out : (s.resetTurn).out = Buffer.empty := rfl
@[simp] theorem State.resetTurn_xi : (s.resetTurn).xi = 0 := rfl
@[simp] theorem State.resetTurn_keys : (s.resetTurn).keys = Keys.zero := rfl
@[simp] theorem State.resetTurn_cmdl : (s.resetTurn).cmdl = 0 := rfl
@[simp] theorem State.resetTurn_status : (s.resetTurn).status = ⟨false, false, false, false, none⟩ := rfl
@[simp] theorem State.resetTurn_cfg : (s.resetTurn).cfg = ⟨.sha224, .modulus⟩ := rfl
@[simp] theorem State.resetTurn_slen : (s.resetTurn).slen = 0 := rfl
@[simp] theorem State.resetTurn_draws : (s.resetTurn).draws = s.draws := rfl
@[simp] theorem State.resetTurn_script : (s.resetTurn).script = s.script := rfl
@[simp] theorem State.resetTurn_responses : (s.resetTurn).responses = s.responses := rfl

/-! ### Buffers by name -/

@[simp] theorem State.setBuf_msg (x : Buffer) : s.setBuf .msg x = { s with msg := x } := rfl
@[simp] theorem State.setBuf_lbl (x : Buffer) : s.setBuf .lbl x = { s with lbl := x } := rfl
@[simp] theorem State.setBuf_aux (x : Buffer) : s.setBuf .aux x = { s with aux := x } := rfl
@[simp] theorem State.setBuf_em (x : Buffer) : s.setBuf .em x = { s with em := x } := rfl
@[simp] theorem State.setBuf_out (x : Buffer) : s.setBuf .out x = { s with out := x } := rfl
@[simp] theorem State.buf_msg : s.buf .msg = s.msg := rfl
@[simp] theorem State.buf_lbl : s.buf .lbl = s.lbl := rfl
@[simp] theorem State.buf_aux : s.buf .aux = s.aux := rfl
@[simp] theorem State.buf_em : s.buf .em = s.em := rfl
@[simp] theorem State.buf_out : s.buf .out = s.out := rfl
@[simp] theorem State.writeBuf_msg (x : Bytes) : s.writeBuf .msg x = { s with msg := Buffer.ofBytes x } := rfl
@[simp] theorem State.writeBuf_lbl (x : Bytes) : s.writeBuf .lbl x = { s with lbl := Buffer.ofBytes x } := rfl
@[simp] theorem State.writeBuf_aux (x : Bytes) : s.writeBuf .aux x = { s with aux := Buffer.ofBytes x } := rfl
@[simp] theorem State.writeBuf_em (x : Bytes) : s.writeBuf .em x = { s with em := Buffer.ofBytes x } := rfl
@[simp] theorem State.writeBuf_out (x : Bytes) : s.writeBuf .out x = { s with out := Buffer.ofBytes x } := rfl

@[simp] theorem Buffer.ofBytes_nil : Buffer.ofBytes [] = Buffer.empty := rfl

@[simp] theorem State.clearBuf_msg : s.clearBuf .msg = { s with msg := Buffer.empty } := rfl
@[simp] theorem State.clearBuf_lbl : s.clearBuf .lbl = { s with lbl := Buffer.empty } := rfl
@[simp] theorem State.clearBuf_aux : s.clearBuf .aux = { s with aux := Buffer.empty } := rfl
@[simp] theorem State.clearBuf_em : s.clearBuf .em = { s with em := Buffer.empty } := rfl
@[simp] theorem State.clearBuf_out : s.clearBuf .out = { s with out := Buffer.empty } := rfl

theorem State.buf_setBuf_self (b : BufName) (x : Buffer) : (s.setBuf b x).buf b = x := by cases b <;> rfl

theorem State.buf_setBuf_of_ne (b b' : BufName) (x : Buffer) (h : b' ≠ b) : (s.setBuf b x).buf b' = s.buf b' := by
  cases b <;> cases b' <;> first | rfl | exact absurd rfl h

theorem State.setBuf_setBuf (b : BufName) (x y : Buffer) : (s.setBuf b x).setBuf b y = s.setBuf b y := by cases b <;> rfl

@[simp] theorem State.setBuf_xi_eq (b : BufName) (x : Buffer) : (s.setBuf b x).xi = s.xi := by cases b <;> rfl
@[simp] theorem State.setBuf_keys_eq (b : BufName) (x : Buffer) : (s.setBuf b x).keys = s.keys := by cases b <;> rfl
@[simp] theorem State.setBuf_cmdl_eq (b : BufName) (x : Buffer) : (s.setBuf b x).cmdl = s.cmdl := by cases b <;> rfl
@[simp] theorem State.setBuf_status_eq (b : BufName) (x : Buffer) : (s.setBuf b x).status = s.status := by cases b <;> rfl
@[simp] theorem State.setBuf_cfg_eq (b : BufName) (x : Buffer) : (s.setBuf b x).cfg = s.cfg := by cases b <;> rfl
@[simp] theorem State.setBuf_slen_eq (b : BufName) (x : Buffer) : (s.setBuf b x).slen = s.slen := by cases b <;> rfl
@[simp] theorem State.setBuf_draws_eq (b : BufName) (x : Buffer) : (s.setBuf b x).draws = s.draws := by cases b <;> rfl
@[simp] theorem State.setBuf_script_eq (b : BufName) (x : Buffer) : (s.setBuf b x).script = s.script := by cases b <;> rfl
@[simp] theorem State.setBuf_responses_eq (b : BufName) (x : Buffer) : (s.setBuf b x).responses = s.responses := by cases b <;> rfl

/-! ### Integer registers by name -/

@[simp] theorem State.intReg_xi : s.intReg .xi = s.xi := rfl
@[simp] theorem State.intReg_n : s.intReg .n = s.keys.n := rfl
@[simp] theorem State.intReg_e : s.intReg .e = s.keys.e := rfl
@[simp] theorem State.intReg_pn : s.intReg .pn = s.keys.pn := rfl
@[simp] theorem State.intReg_d : s.intReg .d = s.keys.d := rfl
@[simp] theorem State.intReg_p : s.intReg .p = s.keys.p := rfl
@[simp] theorem State.intReg_q : s.intReg .q = s.keys.q := rfl
@[simp] theorem State.intReg_dp : s.intReg .dp = s.keys.dp := rfl
@[simp] theorem State.intReg_dq : s.intReg .dq = s.keys.dq := rfl
@[simp] theorem State.intReg_qinv : s.intReg .qinv = s.keys.qinv := rfl

theorem State.intReg_setIntReg_self (r : IntReg) (v : BigWord) : (s.setIntReg r v).intReg r = v := by cases r <;> rfl

theorem State.intReg_setIntReg_of_ne (r r' : IntReg) (v : BigWord) (h : r' ≠ r) :
    (s.setIntReg r v).intReg r' = s.intReg r' := by
  cases r <;> cases r' <;> first | rfl | exact absurd rfl h

@[simp] theorem State.setIntReg_msg (r : IntReg) (v : BigWord) : (s.setIntReg r v).msg = s.msg := by cases r <;> rfl
@[simp] theorem State.setIntReg_lbl (r : IntReg) (v : BigWord) : (s.setIntReg r v).lbl = s.lbl := by cases r <;> rfl
@[simp] theorem State.setIntReg_aux (r : IntReg) (v : BigWord) : (s.setIntReg r v).aux = s.aux := by cases r <;> rfl
@[simp] theorem State.setIntReg_em (r : IntReg) (v : BigWord) : (s.setIntReg r v).em = s.em := by cases r <;> rfl
@[simp] theorem State.setIntReg_out (r : IntReg) (v : BigWord) : (s.setIntReg r v).out = s.out := by cases r <;> rfl
@[simp] theorem State.setIntReg_cmdl (r : IntReg) (v : BigWord) : (s.setIntReg r v).cmdl = s.cmdl := by cases r <;> rfl
@[simp] theorem State.setIntReg_status (r : IntReg) (v : BigWord) : (s.setIntReg r v).status = s.status := by cases r <;> rfl
@[simp] theorem State.setIntReg_cfg (r : IntReg) (v : BigWord) : (s.setIntReg r v).cfg = s.cfg := by cases r <;> rfl
@[simp] theorem State.setIntReg_slen (r : IntReg) (v : BigWord) : (s.setIntReg r v).slen = s.slen := by cases r <;> rfl
@[simp] theorem State.setIntReg_draws (r : IntReg) (v : BigWord) : (s.setIntReg r v).draws = s.draws := by cases r <;> rfl
@[simp] theorem State.setIntReg_script (r : IntReg) (v : BigWord) : (s.setIntReg r v).script = s.script := by cases r <;> rfl
@[simp] theorem State.setIntReg_responses (r : IntReg) (v : BigWord) : (s.setIntReg r v).responses = s.responses := by cases r <;> rfl

/-! ### Discarding transients and taking an error -/

@[simp] theorem State.discard_component : s.discard .component = s := rfl

@[simp] theorem State.discard_scheme : s.discard .scheme = { s with em := Buffer.empty, xi := 0 } := rfl

@[simp] theorem State.clearDest_out : s.clearDest .out = { s with out := Buffer.empty } := rfl

@[simp] theorem State.clearDest_em : s.clearDest .em = { s with em := Buffer.empty } := rfl

@[simp] theorem State.clearDest_xi : s.clearDest .xi = { s with xi := 0 } := rfl

@[simp] theorem State.raise_nil (l : Layer) (e : ErrKind) : s.raise l [] e = (s.discard l).retire false (some e) := rfl

@[simp] theorem State.raise_one (l : Layer) (d : Dest) (e : ErrKind) :
    s.raise l [d] e = ((s.clearDest d).discard l).retire false (some e) := rfl

end Updates

/-! ### Flags -/

section Flags

variable (s : Status)

@[simp] theorem Status.launched_busy : (s.launched).busy = true := rfl
@[simp] theorem Status.launched_done : (s.launched).done = false := rfl
@[simp] theorem Status.launched_valid : (s.launched).valid = false := rfl
@[simp] theorem Status.launched_hzd : (s.launched).hzd = s.hzd := rfl
@[simp] theorem Status.launched_err : (s.launched).err = none := rfl
@[simp] theorem Status.completed_busy (v : Bool) (e : Option ErrKind) : (s.completed v e).busy = false := rfl
@[simp] theorem Status.completed_done (v : Bool) (e : Option ErrKind) : (s.completed v e).done = true := rfl
@[simp] theorem Status.completed_valid (v : Bool) (e : Option ErrKind) : (s.completed v e).valid = v := rfl
@[simp] theorem Status.completed_hzd (v : Bool) (e : Option ErrKind) : (s.completed v e).hzd = s.hzd := rfl
@[simp] theorem Status.completed_err (v : Bool) (e : Option ErrKind) : (s.completed v e).err = e := rfl
@[simp] theorem Status.hazard_busy : (s.hazard).busy = s.busy := rfl
@[simp] theorem Status.hazard_done : (s.hazard).done = s.done := rfl
@[simp] theorem Status.hazard_valid : (s.hazard).valid = s.valid := rfl
@[simp] theorem Status.hazard_hzd : (s.hazard).hzd = true := rfl
@[simp] theorem Status.hazard_err : (s.hazard).err = s.err := rfl

end Flags

end Sys2Proof.Machine
end

