-- ==== Sys2Proof/Laws/Memory.lean ====
section
/-! SUPPORT. Octets by index: what reading after writing gives, and that every operation keeps the canonical form. -/

namespace Sys2Proof.Machine

theorem Memory.wfFrom_mono {m : Memory} {a b : Nat} (hab : a ≤ b) (h : m.wfFrom b = true) : m.wfFrom a = true := by
  cases m with
  | nil => rfl
  | cons c m =>
    obtain ⟨k, v⟩ := c
    simp only [Memory.wfFrom, Bool.and_eq_true, decide_eq_true_eq] at h ⊢
    exact ⟨⟨by omega, h.1.2⟩, h.2⟩

/-- An index below the first listed one reads as 0x00. -/
theorem Memory.read_of_lt {m : Memory} {a b : Nat} (h : m.wfFrom b = true) (hab : a < b) : m.read a = 0 := by
  cases m with
  | nil => rfl
  | cons c m =>
    obtain ⟨k, v⟩ := c
    simp only [Memory.wfFrom, Bool.and_eq_true, decide_eq_true_eq] at h
    have hk : k ≠ a := by omega
    have hk' : a < k := by omega
    simp [Memory.read, hk, hk']

theorem Memory.read_write_self {m : Memory} {b : Nat} (a : Nat) (v : Byte) (h : m.wfFrom b = true) :
    (m.write a v).read a = v := by
  induction m generalizing b with
  | nil => by_cases hv : v = 0#8 <;> simp [Memory.write, Memory.read, hv]
  | cons c m ih =>
    obtain ⟨k, w⟩ := c
    simp only [Memory.wfFrom, Bool.and_eq_true, decide_eq_true_eq] at h
    by_cases h1 : a < k
    · by_cases hv : v = 0#8
      · have : k ≠ a := by omega
        simp [Memory.write, Memory.read, h1, hv, this]
      · simp [Memory.write, Memory.read, h1, hv]
    · by_cases h2 : a = k
      · subst h2
        by_cases hv : v = 0#8
        · simp [Memory.write, hv, Memory.read_of_lt h.2 (Nat.lt_succ_self a)]
        · simp [Memory.write, Memory.read, hv]
      · have h3 : k ≠ a := fun e => h2 e.symm
        simp [Memory.write, Memory.read, h1, h2, h3, ih h.2]

theorem Memory.read_write_of_ne {m : Memory} {b : Nat} (a a' : Nat) (v : Byte) (hne : a' ≠ a) (h : m.wfFrom b = true) :
    (m.write a v).read a' = m.read a' := by
  induction m generalizing b with
  | nil =>
    by_cases hv : v = 0#8
    · simp [Memory.write, hv]
    · simp [Memory.write, Memory.read, hv, Ne.symm hne]
  | cons c m ih =>
    obtain ⟨k, w⟩ := c
    simp only [Memory.wfFrom, Bool.and_eq_true, decide_eq_true_eq] at h
    by_cases h1 : a < k
    · by_cases hv : v = 0#8
      · simp [Memory.write, h1, hv]
      · by_cases h4 : a' < a
        · have h5 : a' < k := by omega
          have h6 : k ≠ a' := by omega
          simp [Memory.write, Memory.read, h1, hv, h4, h5, h6, Ne.symm hne]
        · simp [Memory.write, Memory.read, h1, hv, h4, Ne.symm hne]
    · by_cases h2 : a = k
      · subst h2
        by_cases hv : v = 0#8
        · by_cases h4 : a' < a
          · have h5 : a' < a + 1 := by omega
            simp [Memory.write, Memory.read, hv, h4, Ne.symm hne, Memory.read_of_lt h.2 h5]
          · simp [Memory.write, Memory.read, hv, h4, Ne.symm hne]
        · simp [Memory.write, Memory.read, hv, Ne.symm hne]
      · simp only [Memory.write, h1, h2, if_false]
        by_cases h4 : k = a'
        · simp [Memory.read, h4]
        · by_cases h5 : a' < k
          · simp [Memory.read, h4, h5]
          · simp [Memory.read, h4, h5, ih h.2]

theorem Memory.wfFrom_write {m : Memory} {a b : Nat} (v : Byte) (hab : b ≤ a) (h : m.wfFrom b = true) :
    (m.write a v).wfFrom b = true := by
  induction m generalizing b with
  | nil => by_cases hv : v = 0#8 <;> simp [Memory.write, Memory.wfFrom, hv, hab]
  | cons c m ih =>
    obtain ⟨k, w⟩ := c
    have h' := h
    simp only [Memory.wfFrom, Bool.and_eq_true, decide_eq_true_eq] at h
    by_cases h1 : a < k
    · by_cases hv : v = 0#8
      · simpa [Memory.write, h1, hv] using h'
      · have h3 : a + 1 ≤ k := by omega
        have hw : ¬ w = 0#8 := h.1.2
        simp [Memory.write, Memory.wfFrom, h1, hv, hab, h3, hw, h.2]
    · by_cases h2 : a = k
      · subst h2
        by_cases hv : v = 0#8
        · simpa [Memory.write, hv] using Memory.wfFrom_mono (by omega) h.2
        · simp [Memory.write, Memory.wfFrom, hv, hab, h.2]
      · have h3 : k + 1 ≤ a := by omega
        have hw : ¬ w = 0#8 := h.1.2
        simp [Memory.write, Memory.wfFrom, h1, h2, h.1.1, hw, ih h3 h.2]

theorem Memory.wf_write {m : Memory} (a : Nat) (v : Byte) (h : m.wf = true) : (m.write a v).wf = true :=
  Memory.wfFrom_write v (Nat.zero_le a) h

theorem Memory.below_write {cap : Nat} {m : Memory} {a : Nat} (v : Byte) (ha : a < cap) (h : m.below cap = true) :
    (m.write a v).below cap = true := by
  induction m with
  | nil => by_cases hv : v = 0#8 <;> simp [Memory.write, Memory.below, hv, ha]
  | cons c m ih =>
    obtain ⟨k, w⟩ := c
    simp only [Memory.below, List.all_cons, Bool.and_eq_true, decide_eq_true_eq] at h ih ⊢
    by_cases h1 : a < k
    · by_cases hv : v = 0#8
      · simpa [Memory.write, h1, hv] using h
      · simpa [Memory.write, h1, hv, ha] using h
    · by_cases h2 : a = k
      · subst h2
        by_cases hv : v = 0#8
        · simpa [Memory.write, hv] using h.2
        · simpa [Memory.write, hv, ha] using h.2
      · simp only [Memory.write, h1, h2, if_false, List.all_cons, Bool.and_eq_true, decide_eq_true_eq]
        exact ⟨h.1, ih h.2⟩

theorem Memory.wfFrom_ofBytes (a : Nat) (x : Bytes) : (Memory.ofBytes a x).wfFrom a = true := by
  induction x generalizing a with
  | nil => rfl
  | cons v x ih =>
    by_cases hv : v = 0#8
    · simpa [Memory.ofBytes, hv] using Memory.wfFrom_mono (Nat.le_succ a) (ih (a + 1))
    · simp [Memory.ofBytes, Memory.wfFrom, hv, ih (a + 1)]

theorem Memory.below_ofBytes {cap : Nat} (a : Nat) (x : Bytes) (h : a + x.length ≤ cap) :
    (Memory.ofBytes a x).below cap = true := by
  induction x generalizing a with
  | nil => rfl
  | cons v x ih =>
    have h' : a + 1 + x.length ≤ cap := by simp only [List.length_cons] at h; omega
    have ha : a < cap := by omega
    by_cases hv : v = 0#8
    · simpa [Memory.ofBytes, hv] using ih (a + 1) h'
    · simpa [Memory.ofBytes, Memory.below, hv, ha] using ih (a + 1) h'

/-- The octets of a written string, and 0x00 after them (10_state.md R25). -/
theorem Memory.read_ofBytes (a : Nat) (x : Bytes) (i : Nat) : (Memory.ofBytes a x).read (a + i) = x.getD i 0 := by
  induction x generalizing a i with
  | nil => simp [Memory.ofBytes, Memory.read]
  | cons v x ih =>
    cases i with
    | zero =>
      by_cases hv : v = 0#8
      · simp [Memory.ofBytes, hv, Memory.read_of_lt (Memory.wfFrom_ofBytes (a + 1) x) (Nat.lt_succ_self a)]
      · simp [Memory.ofBytes, Memory.read, hv]
    | succ i =>
      have e : a + (i + 1) = a + 1 + i := by omega
      have h1 : a ≠ a + 1 + i := by omega
      have h2 : ¬ a + 1 + i < a := by omega
      by_cases hv : v = 0#8
      · simp [Memory.ofBytes, hv, e, ih]
      · simp [Memory.ofBytes, Memory.read, hv, e, h1, h2, ih]

/-- Two canonical memories that read alike are the same list. -/
theorem Memory.ext_of_wf {m m' : Memory} {b : Nat} (h : m.wfFrom b = true) (h' : m'.wfFrom b = true)
    (heq : ∀ a, m.read a = m'.read a) : m = m' := by
  induction m generalizing m' b with
  | nil =>
    cases m' with
    | nil => rfl
    | cons c m' =>
      obtain ⟨k, v⟩ := c
      simp only [Memory.wfFrom, Bool.and_eq_true, decide_eq_true_eq] at h'
      have := heq k
      simp [Memory.read] at this
      exact absurd this.symm h'.1.2
  | cons c m ih =>
    obtain ⟨k, v⟩ := c
    simp only [Memory.wfFrom, Bool.and_eq_true, decide_eq_true_eq] at h
    cases m' with
    | nil =>
      have := heq k
      simp [Memory.read] at this
      exact absurd this h.1.2
    | cons c' m' =>
      obtain ⟨k', v'⟩ := c'
      simp only [Memory.wfFrom, Bool.and_eq_true, decide_eq_true_eq] at h'
      have hk : k = k' := by
        rcases Nat.lt_trichotomy k k' with hlt | he | hlt
        · have := heq k
          have hne : k' ≠ k := by omega
          simp [Memory.read, hne, hlt] at this
          exact absurd this h.1.2
        · exact he
        · have := heq k'
          have hne : k ≠ k' := by omega
          simp [Memory.read, hne, hlt] at this
          exact absurd this.symm h'.1.2
      subst hk
      have hv : v = v' := by simpa [Memory.read] using heq k
      subst hv
      have : m = m' := by
        refine ih h.2 h'.2 fun a => ?_
        by_cases ha : a < k + 1
        · rw [Memory.read_of_lt h.2 ha, Memory.read_of_lt h'.2 ha]
        · have := heq a
          have h1 : k ≠ a := by omega
          have h2 : ¬ a < k := by omega
          simpa [Memory.read, h1, h2] using this
      rw [this]

/-! ### Buffers -/

theorem Buffer.wf_empty (cap : Nat) : Buffer.empty.wf cap = true := rfl

theorem Buffer.wf_ofBytes {cap : Nat} {x : Bytes} (h : x.length ≤ cap) : (Buffer.ofBytes x).wf cap = true := by
  have hb : (Memory.ofBytes 0 x).below cap = true := Memory.below_ofBytes 0 x (by omega)
  simp [Buffer.wf, Buffer.ofBytes, Memory.wf, Memory.wfFrom_ofBytes, hb]

theorem Buffer.read_ofBytes (x : Bytes) (i : Nat) : (Buffer.ofBytes x).data.read i = x.getD i 0 := by
  have h := Memory.read_ofBytes 0 x i
  rwa [Nat.zero_add] at h

theorem Buffer.len_ofBytes {x : Bytes} (h : x.length < 2 ^ 32) : (Buffer.ofBytes x).len.toNat = x.length := by
  simpa [Buffer.ofBytes] using h

theorem Buffer.wf_write {cap : Nat} {x : Buffer} {i : Nat} (v : Byte) (hi : i < cap) (h : x.wf cap = true) :
    ({ x with data := x.data.write i v } : Buffer).wf cap = true := by
  simp only [Buffer.wf, Bool.and_eq_true] at h ⊢
  exact ⟨Memory.wf_write i v h.1, Memory.below_write v hi h.2⟩

/-- `val(B)` has as many octets as the length register says (10_state.md R24). -/
@[simp] theorem State.val_length (s : State) (b : BufName) : (s.val b).length = s.bufLen b := by simp [State.val]

theorem State.val_getElem (s : State) (b : BufName) (i : Nat) (h : i < (s.val b).length) :
    (s.val b)[i] = s.octet b i := by simp [State.val]

/-- A buffer that holds a string has that string as its value. -/
theorem State.val_of_buf {s : State} {b : BufName} {x : Bytes} (h : s.buf b = Buffer.ofBytes x) (hx : x.length < 2 ^ 32) :
    s.val b = x := by
  have hl : s.bufLen b = x.length := by rw [State.bufLen, h, Buffer.len_ofBytes hx]
  apply List.ext_getElem
  · simp [hl]
  · intro i h1 h2
    rw [State.val_getElem, State.octet, h, Buffer.read_ofBytes, List.getD_eq_getElem _ _ h2]

end Sys2Proof.Machine
end

