-- ==== Sys2Proof/Laws/Bus.lean ====
section
/-! SUPPORT. What a host access can do, said once; where the address map puts things; and that a word written to a buffer
keeps its canonical form (20_memory.md R60 to R67, 10_state.md R42). -/

namespace Sys2Proof.Machine

/-! ### The address map -/

/-- An offset that reaches something lies in the region of the map that it reaches. -/
theorem locate_eq_some {a j : Nat} {k : RegionKind} (h : locate a = some (k, j)) :
    ∃ r ∈ addressMap, r.kind = k ∧ r.base ≤ a ∧ a < r.base + r.size ∧ j = (a - r.base) / 4 := by
  unfold locate at h
  cases hf : addressMap.find? (fun r => r.holds a) with
  | none => simp [hf] at h
  | some r =>
    simp only [hf, Option.map_some, Option.some.injEq, Prod.mk.injEq] at h
    have hm := List.mem_of_find?_eq_some hf
    have hh := List.find?_some hf
    simp only [Region.holds, Bool.and_eq_true, decide_eq_true_eq] at hh
    exact ⟨r, hm, h.1, hh.1, hh.2, h.2.symm⟩

/-- The word index of a buffer access lies within the buffer. -/
theorem locate_data_lt {a j : Nat} {b : BufName} (h : locate a = some (.data b, j)) : 4 * j + 3 < b.cap := by
  obtain ⟨r, hm, hk, h1, h2, rfl⟩ := locate_eq_some h
  have key : ∀ r ∈ addressMap, ∀ b : BufName, r.kind = .data b → r.size = b.cap := by
    intro r hr b
    simp only [addressMap, controlRegions, bufferRegions, integerRegions, List.cons_append, List.nil_append,
      List.mem_cons, List.not_mem_nil, or_false] at hr
    rcases hr with rfl | rfl | rfl | rfl | rfl | rfl | rfl | rfl | rfl | rfl | rfl | rfl | rfl | rfl | rfl | rfl | rfl
      | rfl | rfl | rfl | rfl | rfl | rfl | rfl <;> cases b <;> intro hk <;> first | rfl | cases hk
  have hs := key r hm b hk
  have h4 : b.cap % 4 = 0 := by cases b <;> rfl
  rw [hs] at h2
  omega

/-- The word index of an integer access is below 128. -/
theorem locate_integer_lt {a j : Nat} {x : IntReg} (h : locate a = some (.integer x, j)) : j < 128 := by
  obtain ⟨r, hm, hk, h1, h2, rfl⟩ := locate_eq_some h
  have key : ∀ r ∈ addressMap, ∀ x : IntReg, r.kind = .integer x → r.size = 512 := by
    intro r hr x
    simp only [addressMap, controlRegions, bufferRegions, integerRegions, List.cons_append, List.nil_append,
      List.mem_cons, List.not_mem_nil, or_false] at hr
    rcases hr with rfl | rfl | rfl | rfl | rfl | rfl | rfl | rfl | rfl | rfl | rfl | rfl | rfl | rfl | rfl | rfl | rfl
      | rfl | rfl | rfl | rfl | rfl | rfl | rfl <;> cases x <;> intro hk <;> first | rfl | cases hk
  have hs := key r hm x hk
  rw [hs] at h2
  omega

/-- Whether an offset is mapped, as arithmetic (20_memory.md R66). -/
theorem locate_eq_none {a : Nat} : locate a = none ↔
    (0x24 ≤ a ∧ a < 0x1000) ∨ (0x2A00 ≤ a ∧ a < 0x3000) ∨ 0x4200 ≤ a := by
  simp only [locate, Option.map_eq_none_iff, List.find?_eq_none, addressMap, controlRegions, bufferRegions,
    integerRegions, List.cons_append, List.nil_append, List.forall_mem_cons, Region.holds, Bool.and_eq_true,
    decide_eq_true_eq, Config.mMax, Config.lMax, Config.kMax, List.not_mem_nil, false_implies, implies_true, and_true]
  omega

/-! ### Accesses -/

/-- Everything an access does to the state: nothing, or HZD set while busy, or one register write while idle. -/
theorem perform_cases (s : State) (a : Access) :
    (s.perform a).1 = s ∨ (s.status.busy = true ∧ (s.perform a).1 = s.markHazard)
      ∨ (s.status.busy = false ∧ ∃ w x v k j, a = .write w x v ∧ reach w x = some (k, j)
        ∧ (s.perform a).1 = s.writeWord k j v) := by
  cases a with
  | read w x =>
    simp only [State.perform]
    cases reach w x with
    | none => exact .inl rfl
    | some kj =>
      simp only [State.hostRead]
      split
      · next h => exact .inr (.inl ⟨by simpa using (Bool.and_eq_true _ _ ▸ h).1, rfl⟩)
      · exact .inl rfl
  | write w x v =>
    simp only [State.perform]
    cases hr : reach w x with
    | none => exact .inl rfl
    | some kj =>
      simp only [State.hostWrite]
      cases hb : s.status.busy
      · exact .inr (.inr ⟨rfl, w, x, v, kj.1, kj.2, rfl, hr, rfl⟩)
      · exact .inr (.inl ⟨rfl, rfl⟩)

theorem reach_eq_some {w : Width} {a : Offset} {k : RegionKind} {j : Nat} :
    reach w a = some (k, j) ↔ w = .w32 ∧ a.toNat % 4 = 0 ∧ locate a.toNat = some (k, j) := by
  unfold reach
  split
  · next h => simp [h]
  · next h =>
    constructor
    · intro h'; cases h'
    · rintro ⟨h1, h2, -⟩; exact absurd ⟨h1, h2⟩ h

/-- While busy the host changes nothing but HZD and the answers it has had (10_state.md R42). -/
theorem hostTurn_busy {s : State} (h : s.status.busy = true) (a : Access) :
    ∃ z r, s.hostTurn a = { s with status := { s.status with hzd := z }, responses := r } := by
  rcases perform_cases s a with h1 | ⟨-, h1⟩ | ⟨h0, -⟩
  · exact ⟨s.status.hzd, _, by rw [State.hostTurn, h1]⟩
  · exact ⟨true, _, by rw [State.hostTurn, h1]; rfl⟩
  · rw [h] at h0; cases h0

/-! ### Words of buffers -/

theorem wf_setBufWord {s : State} {b : BufName} {j : Nat} (v : Word) (hj : 4 * j + 3 < b.cap)
    (h : (s.buf b).wf b.cap = true) :
    ∃ x : Buffer, s.setBufWord b j v = s.setBuf b x ∧ x.len = (s.buf b).len ∧ x.wf b.cap = true := by
  refine ⟨{ s.buf b with data := ((((s.buf b).data.write (4 * j) (v.extractLsb' 0 8)).write (4 * j + 1)
    (v.extractLsb' 8 8)).write (4 * j + 2) (v.extractLsb' 16 8)).write (4 * j + 3) (v.extractLsb' 24 8) }, ?_, rfl, ?_⟩
  · simp only [State.setBufWord, State.setOctet, State.buf_setBuf_self, State.setBuf_setBuf]
  · have h1 := Buffer.wf_write (i := 4 * j) (v.extractLsb' 0 8) (by omega) h
    have h2 := Buffer.wf_write (i := 4 * j + 1) (v.extractLsb' 8 8) (by omega) h1
    have h3 := Buffer.wf_write (i := 4 * j + 2) (v.extractLsb' 16 8) (by omega) h2
    exact Buffer.wf_write (i := 4 * j + 3) (v.extractLsb' 24 8) (by omega) h3

theorem bufWord_lane (s : State) (b : BufName) (j l : Nat) (h : l < 4) :
    (s.bufWord b j).extractLsb' (8 * l) 8 = s.octet b (4 * j + l) := by
  have : l = 0 ∨ l = 1 ∨ l = 2 ∨ l = 3 := by omega
  rcases this with rfl | rfl | rfl | rfl <;> simp only [State.bufWord] <;>
    generalize s.octet b (4 * j + 3) = o3 <;> generalize s.octet b (4 * j + 2) = o2 <;>
    generalize s.octet b (4 * j + 1) = o1 <;>
    generalize s.octet b (4 * j + 0) = o0 <;>
    (ext i hi
     rw [BitVec.getElem_extractLsb', BitVec.getLsbD_append, BitVec.getLsbD_append, BitVec.getLsbD_append]
     split_ifs <;> first | omega | (rw [← BitVec.getLsbD_eq_getElem]; congr 1; omega))

/-! ### Limbs of integer registers -/

theorem limb_toNat (x : BigWord) (j : Nat) : (limb x j).toNat = x.toNat / 2 ^ (32 * j) % 2 ^ 32 := by
  simp [limb, Nat.shiftRight_eq_div_pow]

theorem limb_getLsbD (x : BigWord) (j i : Nat) (h : i < 32) : (limb x j).getLsbD i = x.getLsbD (32 * j + i) := by
  simp [limb, h]

theorem ones32_getLsbD (i : Nat) : (0xFFFFFFFF : BigWord).getLsbD i = decide (i < 32) := by
  have e : (0xFFFFFFFF : Nat) = 2 ^ 32 - 1 := rfl
  have e' : (0xFFFFFFFF : BigWord) = BitVec.ofNat 4096 0xFFFFFFFF := rfl
  rw [e', BitVec.getLsbD_ofNat, e, Nat.testBit_two_pow_sub_one]
  by_cases h : i < 32
  · have : i < 4096 := by omega
    simp [h, this]
  · simp [h]

/-- A write of a limb replaces that limb and keeps the others (20_memory.md R64). -/
theorem limb_setLimb (x : BigWord) (j k : Nat) (v : Word) (hj : j < 128) (hk : k < 128) :
    limb (setLimb x j v) k = if k = j then v else limb x k := by
  apply BitVec.eq_of_getLsbD_eq
  intro i hi
  have h1 : 32 * k + i < 4096 := by omega
  rw [limb_getLsbD _ _ _ hi]
  simp only [setLimb, BitVec.getLsbD_or, BitVec.getLsbD_and, BitVec.getLsbD_not, BitVec.getLsbD_shiftLeft,
    BitVec.getLsbD_setWidth, ones32_getLsbD]
  by_cases hkj : k = j
  · subst hkj
    have e : 32 * k + i - 32 * k = i := by omega
    have h2 : i < 4096 := by omega
    simp [e, h1, h2, hi]
  · rw [if_neg hkj, limb_getLsbD _ _ _ hi]
    by_cases hlt : 32 * k + i < 32 * j
    · simp [h1, hlt]
    · have h3 : ¬ 32 * k + i - 32 * j < 32 := by omega
      rw [BitVec.getLsbD_of_ge v _ (by omega)]
      simp [h1, hlt, h3]

end Sys2Proof.Machine
end

