-- ==== Sys2Proof/Laws/Encoding.lean ====
section
/-! SUPPORT. The fields of a command word: a word is exactly its five fields side by side, and the encoder puts each field
in its place (30_encoding.md R81, R83, R88). -/

namespace Sys2Proof

/-- The field layout of rule R81, the highest field first. -/
theorem commandWord_eq_append (o : Opcode) (f g : Bool) (n : Nat) :
    commandWord o f g n
      = BitVec.ofNat 16 n ++ (0#6 ++ (BitVec.ofBool g ++ (BitVec.ofBool f ++ o.code : BitVec 9) : BitVec 10) : BitVec 16) := by
  unfold commandWord
  have h : BitVec.ofNat 16 n = (BitVec.ofNat 32 n).setWidth 16 := by
    rw [BitVec.setWidth_ofNat_of_le (by norm_num)]
  rw [h]
  generalize o.code = c
  generalize BitVec.ofNat 32 n = x
  apply BitVec.eq_of_getLsbD_eq
  intro i hi
  interval_cases i <;> simp only [BitVec.getLsbD_append] <;> simp

/-- A word is its five fields side by side (R81). -/
theorem word_eq_append (w : Word) :
    w = w.extractLsb' 16 16 ++ (w.extractLsb' 10 6 ++ (BitVec.ofBool (w.getLsbD 9) ++
      (BitVec.ofBool (w.getLsbD 8) ++ w.extractLsb' 0 8 : BitVec 9) : BitVec 10) : BitVec 16) := by
  apply BitVec.eq_of_getLsbD_eq
  intro i hi
  interval_cases i <;> simp only [BitVec.getLsbD_append, BitVec.getLsbD_extractLsb'] <;> simp

section Fields

variable (c : BitVec 8) (f g : Bool) (r : BitVec 6) (n : BitVec 16)

/-- The word with given fields. -/
abbrev fieldsWord : Word := n ++ (r ++ (BitVec.ofBool g ++ (BitVec.ofBool f ++ c : BitVec 9) : BitVec 10) : BitVec 16)

theorem Field.opc_fieldsWord : Field.opc (fieldsWord c f g r n) = c := by
  apply BitVec.eq_of_getLsbD_eq
  intro i hi
  interval_cases i <;> simp only [Field.opc, BitVec.getLsbD_append, BitVec.getLsbD_extractLsb'] <;> simp

theorem Field.rsv_fieldsWord : Field.rsv (fieldsWord c f g r n) = r := by
  apply BitVec.eq_of_getLsbD_eq
  intro i hi
  interval_cases i <;> simp only [Field.rsv, BitVec.getLsbD_append, BitVec.getLsbD_extractLsb'] <;> simp

theorem Field.fix_fieldsWord : Field.fix (fieldsWord c f g r n) = f := by
  simp only [Field.fix, BitVec.getLsbD_append]
  simp

theorem Field.sel_fieldsWord : Field.sel (fieldsWord c f g r n) = g := by
  simp only [Field.sel, BitVec.getLsbD_append]
  simp

theorem Field.len_fieldsWord : Field.len (fieldsWord c f g r n) = n.toNat := by
  unfold Field.len
  congr 1
  apply BitVec.eq_of_getLsbD_eq
  intro i hi
  interval_cases i <;> simp only [BitVec.getLsbD_append, BitVec.getLsbD_extractLsb'] <;> simp

end Fields

/-- No two mnemonics have one `OPC` (R84). -/
theorem Opcode.ofCode_code (o : Opcode) : Opcode.ofCode o.code = some o := by cases o <;> decide

theorem Opcode.ofCode_eq_some {c : BitVec 8} {o : Opcode} (h : Opcode.ofCode c = some o) : o.code = c := by
  have := List.find?_some h
  simpa using this

/-- A command built from its own fields is that command: no row loses a field. -/
theorem Opcode.build_self (i : Instr) : i.opcode.build i.fix i.sel i.len = i := by cases i <;> rfl

end Sys2Proof
end

