-- ==== Sys2Proof/Laws/Mgf1.lean ====
section
/-! SUPPORT. MGF1: when it succeeds, the length of a mask, the octets of a mask (41_mgf1.md R140 to R142). -/

namespace Sys2Proof.Machine

theorem ceilDiv_mul_le {a b : Nat} (h : 0 < b) : a ≤ ceilDiv a b * b := by
  have := Nat.div_add_mod (a + (b - 1)) b
  have hlt := Nat.mod_lt (a + (b - 1)) h
  rw [Nat.mul_comm] at this
  unfold ceilDiv
  omega

@[simp] theorem mgf1Blocks_length (D : Digest) (seed : Bytes) (n : Nat) : (mgf1Blocks D seed n).length = n * D.hLen := by
  simp [mgf1Blocks, List.length_flatMap, mgf1Block]

/-- More blocks only append (41_mgf1.md R142). -/
theorem mgf1Blocks_add (D : Digest) (seed : Bytes) (a b : Nat) :
    ∃ tail, mgf1Blocks D seed (a + b) = mgf1Blocks D seed a ++ tail := by
  simp only [mgf1Blocks, List.range_add, List.flatMap_append]
  exact ⟨_, rfl⟩

/-- The octets of the blocks: octet `i` is octet `i mod hLen` of block `i / hLen`. -/
theorem mgf1Blocks_getElem? (D : Digest) (seed : Bytes) (n i : Nat) (h : i < n * D.hLen) :
    (mgf1Blocks D seed n)[i]? = (mgf1Block D seed (i / D.hLen))[i % D.hLen]? := by
  induction n with
  | zero => omega
  | succ n ih =>
    have hpos : 0 < D.hLen := by
      rcases Nat.eq_zero_or_pos D.hLen with h0 | h0
      · simp [h0] at h
      · exact h0
    have e : mgf1Blocks D seed (n + 1) = mgf1Blocks D seed n ++ mgf1Block D seed n := by
      simp [mgf1Blocks, List.range_succ, List.flatMap_append]
    rw [e]
    by_cases hi : i < n * D.hLen
    · rw [List.getElem?_append_left (by simpa using hi), ih hi]
    · have hd : i / D.hLen = n := by
        apply Nat.div_eq_of_lt_le
        · omega
        · exact h
      have hm : i % D.hLen = i - n * D.hLen := by
        have := Nat.div_add_mod i D.hLen
        rw [hd, Nat.mul_comm] at this
        omega
      rw [List.getElem?_append_right (by simpa using Nat.le_of_not_lt hi), mgf1Blocks_length, hd, hm]

theorem mgf1_eq_ok {D : Digest} {seed x : Bytes} {n : Nat} :
    mgf1 D seed n = .ok x ↔ n ≤ 2 ^ 32 * D.hLen ∧ x = (mgf1Blocks D seed (ceilDiv n D.hLen)).take n := by
  unfold mgf1
  split <;> simp_all [eq_comm]

/-- A mask has the length asked for (41_mgf1.md R142). -/
theorem mgf1_length {D : Digest} {seed x : Bytes} {n : Nat} (h : mgf1 D seed n = .ok x) : x.length = n := by
  obtain ⟨hn, rfl⟩ := mgf1_eq_ok.mp h
  rcases Nat.eq_zero_or_pos D.hLen with h0 | h0
  · have : n = 0 := by simpa [h0] using hn
    simp [this]
  · have := ceilDiv_mul_le (a := n) h0
    simpa using this

/-- MGF1 cannot fail for a mask that fits a buffer (41_mgf1.md R141). -/
theorem mgf1_total {D : Digest} (hpos : 0 < D.hLen) (seed : Bytes) {n : Nat} (h : n ≤ 2 ^ 32) :
    ∃ x, mgf1 D seed n = .ok x ∧ x.length = n := by
  have : n ≤ 2 ^ 32 * D.hLen := le_trans h (Nat.le_mul_of_pos_right _ hpos)
  have e := (mgf1_eq_ok (D := D) (seed := seed)).mpr ⟨this, rfl⟩
  exact ⟨_, e, mgf1_length e⟩

end Sys2Proof.Machine
end

