-- ==== Sys2Proof/Laws/Oaep.lean ====
section
/-! SUPPORT. OAEP as functions: when encoding succeeds and what it gives, and that decoding accepts exactly the encodings
(42_oaep.md R150, R152). -/

namespace Sys2Proof.Machine

/-- `DB` of an encoding (R150). -/
def oaepDb (D : Digest) (k : Nat) (m l : Bytes) : Bytes :=
  D.hash l ++ zeros (k - m.length - 2 * D.hLen - 2) ++ [0x01] ++ m

theorem oaepDb_length {D : Digest} {k : Nat} {m : Bytes} (l : Bytes) (h : m.length + 2 * D.hLen + 2 ≤ k) :
    (oaepDb D k m l).length = k - D.hLen - 1 := by
  simp [oaepDb]; omega

theorem oaepEncode_eq (D : Digest) (k : Nat) (m l : Bytes) (src : PadSource) :
    oaepEncode D k m l src = if m.length + 2 * D.hLen + 2 ≤ k then
      (oaepSeed D src).bind fun seed => oaepMask D k seed (oaepDb D k m l) else .error .messageTooLong := by
  unfold oaepEncode
  by_cases h : m.length + 2 * D.hLen + 2 ≤ k
  · have h1 : ¬ ((k : Int) - m.length - 2 * D.hLen - 2 < 0) := by omega
    have h2 : ((k : Int) - m.length - 2 * D.hLen - 2).toNat = k - m.length - 2 * D.hLen - 2 := by omega
    simp only [h, h1, if_true, if_false, h2]
    rfl
  · have h1 : (k : Int) - m.length - 2 * D.hLen - 2 < 0 := by omega
    simp [h, h1]

theorem oaepMask_eq_ok {D : Digest} {k : Nat} {seed db em : Bytes} :
    oaepMask D k seed db = .ok em ↔ ∃ dbMask seedMask, mgf1 D seed (k - D.hLen - 1) = .ok dbMask
      ∧ mgf1 D (xorBytes db dbMask) D.hLen = .ok seedMask
      ∧ em = [0x00] ++ xorBytes seed seedMask ++ xorBytes db dbMask := by
  unfold oaepMask
  cases h1 : mgf1 D seed (k - D.hLen - 1) with
  | error e => simp [bind, Except.bind]
  | ok dbMask =>
    simp only [bind, Except.bind]
    cases h2 : mgf1 D (xorBytes db dbMask) D.hLen with
    | error e => simp [h2]
    | ok seedMask => simp [h2, pure, Except.pure, eq_comm]

/-- When encoding succeeds, and what it gives (R150). -/
theorem oaepEncode_eq_ok {D : Digest} {k : Nat} {m l em : Bytes} {src : PadSource} :
    oaepEncode D k m l src = .ok em ↔ m.length + 2 * D.hLen + 2 ≤ k ∧ ∃ seed, oaepSeed D src = .ok seed
      ∧ oaepMask D k seed (oaepDb D k m l) = .ok em := by
  rw [oaepEncode_eq]
  by_cases h : m.length + 2 * D.hLen + 2 ≤ k
  · cases h2 : oaepSeed D src <;> simp [h, Except.bind]
  · simp [h]

theorem oaepSeed_length {D : Digest} {src : PadSource} {seed : Bytes} (h : oaepSeed D src = .ok seed) :
    seed.length = D.hLen := by
  cases src with
  | fixed x =>
    by_cases hx : x.length = D.hLen <;> simp [oaepSeed, hx] at h
    exact h ▸ hx
  | random n => simp [oaepSeed] at h; rw [← h, draw_length]

/-- An encoding has the length asked for and begins with the octet 00 (R150). -/
theorem oaepEncode_shape {D : Digest} {k : Nat} {m l em : Bytes} {src : PadSource}
    (h : oaepEncode D k m l src = .ok em) : em.length = k ∧ ∃ rest, em = 0x00 :: rest := by
  obtain ⟨hk, seed, hs, hm⟩ := oaepEncode_eq_ok.mp h
  obtain ⟨dbMask, seedMask, h1, h2, rfl⟩ := oaepMask_eq_ok.mp hm
  have := mgf1_length h1
  have := mgf1_length h2
  have := oaepSeed_length hs
  have := oaepDb_length l hk
  constructor
  · simp only [List.length_append, xorBytes_length, List.length_singleton]
    omega
  · exact ⟨_, rfl⟩

/-- What follows a run of 00 octets: the first octet that is not 00. -/
theorem findIdx_after_zeros (n : Nat) (v : Byte) (x : Bytes) (hv : v ≠ 0x00) :
    (zeros n ++ v :: x).findIdx? (fun w => decide (w ≠ 0x00)) = some n := by
  induction n with
  | zero => simp only [zeros, List.replicate_zero, List.nil_append, List.findIdx?_cons, decide_eq_true hv, if_true]
  | succ n ih =>
    have e : zeros (n + 1) ++ v :: x = 0x00 :: (zeros n ++ v :: x) := by simp [zeros, List.replicate_succ]
    rw [e, List.findIdx?_cons, ih]
    simp

theorem oaepUnpad_ok {D : Digest} {y : Byte} {db l m : Bytes} (h : oaepUnpad D y db l = .ok m) :
    y = 0x00 ∧ ∃ pad, db = D.hash l ++ zeros pad ++ [0x01] ++ m := by
  unfold oaepUnpad at h
  simp only at h
  split at h
  · cases h
  · next i hi =>
    split at h
    · next hc =>
      obtain ⟨hy, hl, h1⟩ := hc
      refine ⟨hy, i, ?_⟩
      injection h with h
      obtain ⟨hlt, h2, h3⟩ := List.findIdx?_eq_some_iff_getElem.mp hi
      have hz : (db.drop D.hLen).take i = zeros i := by
        apply List.ext_getElem
        · simp only [List.length_take, zeros_length]; omega
        · intro j hj1 hj2
          have := h3 j (by simpa using hj2)
          simpa [zeros] using this
      have hone : (db.drop D.hLen).drop i = 0x01 :: m := by
        rw [List.drop_eq_getElem_cons hlt, h]
        congr 1
        rw [List.getElem?_eq_getElem hlt] at h1
        exact Option.some.inj h1
      calc db = db.take D.hLen ++ db.drop D.hLen := (List.take_append_drop _ _).symm
        _ = D.hash l ++ ((db.drop D.hLen).take i ++ (db.drop D.hLen).drop i) := by rw [hl, List.take_append_drop]
        _ = _ := by rw [hz, hone]; simp
    · cases h

theorem oaepUnpad_of_db (D : Digest) (l m : Bytes) (pad : Nat) :
    oaepUnpad D 0x00 (D.hash l ++ zeros pad ++ [0x01] ++ m) l = .ok m := by
  have e : D.hash l ++ zeros pad ++ [0x01] ++ m = D.hash l ++ (zeros pad ++ 0x01 :: m) := by simp
  have h1 : (D.hash l ++ (zeros pad ++ 0x01 :: m)).take D.hLen = D.hash l := by
    rw [List.take_append_of_le_length (by simp), List.take_of_length_le (by simp)]
  have h2 : (D.hash l ++ (zeros pad ++ 0x01 :: m)).drop D.hLen = zeros pad ++ 0x01 :: m := by
    rw [List.drop_append_of_le_length (by simp), List.drop_eq_nil_of_le (by simp), List.nil_append]
  have h3 : (zeros pad ++ (0x01 : Byte) :: m)[pad]? = some 0x01 := by simp [zeros]
  have h4 : (zeros pad ++ (0x01 : Byte) :: m).drop (pad + 1) = m := by
    rw [List.drop_append]
    simp [zeros]
  rw [e]
  simp only [oaepUnpad, h1, h2, findIdx_after_zeros pad 0x01 m (by decide), h3, h4, and_self, if_true]

/-- Decoding an accepted string gives its message (R152). -/
theorem oaepDecode_of_accepts {D : Digest} {k : Nat} {em l m : Bytes} (h : OaepAccepts D k em l m) :
    oaepDecode D k em l = .ok m := by
  obtain ⟨maskedSeed, maskedDB, seedMask, dbMask, pad, rfl, hs, hl, hk, h1, h2, h3⟩ := h
  have hl' : 1 + D.hLen + maskedDB.length = k := by simpa [hs, Nat.add_comm, Nat.add_assoc, Nat.add_left_comm] using hl
  have e1 : slice ([0x00] ++ maskedSeed ++ maskedDB) 1 (1 + D.hLen) = maskedSeed := by
    have := slice_middle [0x00] maskedSeed maskedDB
    rwa [hs] at this
  have e2 : slice ([0x00] ++ maskedSeed ++ maskedDB) (1 + D.hLen) k = maskedDB := by
    have := slice_middle ([0x00] ++ maskedSeed) maskedDB []
    rw [List.append_nil] at this
    have e : ([0x00] ++ maskedSeed).length = 1 + D.hLen := by simp [hs, Nat.add_comm]
    rwa [e, hl'] at this
  have hc : ¬ (([0x00] ++ maskedSeed ++ maskedDB).length ≠ k ∨ k < 2 * D.hLen + 2) := by
    rintro (h | h)
    · exact h hl
    · omega
  unfold oaepDecode
  rw [if_neg hc]
  simp only [e1, e2, h1, h2, h3]
  exact oaepUnpad_of_db D l m pad

/-- Decoding gives a message only for a string it accepts (R152). -/
theorem oaepAccepts_of_decode {D : Digest} {k : Nat} {em l m : Bytes} (h : oaepDecode D k em l = .ok m) :
    OaepAccepts D k em l m := by
  unfold oaepDecode at h
  split at h
  · cases h
  · next hc =>
    simp only at h
    push Not at hc
    obtain ⟨hl, hk⟩ := hc
    split at h
    · cases h
    · next seedMask h1 =>
      split at h
      · cases h
      · next dbMask h2 =>
        obtain ⟨hy, pad, hdb⟩ := oaepUnpad_ok h
        refine ⟨_, _, seedMask, dbMask, pad, ?_, slice_length _ _ _ (by omega) |>.trans (by omega), hl, hk, h1, h2, hdb⟩
        cases em with
        | nil => simp at hl; omega
        | cons y em =>
          simp only [List.headD_cons] at hy
          subst hy
          simp only [slice, List.cons_append]
          congr 1
          have e1 : ((0x00 :: em).drop 1).take (1 + D.hLen - 1) = em.take D.hLen := by simp
          have e2 : ((0x00 :: em).drop (1 + D.hLen)).take (k - (1 + D.hLen)) = em.drop D.hLen := by
            rw [Nat.add_comm 1, List.drop_succ_cons, List.take_of_length_le]
            simp at hl ⊢; omega
          rw [e1, e2, List.nil_append, List.take_append_drop]

/-- Decoding fails with no other kind than the generic one (R152, 60_exceptions.md R231). -/
theorem oaepDecode_error {D : Digest} {k : Nat} {em l : Bytes} {e : ErrKind} (h : oaepDecode D k em l = .error e) :
    e = .decryptionFailure := by
  unfold oaepDecode oaepUnpad at h
  simp only at h
  repeat' split at h
  all_goals first | (cases h; rfl) | cases h

/-- What encoding gives is accepted, with the message that was encoded (R150, R152). -/
theorem oaepAccepts_of_encode {D : Digest} {k : Nat} {m l em : Bytes} {src : PadSource}
    (h : oaepEncode D k m l src = .ok em) : OaepAccepts D k em l m := by
  have hl := (oaepEncode_shape h).1
  obtain ⟨hk, seed, hs, hm⟩ := oaepEncode_eq_ok.mp h
  obtain ⟨dbMask, seedMask, h1, h2, rfl⟩ := oaepMask_eq_ok.mp hm
  have l1 := mgf1_length h1
  have l2 := mgf1_length h2
  have l3 := oaepSeed_length hs
  have l4 := oaepDb_length l hk
  refine ⟨xorBytes seed seedMask, xorBytes (oaepDb D k m l) dbMask, seedMask, dbMask, _, rfl, ?_, hl, by omega, h2, ?_,
    xorBytes_cancel (by omega)⟩
  · rw [xorBytes_length]; omega
  · rw [xorBytes_cancel (by omega)]; exact h1

end Sys2Proof.Machine
end

