-- ==== Sys2Proof/Laws/Ops.lean ====
section
/-! SUPPORT. What each way of completing leaves, on success and on failure, as one record update
(40_converters_primitives.md R100, 60_exceptions.md R232), and the stage-2 and stage-3 checks. -/

namespace Sys2Proof.Machine

variable (s : State)

/-! ### Success -/

@[simp] theorem finishOut_component_ok (x : Bytes) :
    s.finishOut .component (.ok x) = { s with out := Buffer.ofBytes x, status := doneFlags s false none } := rfl

@[simp] theorem finishOut_scheme_ok (x : Bytes) :
    s.finishOut .scheme (.ok x)
      = { s with out := Buffer.ofBytes x, em := Buffer.empty, xi := 0, status := doneFlags s false none } := rfl

@[simp] theorem finishEm_component_ok (x : Bytes) :
    s.finishEm .component (.ok x) = { s with em := Buffer.ofBytes x, status := doneFlags s false none } := rfl

@[simp] theorem finishXi_ok (x : Nat) :
    s.finishXi (.ok x) = { s with xi := BitVec.ofNat 4096 x, status := doneFlags s false none } := rfl

@[simp] theorem finishVerdict_component_ok (ok : Bool) :
    s.finishVerdict .component (.ok ok) = { s with status := doneFlags s ok (verdictErr ok) } := rfl

@[simp] theorem finishVerdict_scheme_ok (ok : Bool) :
    s.finishVerdict .scheme (.ok ok)
      = { s with em := Buffer.empty, xi := 0, status := doneFlags s ok (verdictErr ok) } := rfl

/-! ### Failure: the state of rule R232 -/

theorem finishOut_error {i : Instr} {l : Layer} (hd : destOf i = some .out) (hl : layerOf i = l) (e : ErrKind) :
    s.finishOut l (.error e) = s.failed i e := by
  subst hl
  cases h : layerOf i <;> simp [State.finishOut, State.finishBuf, State.failed, hd, h] <;> rfl

theorem finishEm_error {i : Instr} (hd : destOf i = some .em) (hl : layerOf i = .component) (e : ErrKind) :
    s.finishEm .component (.error e) = s.failed i e := by
  simp [State.finishEm, State.finishBuf, State.failed, hd, hl]; rfl

theorem finishXi_error {i : Instr} (hd : destOf i = some .xi) (hl : layerOf i = .component) (e : ErrKind) :
    s.finishXi (.error e) = s.failed i e := by
  simp [State.finishXi, State.failed, hd, hl]; rfl

theorem finishVerdict_error {i : Instr} {l : Layer} (hd : destOf i = none) (hl : layerOf i = l) (e : ErrKind) :
    s.finishVerdict l (.error e) = s.failed i e := by
  subst hl
  cases h : layerOf i <;> simp [State.finishVerdict, State.failed, hd, h] <;> rfl

/-- A signature that is not accepted completes as a failure with `InvalidSignature` (60_exceptions.md R239). -/
theorem finishVerdict_reject {i : Instr} {l : Layer} (hd : destOf i = none) (hl : layerOf i = l) :
    s.finishVerdict l (.ok false) = s.failed i .invalidSignature := by
  subst hl
  cases h : layerOf i <;> simp [State.failed, hd, h, verdictErr]

@[simp] theorem drew_zero : s.drew 0 = s := rfl

@[simp] theorem drawsTaken_error (fix : Bool) (e : ErrKind) : drawsTaken fix (.error e) = 0 := by cases fix <;> rfl

@[simp] theorem drawsTaken_ok (fix : Bool) (x : Bytes) : drawsTaken fix (.ok x) = if fix then 0 else 1 := by
  cases fix <;> rfl

/-! ### Checks -/

theorem overCap_eq_false {b : BufName} (h : s.bufLen b ≤ b.cap) : s.overCap b = false := by
  simp [State.overCap, Nat.not_lt.mpr h]

theorem overCap_eq_true {b : BufName} (h : b.cap < s.bufLen b) : s.overCap b = true := by simp [State.overCap, h]

theorem fixOverCap_eq_false {fix : Bool} (h : fix = true → s.bufLen .aux ≤ 512) : s.fixOverCap fix = false := by
  cases fix
  · rfl
  · simpa [State.fixOverCap] using overCap_eq_false s (b := .aux) (h rfl)

theorem fixOverCap_eq_true {fix : Bool} (hf : fix = true) (h : 512 < s.bufLen .aux) : s.fixOverCap fix = true := by
  subst hf
  exact overCap_eq_true s (b := .aux) h

/-- The last clause of a capacity check: a length of at most 512 passes it. -/
theorem capacity_ok {b : Bool} {n : Nat} (hb : b = false) (h : n ≤ 512) :
    ¬ (b || decide (Config.kMax < n)) = true := by
  have : decide (Config.kMax < n) = false := decide_eq_false (Nat.not_lt.mpr h)
  rw [hb, this]
  decide

/-- The last clause of a capacity check: a length above 512 fails it. -/
theorem capacity_fails {b : Bool} {n : Nat} (h : 512 < n) : (b || decide (Config.kMax < n)) = true := by
  have : decide (Config.kMax < n) = true := decide_eq_true h
  rw [this, Bool.or_true]

theorem pubKey_check_zero {k : PubKey} (h : k.n = 0) : k.check = .error .illegalParameter := by simp [PubKey.check, h]

theorem pubKey_check_ok {k : PubKey} (h : k.n ≠ 0) : k.check = .ok k := by simp [PubKey.check, h]

theorem privKey_check_zero {k : PrivKey} (h : k.n = 0) : k.check = .error .illegalParameter := by
  simp [PrivKey.check, h]

/-- The CRT modulus is too wide exactly from `2^4096` on (10_state.md R29). -/
theorem tooWide_crt (p q dp dq qinv : Nat) : (PrivKey.crt p q dp dq qinv).tooWide = true ↔ 2 ^ 4096 ≤ p * q := by
  have h := bitLength_le_iff (p * q) 4096
  rw [← Nat.not_lt, ← h, Nat.not_le]
  exact decide_eq_true_iff

theorem tooWide_eq_false {k : PrivKey} (h : k.n < 2 ^ 4096) : k.tooWide = false := by
  cases k with
  | modulus n d => rfl
  | crt p q dp dq qinv =>
    rw [Bool.eq_false_iff, ne_eq, tooWide_crt]
    exact Nat.not_le.mpr h

theorem privKey_check_ok {k : PrivKey} (h : k.n ≠ 0) (hw : k.n < 2 ^ 4096) : k.check = .ok k := by
  simp [PrivKey.check, h, tooWide_eq_false hw]

/-- A private key whose check succeeds has a non-zero modulus that fits the capacity; the modulus form always fits. -/
theorem privKey_check_eq_ok {k k' : PrivKey} (h : k.check = .ok k') : k' = k ∧ k.n ≠ 0 ∧ k.tooWide = false := by
  unfold PrivKey.check at h
  split at h
  · cases h
  · split at h
    · cases h
    · next h1 h2 => cases h; exact ⟨rfl, h1, by simpa using h2⟩

/-- The private modulus in force fits 4096 bits unless it is a CRT modulus that is too wide (10_state.md R29). -/
theorem privKey_n_lt (h : s.privKey.tooWide = false) : s.privKey.n < 2 ^ 4096 := by
  cases hk : s.cfg.kform with
  | modulus =>
    have := s.keys.pn.isLt
    rw [State.privKey, hk]; exact this
  | crt =>
    rw [State.privKey, hk] at h ⊢
    rw [Bool.eq_false_iff, ne_eq, tooWide_crt] at h
    exact Nat.lt_of_not_le h

end Sys2Proof.Machine
end

