-- ==== Sys2Proof/Laws/Pkcs1.lean ====
section
/-! SUPPORT. The PKCS#1 v1.5 encodings as functions: when each succeeds and what it gives, and that encryption decoding
accepts exactly the encodings (43_pkcs1_encryption.md R170, R172, 45_pkcs1_signature.md R210). -/

namespace Sys2Proof.Machine

/-- A padding string has the length asked for and no octet 00 (R170). -/
theorem p1ePad_ok {n : Nat} {src : PadSource} {ps : Bytes} (h : p1ePad n src = .ok ps) :
    ps.length = n ∧ (0x00 : Byte) ∉ ps := by
  cases src with
  | fixed x =>
    by_cases hc : x.length ≠ n ∨ (0x00 : Byte) ∈ x
    · simp only [p1ePad, if_pos hc] at h; cases h
    · simp only [p1ePad, if_neg hc] at h
      cases h
      push Not at hc
      exact hc
  | random c =>
    cases h
    exact ⟨drawNonzero_length c n, zero_not_mem_drawNonzero c n⟩

/-- When encoding succeeds, and what it gives (R170). -/
theorem p1eEncode_eq_ok {k : Nat} {m em : Bytes} {src : PadSource} :
    p1eEncode k m src = .ok em ↔ m.length + 11 ≤ k ∧ ∃ ps, p1ePad (k - m.length - 3) src = .ok ps
      ∧ em = [0x00, 0x02] ++ ps ++ [0x00] ++ m := by
  unfold p1eEncode
  by_cases h : k < m.length + 11
  · simp [h]
  · cases h2 : p1ePad (k - m.length - 3) src <;>
      simp [h, bind, Except.bind, pure, Except.pure, eq_comm]
    omega

/-- What encoding gives is accepted, with the message that was encoded. -/
theorem p1eAccepts_of_encode {k : Nat} {m em : Bytes} {src : PadSource} (h : p1eEncode k m src = .ok em) :
    P1eAccepts k em m := by
  obtain ⟨hk, ps, hp, rfl⟩ := p1eEncode_eq_ok.mp h
  obtain ⟨hl, h0⟩ := p1ePad_ok hp
  refine ⟨?_, ps, rfl, h0, by omega⟩
  simp [hl]; omega

/-- The first 00 after a string without 00. -/
theorem findIdx_separator (ps m : Bytes) (h : (0x00 : Byte) ∉ ps) :
    (ps ++ 0x00 :: m).findIdx? (fun v => decide (v = 0x00)) = some ps.length := by
  induction ps with
  | nil => simp [List.findIdx?_cons]
  | cons v ps ih =>
    have hv : v ≠ 0x00 := fun e => h (by simp [e])
    rw [List.cons_append, List.findIdx?_cons, ih fun hm => h (List.mem_cons_of_mem _ hm)]
    rw [decide_eq_false hv]
    rfl

/-- Decoding an accepted string gives its message (R172). -/
theorem p1eDecode_of_accepts {k : Nat} {em m : Bytes} (h : P1eAccepts k em m) : p1eDecode k em = .ok m := by
  obtain ⟨hl, ps, rfl, h0, h8⟩ := h
  have hk : ¬ (([0x00, 0x02] ++ ps ++ [0x00] ++ m : Bytes).length ≠ k ∨ k < 11) := by
    rintro (h | h)
    · exact h hl
    · simp at hl; omega
  have e : ([0x00, 0x02] ++ ps ++ [0x00] ++ m : Bytes) = 0x00 :: 0x02 :: (ps ++ 0x00 :: m) := by simp
  have hd : (0x00 :: 0x02 :: (ps ++ (0x00 : Byte) :: m)).drop (2 + ps.length + 1) = m := by
    have : 2 + ps.length + 1 = ps.length + 1 + 2 := by omega
    rw [this, List.drop_succ_cons, List.drop_succ_cons, List.drop_append]
    simp
  unfold p1eDecode
  rw [if_neg hk, e]
  simp only [List.drop_succ_cons, List.drop_zero, findIdx_separator ps m h0]
  rw [if_pos ⟨rfl, rfl, by omega⟩]
  rw [List.drop_succ_cons] at hd
  rw [hd]

/-- Decoding gives a message only for a string it accepts (R172). -/
theorem p1eAccepts_of_decode {k : Nat} {em m : Bytes} (h : p1eDecode k em = .ok m) : P1eAccepts k em m := by
  unfold p1eDecode at h
  split at h
  · cases h
  · next hc =>
    push Not at hc
    split at h
    · cases h
    · next j hj =>
      simp only at h
      split at h
      · next hs =>
        obtain ⟨h1, h2, h8⟩ := hs
        injection h with h
        obtain ⟨hlt, hz, hne⟩ := List.findIdx?_eq_some_iff_getElem.mp hj
        refine ⟨hc.1, (em.drop 2).take j, ?_, ?_, by simp at hlt ⊢; omega⟩
        · match em, h1, h2 with
          | a :: b :: em, h1, h2 =>
            simp only [List.getElem?_cons_zero, List.getElem?_cons_succ, Option.some.injEq] at h1 h2
            subst h1 h2
            simp only [List.drop_succ_cons, List.drop_zero] at hlt hz ⊢
            have hm : em.drop j = 0x00 :: m := by
              rw [List.drop_eq_getElem_cons hlt, ← h, of_decide_eq_true hz]
              congr 1
              have : 2 + j + 1 = j + 1 + 2 := by omega
              rw [this, List.drop_succ_cons, List.drop_succ_cons]
            calc (0x00 :: 0x02 :: em : Bytes) = 0x00 :: 0x02 :: (em.take j ++ em.drop j) := by
                  rw [List.take_append_drop]
              _ = _ := by rw [hm]; simp
        · intro hm
          obtain ⟨i, hi, he⟩ := List.mem_iff_getElem.mp hm
          have := hne i (by simp at hi; omega)
          rw [List.getElem_take] at he
          simp [he] at this
      · cases h

/-- Decoding fails with no other kind than the generic one (60_exceptions.md R231). -/
theorem p1eDecode_error {k : Nat} {em : Bytes} {e : ErrKind} (h : p1eDecode k em = .error e) :
    e = .decryptionFailure := by
  unfold p1eDecode at h
  simp only at h
  repeat' split at h
  all_goals first | (cases h; rfl) | cases h

@[simp] theorem p1sT_length (D : Digest) (m : Bytes) : (p1sT D m).length = D.infoPrefix.length + D.hLen := by
  simp [p1sT]

/-- When signature encoding succeeds, and what it gives (R210). -/
theorem p1sEncode_eq_ok {D : Digest} {m em : Bytes} {n : Nat} :
    p1sEncode D m n = .ok em ↔ D.infoPrefix.length + D.hLen + 11 ≤ n
      ∧ em = [0x00, 0x01] ++ rep 0xFF (n - (D.infoPrefix.length + D.hLen) - 3) ++ [0x00] ++ p1sT D m := by
  unfold p1sEncode
  simp only [p1sT_length]
  split
  · simp; omega
  · simp [eq_comm]; omega

theorem p1sEncode_length {D : Digest} {m em : Bytes} {n : Nat} (h : p1sEncode D m n = .ok em) : em.length = n := by
  obtain ⟨hn, rfl⟩ := p1sEncode_eq_ok.mp h
  simp; omega

end Sys2Proof.Machine
end

