-- ==== Sys2Proof/Laws/Pss.lean ====
section
/-! SUPPORT. PSS as functions: when encoding succeeds and what it gives, and that verification accepts exactly the
encodings (44_pss.md R190, R192, R196). -/

namespace Sys2Proof.Machine

@[simp] theorem clearTop_length (z : Nat) (x : Bytes) : (clearTop z x).length = x.length := by cases x <;> rfl

theorem clearTop_idem (z : Nat) (x : Bytes) : clearTop z (clearTop z x) = clearTop z x := by
  cases x with
  | nil => rfl
  | cons v x => simp [clearTop, BitVec.and_assoc]

/-- Unmasking after the top bits were cleared gives the masked string with its top bits cleared. -/
theorem clearTop_xor_clearTop (z : Nat) (x y : Bytes) :
    clearTop z (xorBytes (clearTop z x) y) = clearTop z (xorBytes x y) := by
  cases x with
  | nil => rfl
  | cons v x =>
    cases y with
    | nil => rfl
    | cons w y =>
      simp only [clearTop, xorBytes, List.zipWith_cons_cons, List.cons.injEq, and_true]
      ext i hi
      simp [Bool.and_xor_distrib_right]

theorem clearTop_eq_self {z : Nat} {x : Bytes} (hx : x ≠ []) :
    clearTop z x = x ↔ x.headD 0 &&& ~~~lowMask z = 0x00 := by
  cases x with
  | nil => exact absurd rfl hx
  | cons v x =>
    simp only [clearTop, List.cons.injEq, and_true, List.headD_cons]
    constructor
    · intro h
      rw [← h, BitVec.and_assoc, BitVec.and_not_self]
      simp
    · intro h
      calc v &&& lowMask z = (v &&& lowMask z) ||| (v &&& ~~~lowMask z) := by rw [h]; simp
        _ = v := by
          ext i hi
          simp only [BitVec.getElem_or, BitVec.getElem_and, BitVec.getElem_not]
          cases v[i] <;> cases (lowMask z)[i] <;> rfl

/-- The salt has the length asked for (R190). -/
theorem pssSalt_length {n : Nat} {src : PadSource} {salt : Bytes} (h : pssSalt n src = .ok salt) : salt.length = n := by
  cases src with
  | fixed x =>
    by_cases hx : x.length = n <;> simp [pssSalt, hx] at h
    exact h ▸ hx
  | random c => simp [pssSalt] at h; rw [← h, draw_length]

theorem pssZ_lt (emBits : Nat) : pssZ emBits < 8 := by
  simp only [pssZ, pssEmLen, ceilDiv]
  omega

/-- The low mask of fewer than 8 bits keeps the lowest bit: the separator 01 survives clearing. -/
theorem clearTop_separator {z : Nat} (hz : z < 8) (n : Nat) (salt : Bytes) :
    clearTop z (zeros n ++ 0x01 :: salt) = zeros n ++ 0x01 :: salt := by
  cases n with
  | zero =>
    simp only [zeros, List.replicate_zero, List.nil_append, clearTop, List.cons.injEq, and_true]
    have : ∀ z : Fin 8, (0x01 : Byte) &&& lowMask z.val = 0x01 := by decide
    exact this ⟨z, hz⟩
  | succ n => simp [zeros, List.replicate_succ, clearTop]

/-- When encoding succeeds, and what it gives (R190). -/
theorem pssEncode_eq_ok {D : Digest} {m em : Bytes} {emBits sLen : Nat} {src : PadSource} :
    pssEncode D m emBits sLen src = .ok em ↔ D.hLen + sLen + 2 ≤ pssEmLen emBits ∧ ∃ salt dbMask,
      pssSalt sLen src = .ok salt
      ∧ mgf1 D (pssHash D (D.hash m) salt) (pssEmLen emBits - D.hLen - 1) = .ok dbMask
      ∧ em = clearTop (pssZ emBits)
          (xorBytes (zeros (pssEmLen emBits - sLen - D.hLen - 2) ++ [0x01] ++ salt) dbMask)
          ++ pssHash D (D.hash m) salt ++ [0xBC] := by
  unfold pssEncode
  by_cases h : pssEmLen emBits < D.hLen + sLen + 2
  · simp only [h, if_true]
    constructor
    · intro h'; cases h'
    · rintro ⟨h', -⟩; omega
  · have h' : D.hLen + sLen + 2 ≤ pssEmLen emBits := by omega
    simp only [h, h', if_false, true_and]
    cases h1 : pssSalt sLen src with
    | error e => simp [bind, Except.bind]
    | ok salt =>
      simp only [bind, Except.bind]
      cases h2 : mgf1 D (pssHash D (D.hash m) salt) (pssEmLen emBits - D.hLen - 1) with
      | error e => simp [h2]
      | ok dbMask => simp [h2, pure, Except.pure, eq_comm]

theorem pssHash_length (D : Digest) (x y : Bytes) : (pssHash D x y).length = D.hLen := hash_length D _

theorem pssEncode_length {D : Digest} {m em : Bytes} {emBits sLen : Nat} {src : PadSource}
    (h : pssEncode D m emBits sLen src = .ok em) : em.length = pssEmLen emBits := by
  obtain ⟨hk, salt, dbMask, hs, hm, rfl⟩ := pssEncode_eq_ok.mp h
  have l1 := mgf1_length hm
  have l2 := pssSalt_length hs
  simp only [List.length_append, clearTop_length, xorBytes_length, zeros_length, List.length_singleton, pssHash_length]
  omega

/-- What encoding gives is accepted (R190, R192). -/
theorem pssAccepts_of_encode {D : Digest} {m em : Bytes} {emBits sLen : Nat} {src : PadSource}
    (h : pssEncode D m emBits sLen src = .ok em) : PssAccepts D m em emBits sLen := by
  have hl := pssEncode_length h
  obtain ⟨hk, salt, dbMask, hs, hm, rfl⟩ := pssEncode_eq_ok.mp h
  have l1 := mgf1_length hm
  have l2 := pssSalt_length hs
  have ld : (zeros (pssEmLen emBits - sLen - D.hLen - 2) ++ [0x01] ++ salt : Bytes).length
      = pssEmLen emBits - D.hLen - 1 := by simp; omega
  refine ⟨_, _, dbMask, salt, rfl, hl, pssHash_length D _ _, l2, hk, clearTop_idem _ _, ?_, ?_, rfl⟩
  · rw [clearTop_length, xorBytes_length, ld, l1, min_self]
    exact hm
  · have e : pssEmLen emBits - sLen - D.hLen - 2 = (emBits + 7) / 8 - D.hLen - sLen - 2 := by
      show (emBits + 7) / 8 - sLen - D.hLen - 2 = _
      omega
    have := clearTop_xor_clearTop (pssZ emBits) (xorBytes (zeros (pssEmLen emBits - sLen - D.hLen - 2) ++ [0x01] ++ salt)
      dbMask) dbMask
    rw [xorBytes_cancel (by omega), e, List.append_assoc, List.singleton_append, clearTop_separator (pssZ_lt emBits)] at this
    rw [e, List.append_assoc, List.singleton_append]
    exact this

/-- Verification accepts an encoding (R192). -/
theorem pssVerify_of_accepts {D : Digest} {m em : Bytes} {emBits sLen : Nat} (h : PssAccepts D m em emBits sLen) :
    pssVerify D m em emBits sLen = true := by
  obtain ⟨maskedDB, hh, dbMask, salt, rfl, hl, h1, h2, hk, hz, hm, hdb, hash⟩ := h
  change _ = pssEmLen emBits at hl
  change D.hLen + sLen + 2 ≤ pssEmLen emBits at hk
  change clearTop (pssZ emBits) _ = _ at hz
  change clearTop (pssZ emBits) _ = zeros (pssEmLen emBits - D.hLen - sLen - 2) ++ [0x01] ++ salt at hdb
  have hlen : maskedDB.length + D.hLen + 1 = pssEmLen emBits := by
    rw [← hl, List.length_append, List.length_append, h1]; rfl
  have e0 : pssEmLen emBits - D.hLen - 1 = maskedDB.length := by omega
  have e1 : slice (maskedDB ++ hh ++ [0xBC]) 0 maskedDB.length = maskedDB := by simp [slice]
  have e2 : slice (maskedDB ++ hh ++ [0xBC]) maskedDB.length (pssEmLen emBits - 1) = hh := by
    have := slice_middle maskedDB hh [0xBC]
    have e : maskedDB.length + hh.length = pssEmLen emBits - 1 := by omega
    rwa [e] at this
  have e3 : (maskedDB ++ hh ++ [0xBC])[pssEmLen emBits - 1]? = some 0xBC := by
    have e : pssEmLen emBits - 1 = (maskedDB ++ hh).length := by rw [List.length_append, h1]; omega
    rw [e, List.getElem?_append_right le_rfl]
    simp
  have hne : maskedDB ≠ [] := by
    intro e
    rw [e] at hlen
    simp at hlen
    omega
  unfold pssVerify
  rw [if_neg (not_not.mpr hl), if_neg (by omega), if_neg (not_not.mpr e3)]
  simp only [e0, e1, e2, not_not.mpr ((clearTop_eq_self hne).mp hz), if_false]
  unfold pssCheckDb
  rw [e0, hm]
  simp only [hdb, Bool.and_eq_true, decide_eq_true_eq]
  refine ⟨⟨?_, ?_⟩, ?_⟩
  · simp [zeros]
  · simp [zeros]
  · rw [List.append_assoc, List.drop_append]
    simpa [pssHash, zeros] using hash

/-- Verification accepts nothing but an encoding (R192). -/
theorem pssAccepts_of_verify {D : Digest} {m em : Bytes} {emBits sLen : Nat} (h : pssVerify D m em emBits sLen = true) :
    PssAccepts D m em emBits sLen := by
  unfold pssVerify at h
  simp only at h
  split at h
  · cases h
  · next hl =>
    split at h
    · cases h
    · next hk =>
      split at h
      · cases h
      · next hbc =>
        split at h
        · cases h
        · next hz =>
          have hl := not_not.mp hl
          have hbc := not_not.mp hbc
          have hz := not_not.mp hz
          have hk : D.hLen + sLen + 2 ≤ pssEmLen emBits := by omega
          have lm : (slice em 0 (pssEmLen emBits - D.hLen - 1)).length = pssEmLen emBits - D.hLen - 1 := by
            rw [slice_length _ _ _ (by omega)]; omega
          have hne : slice em 0 (pssEmLen emBits - D.hLen - 1) ≠ [] := by
            intro e
            rw [e] at lm
            simp at lm
            omega
          unfold pssCheckDb at h
          split at h
          · cases h
          · next dbMask hm =>
            simp only [Bool.and_eq_true, decide_eq_true_eq] at h
            obtain ⟨⟨h1, h2⟩, h3⟩ := h
            generalize hdb : clearTop (pssZ emBits) (xorBytes (slice em 0 (pssEmLen emBits - D.hLen - 1)) dbMask) = db
              at h1 h2 h3
            have ldb : db.length = pssEmLen emBits - D.hLen - 1 := by
              have := mgf1_length hm
              rw [← hdb, clearTop_length, xorBytes_length, lm, this, min_self]
            refine ⟨_, _, dbMask, db.drop (pssEmLen emBits - D.hLen - sLen - 2 + 1), ?_, hl, ?_, ?_, hk,
              (clearTop_eq_self hne).mpr hz, ?_, ?_, h3⟩
            · have e : em.drop (pssEmLen emBits - 1) = [0xBC] := by
                have hlt : pssEmLen emBits - 1 < em.length := by omega
                rw [List.drop_eq_getElem_cons hlt, List.drop_eq_nil_of_le (by omega)]
                rw [List.getElem?_eq_getElem hlt] at hbc
                rw [Option.some.inj hbc]
              simp only [slice, List.drop_zero, Nat.sub_zero]
              calc em = em.take (pssEmLen emBits - 1) ++ em.drop (pssEmLen emBits - 1) := (List.take_append_drop _ _).symm
                _ = _ := by
                  rw [e]
                  congr 1
                  have e' : pssEmLen emBits - 1
                      = (pssEmLen emBits - D.hLen - 1) + (pssEmLen emBits - 1 - (pssEmLen emBits - D.hLen - 1)) := by omega
                  conv_lhs => rw [e', List.take_add]
            · rw [slice_length _ _ _ (by omega)]; omega
            · rw [List.length_drop]; omega
            · rw [lm]; exact hm
            · show clearTop (pssZ emBits) _ = zeros (pssEmLen emBits - D.hLen - sLen - 2) ++ [0x01] ++ _
              rw [hdb, ← h1]
              have hlt : pssEmLen emBits - D.hLen - sLen - 2 < db.length := by omega
              rw [List.getElem?_eq_getElem hlt] at h2
              rw [List.append_assoc, List.singleton_append, ← Option.some.inj h2, ← List.drop_eq_getElem_cons hlt,
                List.take_append_drop]

theorem pssVerify_iff {D : Digest} {m em : Bytes} {emBits sLen : Nat} :
    pssVerify D m em emBits sLen = true ↔ PssAccepts D m em emBits sLen := ⟨pssAccepts_of_verify, pssVerify_of_accepts⟩

end Sys2Proof.Machine
end

