-- ==== Sys2Proof/Laws/Keys.lean ====
section
/-! SUPPORT. Encoded messages are representatives: their values lie below the modulus, so that no encrypt or sign command
reports a range or conversion error (42_oaep.md R154, 43_pkcs1_encryption.md R174, 44_pss.md R194, R196,
45_pkcs1_signature.md R212). -/

namespace Sys2Proof.Machine

/-- A string of `k` octets that begins with 00 has a value below any modulus of `k` octets. -/
theorem os2ip_lt_of_zero_cons {n : Nat} {x : Bytes} (hn : n ≠ 0) (h : (0x00 :: x).length = kOf n) :
    os2ip (0x00 :: x) < n := by
  have h1 := os2ip_lt x
  have h2 := pow_kOf_le hn
  have e : x.length = kOf n - 1 := by simp at h; omega
  rw [os2ip_zero_cons]
  rw [e] at h1
  omega

theorem lowMask_toNat_lt : ∀ z : Fin 8, ∀ v : Byte, (v &&& lowMask z.val).toNat < 2 ^ (8 - z.val) := by decide +kernel

/-- A string with its top `z` bits cleared is a number of `8*length - z` bits. -/
theorem os2ip_clearTop_lt {z : Nat} (hz : z < 8) {x : Bytes} (hx : x ≠ []) (y : Bytes) :
    os2ip (clearTop z x ++ y) < 2 ^ (8 * (x.length + y.length) - z) := by
  cases x with
  | nil => exact absurd rfl hx
  | cons v x =>
    have h1 := lowMask_toNat_lt ⟨z, hz⟩ v
    have h2 := os2ip_lt (x ++ y)
    rw [pow256] at h2
    simp only [clearTop, List.cons_append, os2ip_cons, pow256, List.length_append] at h2 ⊢
    have e : 8 * ((v :: x).length + y.length) - z = (8 - z) + 8 * (x.length + y.length) := by
      simp; omega
    rw [e, pow_add]
    calc _ < ((v &&& lowMask z).toNat + 1) * 2 ^ (8 * (x.length + y.length)) := by rw [add_mul, one_mul]; omega
      _ ≤ _ := Nat.mul_le_mul_right _ h1

/-- A PSS encoding in `emBits` bits is a number of `emBits` bits (44_pss.md R196). -/
theorem pssEncode_value_lt {D : Digest} {m em : Bytes} {emBits sLen : Nat} {src : PadSource}
    (h : pssEncode D m emBits sLen src = .ok em) : os2ip em < 2 ^ emBits := by
  have hl := pssEncode_length h
  obtain ⟨hk, salt, dbMask, hs, hm, rfl⟩ := pssEncode_eq_ok.mp h
  have l1 := mgf1_length hm
  have l2 := pssSalt_length hs
  rw [List.append_assoc] at hl ⊢
  generalize hdb : xorBytes (zeros (pssEmLen emBits - sLen - D.hLen - 2) ++ [0x01] ++ salt) dbMask = db at hl ⊢
  have hne : db ≠ [] := by
    have : db.length ≠ 0 := by
      rw [← hdb, xorBytes_length, l1]
      simp
      omega
    exact fun e => this (by rw [e]; rfl)
  have := os2ip_clearTop_lt (pssZ_lt emBits) hne (pssHash D (D.hash m) salt ++ [0xBC])
  rw [List.length_append, clearTop_length] at hl
  rw [hl] at this
  have e : 8 * pssEmLen emBits - pssZ emBits = emBits := by
    simp only [pssZ, pssEmLen, ceilDiv]
    omega
  rwa [e] at this

theorem oaepEncode_value_lt {D : Digest} {m l em : Bytes} {n : Nat} {src : PadSource} (hn : n ≠ 0)
    (h : oaepEncode D (kOf n) m l src = .ok em) : os2ip em < n := by
  obtain ⟨hl, x, rfl⟩ := oaepEncode_shape h
  exact os2ip_lt_of_zero_cons hn hl

theorem p1eEncode_value_lt {m em : Bytes} {n : Nat} {src : PadSource} (hn : n ≠ 0)
    (h : p1eEncode (kOf n) m src = .ok em) : os2ip em < n := by
  have hl := (p1eAccepts_of_encode h).1
  obtain ⟨-, ps, -, rfl⟩ := p1eEncode_eq_ok.mp h
  exact os2ip_lt_of_zero_cons hn hl

theorem p1sEncode_value_lt {D : Digest} {m em : Bytes} {n : Nat} (hn : n ≠ 0)
    (h : p1sEncode D m (kOf n) = .ok em) : os2ip em < n := by
  have hl := p1sEncode_length h
  obtain ⟨-, rfl⟩ := p1sEncode_eq_ok.mp h
  exact os2ip_lt_of_zero_cons hn hl

theorem pssEncode_value_lt_modulus {D : Digest} {m em : Bytes} {n sLen : Nat} {src : PadSource} (hn : n ≠ 0)
    (h : pssEncode D m (emBitsOf n) sLen src = .ok em) : os2ip em < n :=
  lt_of_lt_of_le (pssEncode_value_lt h) (two_pow_le_of_bitLength hn)

/-- Encrypting a representative gives the octets of `OS2IP(EM)^e mod n`, without error (R154, R174). -/
theorem encryptEm_of_lt {k : PubKey} {em : Bytes} (h : os2ip em < k.n) :
    encryptEm k em = .ok (octetsOf (os2ip em ^ k.e % k.n) (kOf k.n)) := by
  have hlt : os2ip em ^ k.e % k.n < 256 ^ kOf k.n := lt_trans (Nat.mod_lt _ (by omega)) (lt_pow_kOf k.n)
  simp only [encryptEm, rsaPublic_of_lt _ h, bind, Except.bind]
  exact i2osp_of_lt hlt

/-- Signing a representative gives the octets of the private-key operation on it, without error (R194, R212). -/
theorem signEm_of_lt {k : PrivKey} {em : Bytes} (h : os2ip em < k.n) :
    signEm k em = .ok (octetsOf (k.apply (os2ip em)) (kOf k.n)) := by
  have hlt : k.apply (os2ip em) < 256 ^ kOf k.n := lt_trans (k.apply_lt _ (by omega)) (lt_pow_kOf k.n)
  simp only [signEm, rsaPrivate_of_lt _ h, bind, Except.bind]
  exact i2osp_of_lt hlt

/-- Decrypting a ciphertext in range gives the octets of the private-key operation on it (R155, R175). -/
theorem decryptToEm_of_lt {k : PrivKey} {c : Bytes} (h : os2ip c < k.n) :
    decryptToEm k c = .ok (octetsOf (k.apply (os2ip c)) (kOf k.n)) := by
  have hlt : k.apply (os2ip c) < 256 ^ kOf k.n := lt_trans (k.apply_lt _ (by omega)) (lt_pow_kOf k.n)
  simp only [decryptToEm, rsaPrivate_of_lt _ h, bind, Except.bind]
  exact i2osp_of_lt hlt

theorem decryptToEm_of_le {k : PrivKey} {c : Bytes} (h : k.n ≤ os2ip c) :
    decryptToEm k c = .error .representativeOutOfRange := by
  simp [decryptToEm, rsaPrivate_of_le _ h, bind, Except.bind]

end Sys2Proof.Machine
end

