-- ==== Sys2Proof/Laws/Outcomes.lean ====
section
/-! SUPPORT. For the operation behind each command: which error kinds it can answer, and how long its result is at most
(60_exceptions.md R230, 40_converters_primitives.md R100). -/

namespace Sys2Proof.Machine

theorem kMax_eq : Config.kMax = 512 := rfl

/-- The last clause of a capacity check that was passed. -/
theorem le_of_capacity_ok {b : Bool} {n : Nat} (h : ¬ (b || decide (Config.kMax < n)) = true) : n ≤ 512 := by
  rw [Bool.or_eq_true, not_or] at h
  exact Nat.le_of_not_lt fun hlt => h.2 (decide_eq_true hlt)

theorem digest_hLen_pos (s : State) : 0 < s.digest.hLen := hLen_pos _

theorem digest_hLen_le (s : State) : s.digest.hLen ≤ 64 := by
  unfold State.digest
  cases s.cfg.hash <;> decide

theorem pubKey_n_lt (s : State) : s.pubKey.n < 2 ^ (8 * Config.kMax) := s.keys.n.isLt

/-- The key size in octets of the public modulus is at most KMAX (42_oaep.md R154). -/
theorem kOf_pubKey_le (s : State) : kOf s.pubKey.n ≤ Config.kMax := kOf_le_kMax (pubKey_n_lt s)

theorem kOf_privKey_le {s : State} (h : s.privKey.tooWide = false) : kOf s.privKey.n ≤ Config.kMax :=
  kOf_le_kMax (privKey_n_lt s h)

/-! ### Checks -/

theorem pubKey_check_error {k : PubKey} {e : ErrKind} (h : k.check = .error e) : e = .illegalParameter := by
  unfold PubKey.check at h
  split at h <;> cases h
  rfl

theorem pubKey_check_eq_ok {k k' : PubKey} (h : k.check = .ok k') : k' = k ∧ k.n ≠ 0 := by
  unfold PubKey.check at h
  split at h
  · cases h
  · next h0 => cases h; exact ⟨rfl, h0⟩

theorem privKey_check_error {k : PrivKey} {e : ErrKind} (h : k.check = .error e) :
    e = .illegalParameter ∨ e = .capacityExceeded := by
  unfold PrivKey.check at h
  split_ifs at h <;> cases h <;> simp

/-! ### Encoders as functions -/

theorem oaepSeed_error {D : Digest} {src : PadSource} {e : ErrKind} (h : oaepSeed D src = .error e) :
    e = .invalidSeed ∧ ∃ x, src = .fixed x := by
  cases src with
  | random n => cases h
  | fixed x =>
    by_cases hx : x.length ≠ D.hLen
    · simp only [oaepSeed, if_pos hx] at h
      cases h
      exact ⟨rfl, x, rfl⟩
    · simp only [oaepSeed, if_neg hx] at h
      cases h

/-- OAEP encoding in at most `2^32` octets fails only as rule R150 says: MGF1 cannot fail (41_mgf1.md R141). -/
theorem oaepEncode_error {D : Digest} (hpos : 0 < D.hLen) (hle : D.hLen ≤ 2 ^ 32) {k : Nat} (hk : k ≤ 2 ^ 32)
    {m l : Bytes} {src : PadSource} {e : ErrKind} (h : oaepEncode D k m l src = .error e) :
    e = .messageTooLong ∨ (e = .invalidSeed ∧ ∃ x, src = .fixed x) := by
  rw [oaepEncode_eq] at h
  split at h
  · cases hs : oaepSeed D src with
    | error e' =>
      rw [hs] at h
      cases h
      exact .inr (oaepSeed_error hs)
    | ok seed =>
      exfalso
      obtain ⟨dbMask, h1, -⟩ := mgf1_total hpos seed (n := k - D.hLen - 1) (by omega)
      obtain ⟨seedMask, h2, -⟩ := mgf1_total hpos (xorBytes (oaepDb D k m l) dbMask) (n := D.hLen) hle
      rw [hs] at h
      have := oaepMask_eq_ok.mpr ⟨dbMask, seedMask, h1, h2, rfl⟩
      simp only [Except.bind, this] at h
      cases h
  · cases h; exact .inl rfl

theorem p1ePad_error {n : Nat} {src : PadSource} {e : ErrKind} (h : p1ePad n src = .error e) :
    e = .illegalParameter ∧ ∃ x, src = .fixed x := by
  cases src with
  | random c => cases h
  | fixed x =>
    by_cases hx : x.length ≠ n ∨ (0x00 : Byte) ∈ x
    · simp only [p1ePad, if_pos hx] at h
      cases h
      exact ⟨rfl, x, rfl⟩
    · simp only [p1ePad, if_neg hx] at h
      cases h

theorem p1eEncode_error {k : Nat} {m : Bytes} {src : PadSource} {e : ErrKind} (h : p1eEncode k m src = .error e) :
    e = .messageTooLong ∨ (e = .illegalParameter ∧ ∃ x, src = .fixed x) := by
  unfold p1eEncode at h
  split at h
  · cases h; exact .inl rfl
  · cases hp : p1ePad (k - m.length - 3) src with
    | error e' =>
      rw [hp] at h
      cases h
      exact .inr (p1ePad_error hp)
    | ok ps => rw [hp] at h; cases h

theorem pssSalt_error {n : Nat} {src : PadSource} {e : ErrKind} (h : pssSalt n src = .error e) :
    e = .illegalParameter ∧ ∃ x, src = .fixed x := by
  cases src with
  | random c => cases h
  | fixed x =>
    by_cases hx : x.length ≠ n
    · simp only [pssSalt, if_pos hx] at h
      cases h
      exact ⟨rfl, x, rfl⟩
    · simp only [pssSalt, if_neg hx] at h
      cases h

theorem pssEncode_error {D : Digest} (hpos : 0 < D.hLen) {m : Bytes} {emBits sLen : Nat} (hk : pssEmLen emBits ≤ 2 ^ 32)
    {src : PadSource} {e : ErrKind} (h : pssEncode D m emBits sLen src = .error e) :
    e = .encodingError ∨ (e = .illegalParameter ∧ ∃ x, src = .fixed x) := by
  by_cases hc : pssEmLen emBits < D.hLen + sLen + 2
  · simp only [pssEncode, hc, if_true] at h
    cases h; exact .inl rfl
  · cases hs : pssSalt sLen src with
    | error e' =>
      simp only [pssEncode, hc, if_false, hs, bind, Except.bind] at h
      cases h
      exact .inr (pssSalt_error hs)
    | ok salt =>
      exfalso
      obtain ⟨dbMask, h1, -⟩ := mgf1_total hpos (pssHash D (D.hash m) salt) (n := pssEmLen emBits - D.hLen - 1) (by omega)
      have := (pssEncode_eq_ok (m := m) (em := _)).mpr ⟨by omega, salt, dbMask, hs, h1, rfl⟩
      rw [this] at h
      cases h

theorem p1sEncode_error {D : Digest} {m : Bytes} {n : Nat} {e : ErrKind} (h : p1sEncode D m n = .error e) :
    e = .encodingError := by
  unfold p1sEncode at h
  simp only at h
  split at h <;> cases h
  rfl

theorem padSource_fixed {s : State} {fix : Bool} {x : Bytes} (h : s.padSource fix = .fixed x) : fix = true := by
  cases fix
  · cases h
  · rfl

theorem generic_error {r : Except ErrKind Bytes} {e : ErrKind} (h : generic r = .error e) : e = .decryptionFailure := by
  cases r <;> cases h
  rfl

theorem generic_eq_ok {r : Except ErrKind Bytes} {x : Bytes} (h : generic r = .ok x) : r = .ok x := by
  cases r <;> cases h
  rfl

/-! ### The operations of the commands: error kinds -/

section Kinds

variable {s : State} {e : ErrKind} {fix sel : Bool} {len : Nat}

theorem i2ospOp_kinds (h : s.i2ospOp len = .error e) : e ∈ mayReport (.i2osp sel len) := by
  unfold State.i2ospOp i2osp at h
  split_ifs at h <;> cases h <;> simp [mayReport]

theorem os2ipOp_kinds {b : BufName} (h : s.os2ipOp b = .error e) : e ∈ mayReport (.os2ip sel) := by
  unfold State.os2ipOp at h
  split at h <;> cases h
  simp [mayReport]

theorem publicOp_kinds {kind : ErrKind} (h : s.publicOp kind = .error e) : e = .illegalParameter ∨ e = kind := by
  unfold State.publicOp at h
  cases hk : s.pubKey.check with
  | error e' => rw [hk] at h; cases h; exact .inl (pubKey_check_error hk)
  | ok k =>
    simp only [hk, bind, Except.bind] at h
    rcases Nat.lt_or_ge s.xi.toNat k.n with hlt | hge
    · rw [rsaPublic_of_lt kind hlt] at h; cases h
    · rw [rsaPublic_of_le kind hge] at h; cases h; exact .inr rfl

theorem privateOp_kinds {kind : ErrKind} (h : s.privateOp kind = .error e) :
    e = .illegalParameter ∨ e = .capacityExceeded ∨ e = kind := by
  unfold State.privateOp at h
  cases hk : s.privKey.check with
  | error e' =>
    rw [hk] at h; cases h
    rcases privKey_check_error hk with rfl | rfl <;> simp
  | ok k =>
    simp only [hk, bind, Except.bind] at h
    rcases Nat.lt_or_ge s.xi.toNat k.n with hlt | hge
    · rw [rsaPrivate_of_lt kind hlt] at h; cases h
    · rw [rsaPrivate_of_le kind hge] at h; cases h; simp

theorem cmpemOp_kinds (h : s.cmpemOp = .error e) : e = .capacityExceeded := by
  unfold State.cmpemOp at h
  split at h <;> cases h
  rfl

theorem mgf1Op_kinds (h : s.mgf1Op len = .error e) : e ∈ mayReport (.mgf1 len) := by
  unfold State.mgf1Op at h
  split at h
  · cases h; simp [mayReport]
  · next hc =>
    exfalso
    have : len ≤ 512 := le_of_capacity_ok hc
    obtain ⟨x, hx, -⟩ := mgf1_total (digest_hLen_pos s) (s.val .aux) (n := len) (by omega)
    rw [hx] at h
    cases h

theorem oaepEncOp_kinds (h : s.oaepEncOp fix len = .error e) : e ∈ mayReport (.oaepEnc fix len) := by
  unfold State.oaepEncOp at h
  split at h
  · cases h; simp [mayReport]
  · next hc =>
    have hl : len ≤ 512 := le_of_capacity_ok hc
    rcases oaepEncode_error (digest_hLen_pos s) (by have := digest_hLen_le s; omega) (by omega) h with rfl | ⟨rfl, x, hx⟩
    · simp [mayReport]
    · simp [mayReport, padSource_fixed hx]

theorem oaepDecOp_kinds (h : s.oaepDecOp len = .error e) : e ∈ mayReport (.oaepDec len) := by
  unfold State.oaepDecOp at h
  split at h
  · cases h; simp [mayReport]
  · rw [oaepDecode_error h]; simp [mayReport]

theorem oaepEncryptOp_kinds (h : s.oaepEncryptOp fix = .error e) : e ∈ mayReport (.oaepEncrypt fix) := by
  unfold State.oaepEncryptOp at h
  split at h
  · cases h; simp [mayReport]
  · cases hk : s.pubKey.check with
    | error e' => rw [hk] at h; cases h; rw [pubKey_check_error hk]; simp [mayReport]
    | ok k =>
      obtain ⟨rfl, hn⟩ := pubKey_check_eq_ok hk
      simp only [hk, bind, Except.bind] at h
      cases he : oaepEncode s.digest (kOf s.pubKey.n) (s.val .msg) (s.val .lbl) (s.padSource fix) with
      | error e' =>
        simp only [he] at h; cases h
        have hle := kOf_pubKey_le s
        rw [kMax_eq] at hle
        rcases oaepEncode_error (digest_hLen_pos s) (by have := digest_hLen_le s; omega) (by omega) he
          with rfl | ⟨rfl, x, hx⟩
        · simp [mayReport]
        · simp [mayReport, padSource_fixed hx]
      | ok em =>
        simp only [he, encryptEm_of_lt (oaepEncode_value_lt hn he)] at h
        cases h

theorem oaepDecryptOp_kinds (h : s.oaepDecryptOp = .error e) : e ∈ mayReport .oaepDecrypt := by
  unfold State.oaepDecryptOp at h
  split at h
  · cases h; simp [mayReport]
  · cases hk : s.privKey.check with
    | error e' => rw [hk] at h; cases h; rcases privKey_check_error hk with rfl | rfl <;> simp [mayReport]
    | ok k => rw [hk] at h; rw [generic_error h]; simp [mayReport]

theorem p1eEncOp_kinds (h : s.p1eEncOp fix len = .error e) : e ∈ mayReport (.p1eEnc fix len) := by
  unfold State.p1eEncOp at h
  split at h
  · cases h; simp [mayReport]
  · rcases p1eEncode_error h with rfl | ⟨rfl, x, hx⟩
    · simp [mayReport]
    · simp [mayReport, padSource_fixed hx]

theorem p1eDecOp_kinds (h : s.p1eDecOp len = .error e) : e ∈ mayReport (.p1eDec len) := by
  unfold State.p1eDecOp at h
  split at h
  · cases h; simp [mayReport]
  · rw [p1eDecode_error h]; simp [mayReport]

theorem pkcs1EncryptOp_kinds (h : s.pkcs1EncryptOp fix = .error e) : e ∈ mayReport (.pkcs1Encrypt fix) := by
  unfold State.pkcs1EncryptOp at h
  split at h
  · cases h; simp [mayReport]
  · cases hk : s.pubKey.check with
    | error e' => rw [hk] at h; cases h; rw [pubKey_check_error hk]; simp [mayReport]
    | ok k =>
      obtain ⟨rfl, hn⟩ := pubKey_check_eq_ok hk
      simp only [hk, bind, Except.bind] at h
      cases he : p1eEncode (kOf s.pubKey.n) (s.val .msg) (s.padSource fix) with
      | error e' =>
        simp only [he] at h; cases h
        rcases p1eEncode_error he with rfl | ⟨rfl, -⟩ <;> simp [mayReport]
      | ok em =>
        simp only [he, encryptEm_of_lt (p1eEncode_value_lt hn he)] at h
        cases h

theorem pkcs1DecryptOp_kinds (h : s.pkcs1DecryptOp = .error e) : e ∈ mayReport .pkcs1Decrypt := by
  unfold State.pkcs1DecryptOp at h
  split at h
  · cases h; simp [mayReport]
  · cases hk : s.privKey.check with
    | error e' => rw [hk] at h; cases h; rcases privKey_check_error hk with rfl | rfl <;> simp [mayReport]
    | ok k => rw [hk] at h; rw [generic_error h]; simp [mayReport]

theorem pssEncOp_kinds (h : s.pssEncOp fix len = .error e) : e ∈ mayReport (.pssEnc fix len) := by
  unfold State.pssEncOp at h
  split at h
  · cases h; simp [mayReport]
  · next hc =>
    have hl : pssEmLen len ≤ 512 := le_of_capacity_ok hc
    rcases pssEncode_error (digest_hLen_pos s) (by omega) h with rfl | ⟨rfl, x, hx⟩
    · simp [mayReport]
    · simp [mayReport, padSource_fixed hx]

theorem pssVfyOp_kinds (h : s.pssVfyOp len = .error e) : e = .capacityExceeded := by
  unfold State.pssVfyOp at h
  split at h <;> cases h
  rfl

theorem pssEmLen_le_kOf (n : Nat) : pssEmLen (emBitsOf n) ≤ kOf n := by
  simp only [pssEmLen, emBitsOf, kOf, ceilDiv]
  omega

theorem pssSignOp_kinds (h : s.pssSignOp fix = .error e) : e ∈ mayReport (.pssSign fix) := by
  unfold State.pssSignOp at h
  split at h
  · cases h; simp [mayReport]
  · cases hk : s.privKey.check with
    | error e' => rw [hk] at h; cases h; rcases privKey_check_error hk with rfl | rfl <;> simp [mayReport]
    | ok k =>
      obtain ⟨rfl, hn, hw⟩ := privKey_check_eq_ok hk
      simp only [hk, bind, Except.bind] at h
      cases he : pssEncode s.digest (s.val .msg) (emBitsOf s.privKey.n) s.saltLen (s.padSource fix) with
      | error e' =>
        simp only [he] at h; cases h
        have h1 := kOf_privKey_le hw
        have h2 := pssEmLen_le_kOf s.privKey.n
        rw [kMax_eq] at h1
        rcases pssEncode_error (digest_hLen_pos s) (by omega) he with rfl | ⟨rfl, -⟩ <;> simp [mayReport]
      | ok em =>
        simp only [he, signEm_of_lt (pssEncode_value_lt_modulus hn he)] at h
        cases h

theorem pssVerifyOp_kinds (h : s.pssVerifyOp = .error e) : e = .capacityExceeded ∨ e = .illegalParameter := by
  unfold State.pssVerifyOp at h
  split at h
  · cases h; exact .inl rfl
  · cases hk : s.pubKey.check with
    | error e' => rw [hk] at h; cases h; exact .inr (pubKey_check_error hk)
    | ok k => rw [hk] at h; cases h

theorem p1sEncOp_kinds (h : s.p1sEncOp len = .error e) : e ∈ mayReport (.p1sEnc len) := by
  unfold State.p1sEncOp at h
  split at h
  · cases h; simp [mayReport]
  · rw [p1sEncode_error h]; simp [mayReport]

theorem pkcs1SignOp_kinds (h : s.pkcs1SignOp = .error e) : e ∈ mayReport .pkcs1Sign := by
  unfold State.pkcs1SignOp at h
  split at h
  · cases h; simp [mayReport]
  · cases hk : s.privKey.check with
    | error e' => rw [hk] at h; cases h; rcases privKey_check_error hk with rfl | rfl <;> simp [mayReport]
    | ok k =>
      obtain ⟨rfl, hn, hw⟩ := privKey_check_eq_ok hk
      simp only [hk, bind, Except.bind] at h
      cases he : p1sEncode s.digest (s.val .msg) (kOf s.privKey.n) with
      | error e' => simp only [he] at h; cases h; rw [p1sEncode_error he]; simp [mayReport]
      | ok em =>
        simp only [he, signEm_of_lt (p1sEncode_value_lt hn he)] at h
        cases h

theorem pkcs1VerifyOp_kinds (h : s.pkcs1VerifyOp = .error e) : e = .capacityExceeded ∨ e = .illegalParameter := by
  unfold State.pkcs1VerifyOp at h
  split at h
  · cases h; exact .inl rfl
  · cases hk : s.pubKey.check with
    | error e' => rw [hk] at h; cases h; exact .inr (pubKey_check_error hk)
    | ok k => rw [hk] at h; cases h

end Kinds

/-! ### The operations of the commands: lengths of results -/

section Lengths

variable {s : State} {x : Bytes} {fix : Bool} {len : Nat}

theorem i2ospOp_length (h : s.i2ospOp len = .ok x) : x.length ≤ 512 := by
  unfold State.i2ospOp at h
  split at h
  · cases h
  · next hc =>
    obtain ⟨-, rfl⟩ := i2osp_eq_ok.mp h
    rw [octetsOf_length]
    exact Nat.le_of_not_lt hc

theorem mgf1Op_length (h : s.mgf1Op len = .ok x) : x.length ≤ 512 := by
  unfold State.mgf1Op at h
  split at h
  · cases h
  · next hc =>
    rw [mgf1_length h]
    exact le_of_capacity_ok hc

theorem oaepEncOp_length (h : s.oaepEncOp fix len = .ok x) : x.length ≤ 512 := by
  unfold State.oaepEncOp at h
  split at h
  · cases h
  · next hc =>
    rw [(oaepEncode_shape h).1]
    exact le_of_capacity_ok hc

theorem oaepAccepts_length {D : Digest} {k : Nat} {em l m : Bytes} (h : OaepAccepts D k em l m) : m.length ≤ k := by
  obtain ⟨maskedSeed, maskedDB, seedMask, dbMask, pad, rfl, -, hl, -, -, -, hx⟩ := h
  have h1 := congrArg List.length hx
  simp only [xorBytes_length, List.length_append, List.length_singleton] at h1 hl
  omega

theorem oaepDecOp_length (h : s.oaepDecOp len = .ok x) : x.length ≤ 512 := by
  unfold State.oaepDecOp at h
  split at h
  · cases h
  · next hc =>
    exact le_trans (oaepAccepts_length (oaepAccepts_of_decode h)) (le_of_capacity_ok hc)

theorem encryptEm_length {k : PubKey} {em : Bytes} (h : encryptEm k em = .ok x) : x.length = kOf k.n := by
  unfold encryptEm at h
  cases hr : rsaPublic k (os2ip em) .representativeOutOfRange with
  | error e => rw [hr] at h; cases h
  | ok c =>
    simp only [hr, bind, Except.bind] at h
    rw [(i2osp_eq_ok.mp h).2, octetsOf_length]

theorem signEm_length {k : PrivKey} {em : Bytes} (h : signEm k em = .ok x) : x.length = kOf k.n := by
  unfold signEm at h
  cases hr : rsaPrivate k (os2ip em) .signatureOutOfRange with
  | error e => rw [hr] at h; cases h
  | ok c =>
    simp only [hr, bind, Except.bind] at h
    rw [(i2osp_eq_ok.mp h).2, octetsOf_length]

theorem oaepEncryptOp_eq_ok (h : s.oaepEncryptOp fix = .ok x) : s.pubKey.n ≠ 0 ∧ ∃ em,
    oaepEncode s.digest (kOf s.pubKey.n) (s.val .msg) (s.val .lbl) (s.padSource fix) = .ok em
      ∧ encryptEm s.pubKey em = .ok x := by
  unfold State.oaepEncryptOp at h
  split at h
  · cases h
  · cases hk : s.pubKey.check with
    | error e' => rw [hk] at h; cases h
    | ok k =>
      obtain ⟨rfl, hn⟩ := pubKey_check_eq_ok hk
      simp only [hk, bind, Except.bind] at h
      cases he : oaepEncode s.digest (kOf s.pubKey.n) (s.val .msg) (s.val .lbl) (s.padSource fix) with
      | error e' => simp only [he] at h; cases h
      | ok em => simp only [he] at h; exact ⟨hn, em, rfl, h⟩

theorem pkcs1EncryptOp_eq_ok (h : s.pkcs1EncryptOp fix = .ok x) : s.pubKey.n ≠ 0 ∧ ∃ em,
    p1eEncode (kOf s.pubKey.n) (s.val .msg) (s.padSource fix) = .ok em ∧ encryptEm s.pubKey em = .ok x := by
  unfold State.pkcs1EncryptOp at h
  split at h
  · cases h
  · cases hk : s.pubKey.check with
    | error e' => rw [hk] at h; cases h
    | ok k =>
      obtain ⟨rfl, hn⟩ := pubKey_check_eq_ok hk
      simp only [hk, bind, Except.bind] at h
      cases he : p1eEncode (kOf s.pubKey.n) (s.val .msg) (s.padSource fix) with
      | error e' => simp only [he] at h; cases h
      | ok em => simp only [he] at h; exact ⟨hn, em, rfl, h⟩

theorem pssSignOp_eq_ok (h : s.pssSignOp fix = .ok x) : s.privKey.n ≠ 0 ∧ s.privKey.tooWide = false ∧ ∃ em,
    pssEncode s.digest (s.val .msg) (emBitsOf s.privKey.n) s.saltLen (s.padSource fix) = .ok em
      ∧ signEm s.privKey em = .ok x := by
  unfold State.pssSignOp at h
  split at h
  · cases h
  · cases hk : s.privKey.check with
    | error e' => rw [hk] at h; cases h
    | ok k =>
      obtain ⟨rfl, hn, hw⟩ := privKey_check_eq_ok hk
      simp only [hk, bind, Except.bind] at h
      cases he : pssEncode s.digest (s.val .msg) (emBitsOf s.privKey.n) s.saltLen (s.padSource fix) with
      | error e' => simp only [he] at h; cases h
      | ok em => simp only [he] at h; exact ⟨hn, hw, em, rfl, h⟩

theorem pkcs1SignOp_eq_ok (h : s.pkcs1SignOp = .ok x) : s.privKey.n ≠ 0 ∧ s.privKey.tooWide = false ∧ ∃ em,
    p1sEncode s.digest (s.val .msg) (kOf s.privKey.n) = .ok em ∧ signEm s.privKey em = .ok x := by
  unfold State.pkcs1SignOp at h
  split at h
  · cases h
  · cases hk : s.privKey.check with
    | error e' => rw [hk] at h; cases h
    | ok k =>
      obtain ⟨rfl, hn, hw⟩ := privKey_check_eq_ok hk
      simp only [hk, bind, Except.bind] at h
      cases he : p1sEncode s.digest (s.val .msg) (kOf s.privKey.n) with
      | error e' => simp only [he] at h; cases h
      | ok em => simp only [he] at h; exact ⟨hn, hw, em, rfl, h⟩

theorem oaepEncryptOp_length (h : s.oaepEncryptOp fix = .ok x) : x.length ≤ 512 := by
  obtain ⟨-, em, -, he⟩ := oaepEncryptOp_eq_ok h
  rw [encryptEm_length he]
  exact kOf_pubKey_le s

theorem pkcs1EncryptOp_length (h : s.pkcs1EncryptOp fix = .ok x) : x.length ≤ 512 := by
  obtain ⟨-, em, -, he⟩ := pkcs1EncryptOp_eq_ok h
  rw [encryptEm_length he]
  exact kOf_pubKey_le s

theorem pssSignOp_length (h : s.pssSignOp fix = .ok x) : x.length ≤ 512 := by
  obtain ⟨-, hw, em, -, he⟩ := pssSignOp_eq_ok h
  rw [signEm_length he]
  exact kOf_privKey_le hw

theorem pkcs1SignOp_length (h : s.pkcs1SignOp = .ok x) : x.length ≤ 512 := by
  obtain ⟨-, hw, em, -, he⟩ := pkcs1SignOp_eq_ok h
  rw [signEm_length he]
  exact kOf_privKey_le hw

/-- What a decryption gives comes from an accepted encoded message of the key's size (42_oaep.md R155). -/
theorem oaepDecryptOp_eq_ok (h : s.oaepDecryptOp = .ok x) : s.privKey.n ≠ 0 ∧ s.privKey.tooWide = false ∧
    s.bufLen .msg = kOf s.privKey.n ∧ ∃ em, decryptToEm s.privKey (s.val .msg) = .ok em
      ∧ oaepDecode s.digest (kOf s.privKey.n) em (s.val .lbl) = .ok x := by
  unfold State.oaepDecryptOp at h
  split at h
  · cases h
  · cases hk : s.privKey.check with
    | error e' => rw [hk] at h; cases h
    | ok k =>
      obtain ⟨rfl, hn, hw⟩ := privKey_check_eq_ok hk
      simp only [hk, bind, Except.bind] at h
      have h := generic_eq_ok h
      unfold oaepDecryptCore at h
      simp only at h
      split at h
      · cases h
      · next hc =>
        push Not at hc
        cases he : decryptToEm s.privKey (s.val .msg) with
        | error e' => rw [he] at h; cases h
        | ok em =>
          simp only [he, bind, Except.bind] at h
          exact ⟨hn, hw, (State.val_length s .msg).symm.trans hc.1, em, rfl, h⟩

theorem pkcs1DecryptOp_eq_ok (h : s.pkcs1DecryptOp = .ok x) : s.privKey.n ≠ 0 ∧ s.privKey.tooWide = false ∧
    s.bufLen .msg = kOf s.privKey.n ∧ ∃ em, decryptToEm s.privKey (s.val .msg) = .ok em
      ∧ p1eDecode (kOf s.privKey.n) em = .ok x := by
  unfold State.pkcs1DecryptOp at h
  split at h
  · cases h
  · cases hk : s.privKey.check with
    | error e' => rw [hk] at h; cases h
    | ok k =>
      obtain ⟨rfl, hn, hw⟩ := privKey_check_eq_ok hk
      simp only [hk, bind, Except.bind] at h
      have h := generic_eq_ok h
      unfold pkcs1DecryptCore at h
      simp only at h
      split at h
      · cases h
      · next hc =>
        push Not at hc
        cases he : decryptToEm s.privKey (s.val .msg) with
        | error e' => rw [he] at h; cases h
        | ok em =>
          simp only [he, bind, Except.bind] at h
          exact ⟨hn, hw, (State.val_length s .msg).symm.trans hc.1, em, rfl, h⟩

theorem oaepDecryptOp_length (h : s.oaepDecryptOp = .ok x) : x.length ≤ 512 := by
  obtain ⟨-, hw, -, em, -, hd⟩ := oaepDecryptOp_eq_ok h
  exact le_trans (oaepAccepts_length (oaepAccepts_of_decode hd)) (kOf_privKey_le hw)

theorem p1eAccepts_length {k : Nat} {em m : Bytes} (h : P1eAccepts k em m) : m.length ≤ k := by
  obtain ⟨hl, ps, rfl, -⟩ := h
  simp only [List.length_append] at hl
  omega

theorem pkcs1DecryptOp_length (h : s.pkcs1DecryptOp = .ok x) : x.length ≤ 512 := by
  obtain ⟨-, hw, -, em, -, hd⟩ := pkcs1DecryptOp_eq_ok h
  exact le_trans (p1eAccepts_length (p1eAccepts_of_decode hd)) (kOf_privKey_le hw)

theorem p1eEncOp_length (h : s.p1eEncOp fix len = .ok x) : x.length ≤ 512 := by
  unfold State.p1eEncOp at h
  split at h
  · cases h
  · next hc =>
    rw [(p1eAccepts_of_encode h).1]
    exact le_of_capacity_ok hc

theorem p1eDecOp_length (h : s.p1eDecOp len = .ok x) : x.length ≤ 512 := by
  unfold State.p1eDecOp at h
  split at h
  · cases h
  · next hc =>
    exact le_trans (p1eAccepts_length (p1eAccepts_of_decode h)) (le_of_capacity_ok hc)

theorem pssEncOp_length (h : s.pssEncOp fix len = .ok x) : x.length ≤ 512 := by
  unfold State.pssEncOp at h
  split at h
  · cases h
  · next hc =>
    rw [pssEncode_length h]
    exact le_of_capacity_ok hc

theorem p1sEncOp_length (h : s.p1sEncOp len = .ok x) : x.length ≤ 512 := by
  unfold State.p1sEncOp at h
  split at h
  · cases h
  · next hc =>
    rw [p1sEncode_length h]
    exact le_of_capacity_ok hc

end Lengths

/-! ### When the encoders succeed -/

section Total

variable {s : State} {fix : Bool}

/-- The seed of a command: the supplied one, of the right length, or the next draw (42_oaep.md R150 step 4). -/
theorem oaepSeed_padSource (hf : fix = true → s.bufLen .aux = s.digest.hLen) :
    oaepSeed s.digest (s.padSource fix) = .ok (if fix then s.val .aux else Config.draw s.draws s.digest.hLen) := by
  cases fix with
  | false => rfl
  | true =>
    have := hf rfl
    simp only [State.padSource, oaepSeed, if_true]
    rw [if_neg (by simp [this])]

/-- The salt of a command (44_pss.md R190 step 3). -/
theorem pssSalt_padSource (hf : fix = true → s.bufLen .aux = s.slen.toNat) :
    pssSalt s.slen.toNat (s.padSource fix) = .ok (if fix then s.val .aux else Config.draw s.draws s.slen.toNat) := by
  cases fix with
  | false => rfl
  | true =>
    have := hf rfl
    simp only [State.padSource, pssSalt, if_true]
    rw [if_neg (by simp [this])]

/-- OAEP encoding of a message that fits succeeds, for every seed of the right length (42_oaep.md R150). -/
theorem oaepEncode_total {D : Digest} (hpos : 0 < D.hLen) (hle : D.hLen ≤ 2 ^ 32) {k : Nat} (hk : k ≤ 2 ^ 32)
    {m seed : Bytes} (l : Bytes) {src : PadSource} (hs : oaepSeed D src = .ok seed)
    (hm : m.length + 2 * D.hLen + 2 ≤ k) :
    ∃ dbMask seedMask, mgf1 D seed (k - D.hLen - 1) = .ok dbMask
      ∧ mgf1 D (xorBytes (oaepDb D k m l) dbMask) D.hLen = .ok seedMask
      ∧ oaepEncode D k m l src
        = .ok ([0x00] ++ xorBytes seed seedMask ++ xorBytes (oaepDb D k m l) dbMask) := by
  obtain ⟨dbMask, h1, -⟩ := mgf1_total hpos seed (n := k - D.hLen - 1) (by omega)
  obtain ⟨seedMask, h2, -⟩ := mgf1_total hpos (xorBytes (oaepDb D k m l) dbMask) hle
  exact ⟨dbMask, seedMask, h1, h2,
    oaepEncode_eq_ok.mpr ⟨hm, seed, hs, oaepMask_eq_ok.mpr ⟨dbMask, seedMask, h1, h2, rfl⟩⟩⟩

/-- PSS encoding in enough bits succeeds, for every salt of the right length (44_pss.md R190). -/
theorem pssEncode_total {D : Digest} (hpos : 0 < D.hLen) {m salt : Bytes} {emBits sLen : Nat} {src : PadSource}
    (hk : pssEmLen emBits ≤ 2 ^ 32) (hs : pssSalt sLen src = .ok salt) (hm : D.hLen + sLen + 2 ≤ pssEmLen emBits) :
    ∃ dbMask, mgf1 D (pssHash D (D.hash m) salt) (pssEmLen emBits - D.hLen - 1) = .ok dbMask
      ∧ pssEncode D m emBits sLen src = .ok (clearTop (pssZ emBits)
        (xorBytes (zeros (pssEmLen emBits - sLen - D.hLen - 2) ++ [0x01] ++ salt) dbMask)
          ++ pssHash D (D.hash m) salt ++ [0xBC]) := by
  obtain ⟨dbMask, h1, -⟩ := mgf1_total hpos (pssHash D (D.hash m) salt) (n := pssEmLen emBits - D.hLen - 1) (by omega)
  exact ⟨dbMask, h1, pssEncode_eq_ok.mpr ⟨hm, salt, dbMask, hs, h1, rfl⟩⟩

end Total

end Sys2Proof.Machine
end

