-- ==== Sys2Proof/Laws/Exec.lean ====
section
/-! SUPPORT. Everything a command can do, said once (`exec_cases`), from which the whole-machine rules follow; the
schedule and the answers play no part in a command; runs of several steps. -/

namespace Sys2Proof.Machine

theorem next_inj {s t : State} (h : (Host.Outcome.next s : Host.Outcome State Fault Refusal) = .next t) : s = t := by
  injection h

/-- What a completion can be: a failure of a listed kind (60_exceptions.md R232), a result in OUT, EM or XI, a positive
verdict, or CLEAR. The layer says whether EM and XI are discarded (40_converters_primitives.md R100). -/
inductive Completes (i : Instr) (s t : State) : Prop
  | failure (e : ErrKind) (kind : e ∈ mayReport i) (eq : t = s.failed i e)
  | out (x : Bytes) (n : Nat) (len : x.length ≤ 512) (pv : producesValid i = false) (dest : destOf i = some .out)
    (layer : layerOf i = .component)
    (eq : t = { s with out := Buffer.ofBytes x, status := doneFlags s false none, draws := n })
  | schemeOut (x : Bytes) (n : Nat) (len : x.length ≤ 512) (pv : producesValid i = false) (dest : destOf i = some .out)
    (layer : layerOf i = .scheme)
    (eq : t = { s with
      out := Buffer.ofBytes x, em := Buffer.empty, xi := 0, status := doneFlags s false none, draws := n })
  | em (x : Bytes) (n : Nat) (len : x.length ≤ 512) (pv : producesValid i = false) (dest : destOf i = some .em)
    (layer : layerOf i = .component)
    (eq : t = { s with em := Buffer.ofBytes x, status := doneFlags s false none, draws := n })
  | xi (x : BigWord) (pv : producesValid i = false) (dest : destOf i = some .xi) (layer : layerOf i = .component)
    (eq : t = { s with xi := x, status := doneFlags s false none })
  | accept (pv : producesValid i = true) (layer : layerOf i = .component)
    (eq : t = { s with status := doneFlags s true none })
  | schemeAccept (pv : producesValid i = true) (layer : layerOf i = .scheme)
    (eq : t = { s with em := Buffer.empty, xi := 0, status := doneFlags s true none })
  | clear (sel : Bool) (instr : i = .clear sel)
    (eq : t = { s with
      msg := Buffer.empty, lbl := Buffer.empty, aux := Buffer.empty, em := Buffer.empty, out := Buffer.empty, xi := 0
      keys := if sel then Keys.zero else s.keys, status := doneFlags s false none })

section Finish

variable {i : Instr} {s t : State}

theorem completes_out {l : Layer} {r : Except ErrKind Bytes} {n : Nat} (hd : destOf i = some .out) (hl : layerOf i = l)
    (hp : producesValid i = false) (hk : ∀ e, r = .error e → e ∈ mayReport i) (hx : ∀ x, r = .ok x → x.length ≤ 512)
    (hn : ∀ e, r = .error e → n = 0) (h : (s.finishOut l r).drew n = t) : Completes i s t := by
  cases r with
  | error e => exact .failure e (hk e rfl) (by rw [← h, finishOut_error s hd hl, hn e rfl]; rfl)
  | ok x =>
    cases l with
    | component => exact .out x (s.draws + n) (hx x rfl) hp hd hl (by rw [← h]; rfl)
    | scheme => exact .schemeOut x (s.draws + n) (hx x rfl) hp hd hl (by rw [← h]; rfl)

theorem completes_em {r : Except ErrKind Bytes} {n : Nat} (hd : destOf i = some .em) (hl : layerOf i = .component)
    (hp : producesValid i = false) (hk : ∀ e, r = .error e → e ∈ mayReport i) (hx : ∀ x, r = .ok x → x.length ≤ 512)
    (hn : ∀ e, r = .error e → n = 0) (h : (s.finishEm .component r).drew n = t) : Completes i s t := by
  cases r with
  | error e => exact .failure e (hk e rfl) (by rw [← h, finishEm_error s hd hl, hn e rfl]; rfl)
  | ok x => exact .em x (s.draws + n) (hx x rfl) hp hd hl (by rw [← h]; rfl)

theorem completes_xi {r : Except ErrKind Nat} (hd : destOf i = some .xi) (hl : layerOf i = .component)
    (hp : producesValid i = false) (hk : ∀ e, r = .error e → e ∈ mayReport i) (h : s.finishXi r = t) :
    Completes i s t := by
  cases r with
  | error e => exact .failure e (hk e rfl) (by rw [← h, finishXi_error s hd hl])
  | ok x => exact .xi _ hp hd hl (by rw [← h]; rfl)

theorem completes_verdict {l : Layer} {r : Except ErrKind Bool} (hd : destOf i = none) (hl : layerOf i = l)
    (hp : producesValid i = true) (hk : ∀ e, r = .error e → e ∈ mayReport i) (hi : .invalidSignature ∈ mayReport i)
    (h : s.finishVerdict l r = t) : Completes i s t := by
  cases r with
  | error e => exact .failure e (hk e rfl) (by rw [← h, finishVerdict_error s hd hl])
  | ok ok =>
    cases ok with
    | false => exact .failure _ hi (by rw [← h, finishVerdict_reject s hd hl])
    | true =>
      cases l with
      | component => exact .accept hp hl (by rw [← h]; rfl)
      | scheme => exact .schemeAccept hp hl (by rw [← h]; rfl)

theorem draws_error (fix : Bool) (r : Except ErrKind Bytes) (e : ErrKind) (h : r = .error e) : drawsTaken fix r = 0 := by
  rw [h, drawsTaken_error]

theorem no_draws (r : Except ErrKind Bytes) (e : ErrKind) : r = .error e → 0 = 0 := fun _ => rfl

end Finish

/-- Everything a command can do. -/
theorem exec_cases {i : Instr} {s t : State} (h : exec i s = .next t) : Completes i s t := by
  cases i <;> replace h := next_inj h
  case clear sel => exact .clear sel rfl (by rw [← h]; cases sel <;> rfl)
  case i2osp sel len =>
    cases sel with
    | false => exact completes_out rfl rfl rfl (fun _ => i2ospOp_kinds) (fun _ => i2ospOp_length) (no_draws _) h
    | true => exact completes_em rfl rfl rfl (fun _ => i2ospOp_kinds) (fun _ => i2ospOp_length) (no_draws _) h
  case os2ip sel => exact completes_xi rfl rfl rfl (fun _ => os2ipOp_kinds) h
  case rsaep => exact completes_xi rfl rfl rfl (fun _ he => by simpa [mayReport] using publicOp_kinds he) h
  case rsadp => exact completes_xi rfl rfl rfl (fun _ he => by simpa [mayReport] using privateOp_kinds he) h
  case rsasp1 => exact completes_xi rfl rfl rfl (fun _ he => by simpa [mayReport] using privateOp_kinds he) h
  case rsavp1 => exact completes_xi rfl rfl rfl (fun _ he => by simpa [mayReport] using publicOp_kinds he) h
  case cmpem =>
    exact completes_verdict rfl rfl rfl (fun _ he => by simp [mayReport, cmpemOp_kinds he]) (by simp [mayReport]) h
  case mgf1 len => exact completes_out rfl rfl rfl (fun _ => mgf1Op_kinds) (fun _ => mgf1Op_length) (no_draws _) h
  case oaepEnc fix len =>
    exact completes_em rfl rfl rfl (fun _ => oaepEncOp_kinds) (fun _ => oaepEncOp_length) (draws_error fix _) h
  case oaepDec len => exact completes_out rfl rfl rfl (fun _ => oaepDecOp_kinds) (fun _ => oaepDecOp_length) (no_draws _) h
  case oaepEncrypt fix =>
    exact completes_out rfl rfl rfl (fun _ => oaepEncryptOp_kinds) (fun _ => oaepEncryptOp_length) (draws_error fix _) h
  case oaepDecrypt =>
    exact completes_out rfl rfl rfl (fun _ => oaepDecryptOp_kinds) (fun _ => oaepDecryptOp_length) (no_draws _) h
  case p1eEnc fix len =>
    exact completes_em rfl rfl rfl (fun _ => p1eEncOp_kinds) (fun _ => p1eEncOp_length) (draws_error fix _) h
  case p1eDec len => exact completes_out rfl rfl rfl (fun _ => p1eDecOp_kinds) (fun _ => p1eDecOp_length) (no_draws _) h
  case pkcs1Encrypt fix =>
    exact completes_out rfl rfl rfl (fun _ => pkcs1EncryptOp_kinds) (fun _ => pkcs1EncryptOp_length) (draws_error fix _) h
  case pkcs1Decrypt =>
    exact completes_out rfl rfl rfl (fun _ => pkcs1DecryptOp_kinds) (fun _ => pkcs1DecryptOp_length) (no_draws _) h
  case pssEnc fix len =>
    exact completes_em rfl rfl rfl (fun _ => pssEncOp_kinds) (fun _ => pssEncOp_length) (draws_error fix _) h
  case pssVfy len =>
    exact completes_verdict rfl rfl rfl (fun _ he => by simp [mayReport, pssVfyOp_kinds he]) (by simp [mayReport]) h
  case pssSign fix =>
    exact completes_out rfl rfl rfl (fun _ => pssSignOp_kinds) (fun _ => pssSignOp_length) (draws_error fix _) h
  case pssVerify =>
    exact completes_verdict rfl rfl rfl (fun _ he => by rcases pssVerifyOp_kinds he with rfl | rfl <;> simp [mayReport])
      (by simp [mayReport]) h
  case p1sEnc len => exact completes_em rfl rfl rfl (fun _ => p1sEncOp_kinds) (fun _ => p1sEncOp_length) (no_draws _) h
  case pkcs1Sign =>
    exact completes_out rfl rfl rfl (fun _ => pkcs1SignOp_kinds) (fun _ => pkcs1SignOp_length) (no_draws _) h
  case pkcs1Verify =>
    exact completes_verdict rfl rfl rfl
      (fun _ he => by rcases pkcs1VerifyOp_kinds he with rfl | rfl <;> simp [mayReport]) (by simp [mayReport]) h

/-! ### The schedule and the answers play no part -/

/-- The state with another schedule and other answers. -/
def State.withHost (s : State) (sc : List Turn) (rs : List Response) : State := { s with script := sc, responses := rs }

section Host

variable (s : State) (sc : List Turn) (rs : List Response)

theorem finishOut_withHost (l : Layer) (r : Except ErrKind Bytes) :
    (s.withHost sc rs).finishOut l r = (s.finishOut l r).withHost sc rs := by cases r <;> cases l <;> rfl

theorem finishEm_withHost (l : Layer) (r : Except ErrKind Bytes) :
    (s.withHost sc rs).finishEm l r = (s.finishEm l r).withHost sc rs := by cases r <;> cases l <;> rfl

theorem finishXi_withHost (r : Except ErrKind Nat) : (s.withHost sc rs).finishXi r = (s.finishXi r).withHost sc rs := by
  cases r <;> rfl

theorem finishVerdict_withHost (l : Layer) (r : Except ErrKind Bool) :
    (s.withHost sc rs).finishVerdict l r = (s.finishVerdict l r).withHost sc rs := by cases r <;> cases l <;> rfl

theorem finishOut_drew_withHost (l : Layer) (r : Except ErrKind Bytes) (n : Nat) :
    ((s.withHost sc rs).finishOut l r).drew n = ((s.finishOut l r).drew n).withHost sc rs := by
  rw [finishOut_withHost]; rfl

theorem finishEm_drew_withHost (l : Layer) (r : Except ErrKind Bytes) (n : Nat) :
    ((s.withHost sc rs).finishEm l r).drew n = ((s.finishEm l r).drew n).withHost sc rs := by
  rw [finishEm_withHost]; rfl

end Host

theorem exec_withHost {i : Instr} {s t : State} (sc : List Turn) (rs : List Response) (h : exec i s = .next t) :
    exec i (s.withHost sc rs) = .next (t.withHost sc rs) := by
  cases i <;> (have h := next_inj h; subst h)
  case clear sel => cases sel <;> rfl
  case i2osp sel len =>
    cases sel with
    | false => exact congrArg _ (finishOut_withHost s sc rs .component (s.i2ospOp len))
    | true => exact congrArg _ (finishEm_withHost s sc rs .component (s.i2ospOp len))
  case os2ip sel => cases sel <;> exact congrArg _ (finishXi_withHost s sc rs (s.os2ipOp _))
  case rsaep => exact congrArg _ (finishXi_withHost s sc rs (s.publicOp _))
  case rsadp => exact congrArg _ (finishXi_withHost s sc rs (s.privateOp _))
  case rsasp1 => exact congrArg _ (finishXi_withHost s sc rs (s.privateOp _))
  case rsavp1 => exact congrArg _ (finishXi_withHost s sc rs (s.publicOp _))
  case cmpem => exact congrArg _ (finishVerdict_withHost s sc rs .component s.cmpemOp)
  case mgf1 len => exact congrArg _ (finishOut_withHost s sc rs .component (s.mgf1Op len))
  case oaepEnc fix len =>
    exact congrArg _ (finishEm_drew_withHost s sc rs .component (s.oaepEncOp fix len) (drawsTaken fix (s.oaepEncOp fix len)))
  case oaepDec len => exact congrArg _ (finishOut_withHost s sc rs .component (s.oaepDecOp len))
  case oaepEncrypt fix =>
    exact congrArg _ (finishOut_drew_withHost s sc rs .scheme (s.oaepEncryptOp fix) (drawsTaken fix (s.oaepEncryptOp fix)))
  case oaepDecrypt => exact congrArg _ (finishOut_withHost s sc rs .scheme s.oaepDecryptOp)
  case p1eEnc fix len =>
    exact congrArg _ (finishEm_drew_withHost s sc rs .component (s.p1eEncOp fix len) (drawsTaken fix (s.p1eEncOp fix len)))
  case p1eDec len => exact congrArg _ (finishOut_withHost s sc rs .component (s.p1eDecOp len))
  case pkcs1Encrypt fix =>
    exact congrArg _ (finishOut_drew_withHost s sc rs .scheme (s.pkcs1EncryptOp fix) (drawsTaken fix (s.pkcs1EncryptOp fix)))
  case pkcs1Decrypt => exact congrArg _ (finishOut_withHost s sc rs .scheme s.pkcs1DecryptOp)
  case pssEnc fix len =>
    exact congrArg _ (finishEm_drew_withHost s sc rs .component (s.pssEncOp fix len) (drawsTaken fix (s.pssEncOp fix len)))
  case pssVfy len => exact congrArg _ (finishVerdict_withHost s sc rs .component (s.pssVfyOp len))
  case pssSign fix =>
    exact congrArg _ (finishOut_drew_withHost s sc rs .scheme (s.pssSignOp fix) (drawsTaken fix (s.pssSignOp fix)))
  case pssVerify => exact congrArg _ (finishVerdict_withHost s sc rs .scheme s.pssVerifyOp)
  case p1sEnc len => exact congrArg _ (finishEm_withHost s sc rs .component (s.p1sEncOp len))
  case pkcs1Sign => exact congrArg _ (finishOut_withHost s sc rs .scheme s.pkcs1SignOp)
  case pkcs1Verify => exact congrArg _ (finishVerdict_withHost s sc rs .scheme s.pkcs1VerifyOp)

/-! ### CLEAR.S and reset -/

/-- R260: `CLEAR.S` and then writes of CFG and SLEN with their reset values reach the reset state, from every state, but for
HZD, CMDL and DONE, which V-CNV-26 reads as 1 after `CLEAR.S` (log 22); the model's own fields stay. -/
theorem clear_s_and_config_writes_reach_reset {s t : State} (h : exec (.clear true) s = .next t) :
    ((t.perform (.write .w32 0x0008 State.reset.cfg.word)).1.perform (.write .w32 0x000C State.reset.slen)).1
      = { State.reset with
          cmdl := s.cmdl, status := { State.reset.status with done := true, hzd := s.status.hzd }
          draws := s.draws, script := s.script, responses := s.responses } := by
  obtain rfl := next_inj h
  rfl

/-! ### Runs -/

theorem run_succ (M : Host.Core) (k : Nat) (s s' : M.State) (h : M.step s = .next s') :
    M.run (k + 1) s = M.run k s' := by
  simp only [Host.Core.run, h]

end Sys2Proof.Machine
end

