-- ==== Sys2Proof/Laws/PerInstr.lean ====
section
/-! SUPPORT. Statements made per command: `Layout` says that a command is rebuilt from its own fields and that its word
holds each field in the place of rule R81 (30_encoding.md R81 to R84, R88). -/

namespace Sys2Proof.Laws.Layout

/-- The fields of a command and of its word (30_encoding.md R81, R83, R84). -/
def Statement (i : Instr) : Prop :=
  i.opcode.build i.fix i.sel i.len = i ∧ Field.opc (encode i) = i.opcode.code ∧ Field.rsv (encode i) = 0
    ∧ Field.fix (encode i) = i.fix ∧ Field.sel (encode i) = i.sel ∧ (i.wellFormed = true → Field.len (encode i) = i.len)

/-- The statement for any command. -/
theorem holds (i : Instr) : Statement i := by
  have e : encode i = fieldsWord i.opcode.code i.fix i.sel 0 (BitVec.ofNat 16 i.len) := commandWord_eq_append _ _ _ _
  refine ⟨Opcode.build_self i, ?_, ?_, ?_, ?_, fun h => ?_⟩
  · rw [e, Field.opc_fieldsWord]
  · rw [e, Field.rsv_fieldsWord]
  · rw [e, Field.fix_fieldsWord]
  · rw [e, Field.sel_fieldsWord]
  · rw [e, Field.len_fieldsWord, BitVec.toNat_ofNat]
    exact Nat.mod_eq_of_lt (of_decide_eq_true h)

theorem clear (sel : Bool) : Statement (.clear sel) := holds _

theorem i2osp (sel : Bool) (len : Nat) : Statement (.i2osp sel len) := holds _

theorem os2ip (sel : Bool) : Statement (.os2ip sel) := holds _

theorem rsaep : Statement (.rsaep) := holds _

theorem rsadp : Statement (.rsadp) := holds _

theorem rsasp1 : Statement (.rsasp1) := holds _

theorem rsavp1 : Statement (.rsavp1) := holds _

theorem cmpem : Statement (.cmpem) := holds _

theorem mgf1 (len : Nat) : Statement (.mgf1 len) := holds _

theorem oaepEnc (fix : Bool) (len : Nat) : Statement (.oaepEnc fix len) := holds _

theorem oaepDec (len : Nat) : Statement (.oaepDec len) := holds _

theorem oaepEncrypt (fix : Bool) : Statement (.oaepEncrypt fix) := holds _

theorem oaepDecrypt : Statement (.oaepDecrypt) := holds _

theorem p1eEnc (fix : Bool) (len : Nat) : Statement (.p1eEnc fix len) := holds _

theorem p1eDec (len : Nat) : Statement (.p1eDec len) := holds _

theorem pkcs1Encrypt (fix : Bool) : Statement (.pkcs1Encrypt fix) := holds _

theorem pkcs1Decrypt : Statement (.pkcs1Decrypt) := holds _

theorem pssEnc (fix : Bool) (len : Nat) : Statement (.pssEnc fix len) := holds _

theorem pssVfy (len : Nat) : Statement (.pssVfy len) := holds _

theorem pssSign (fix : Bool) : Statement (.pssSign fix) := holds _

theorem pssVerify : Statement (.pssVerify) := holds _

theorem p1sEnc (len : Nat) : Statement (.p1sEnc len) := holds _

theorem pkcs1Sign : Statement (.pkcs1Sign) := holds _

theorem pkcs1Verify : Statement (.pkcs1Verify) := holds _

end Sys2Proof.Laws.Layout
end

