-- ==== Sys2Proof/Laws/Rsa.lean ====
section
/-! SUPPORT. The number theory of RSA: exponents that are 1 modulo `lcm(p-1, q-1)` do nothing modulo `p*q`
(40_converters_primitives.md R119). -/

namespace Sys2Proof.Machine

/-- An exponent that is 1 modulo `p - 1` does nothing modulo the prime `p`, also on multiples of `p`. -/
theorem pow_modEq_self {p x m : Nat} (hp : p.Prime) (h : m % (p - 1) = 1 % (p - 1)) (hm : 0 < m) :
    x ^ m ≡ x [MOD p] := by
  by_cases hx : p ∣ x
  · have h1 : x ≡ 0 [MOD p] := Nat.modEq_zero_iff_dvd.mpr hx
    have h2 : x ^ m ≡ 0 [MOD p] := Nat.modEq_zero_iff_dvd.mpr (dvd_pow hx (by omega))
    exact h2.trans h1.symm
  · have hc : Nat.Coprime x p := ((Nat.Prime.coprime_iff_not_dvd hp).mpr hx).symm
    obtain ⟨k, hk⟩ : (p - 1) ∣ m - 1 := (Nat.modEq_iff_dvd' hm).mp (show 1 ≡ m [MOD p - 1] from h.symm)
    have hm' : m = (p - 1) * k + 1 := by omega
    have := Nat.ModEq.pow_totient hc
    rw [Nat.totient_prime hp] at this
    rw [hm', pow_add, pow_mul, pow_one]
    simpa using (this.pow k).mul_right x

/-- The exponent of a prime's part of a private key may be reduced modulo `p - 1`, unless it reduces to 0. -/
theorem pow_mod_sub_one {p c d : Nat} (hp : p.Prime) (h : d % (p - 1) ≠ 0) : c ^ (d % (p - 1)) ≡ c ^ d [MOD p] := by
  by_cases hx : p ∣ c
  · have h1 : c ^ (d % (p - 1)) ≡ 0 [MOD p] := Nat.modEq_zero_iff_dvd.mpr (dvd_pow hx h)
    have h2 : c ^ d ≡ 0 [MOD p] := Nat.modEq_zero_iff_dvd.mpr (dvd_pow hx (by rintro rfl; simp at h))
    exact h1.trans h2.symm
  · have hc : Nat.Coprime c p := ((Nat.Prime.coprime_iff_not_dvd hp).mpr hx).symm
    have := Nat.ModEq.pow_totient hc
    rw [Nat.totient_prime hp] at this
    conv_rhs => rw [← Nat.div_add_mod d (p - 1), pow_add, pow_mul]
    simpa using ((this.pow (d / (p - 1))).mul_right (c ^ (d % (p - 1)))).symm

/-- The exponents of a key pair undo each other modulo `n` (R119). -/
theorem pow_mul_modEq_self {p q e d x : Nat} (hp : p.Prime) (hq : q.Prime) (hne : p ≠ q)
    (h : e * d % Nat.lcm (p - 1) (q - 1) = 1) : x ^ (e * d) ≡ x [MOD p * q] := by
  have hpos : 0 < e * d := by
    rcases Nat.eq_zero_or_pos (e * d) with h0 | h0
    · rw [h0] at h; simp at h
    · exact h0
  have hmp : e * d % (p - 1) = 1 % (p - 1) := by
    rw [← Nat.mod_mod_of_dvd _ (Nat.dvd_lcm_left (p - 1) (q - 1)), h]
  have hmq : e * d % (q - 1) = 1 % (q - 1) := by
    rw [← Nat.mod_mod_of_dvd _ (Nat.dvd_lcm_right (p - 1) (q - 1)), h]
  exact (Nat.modEq_and_modEq_iff_modEq_mul ((Nat.coprime_primes hp hq).mpr hne)).mp
    ⟨pow_modEq_self hp hmp hpos, pow_modEq_self hq hmq hpos⟩

end Sys2Proof.Machine
end

