-- ==== Sys2Proof/Tests/Slice0.lean ====
section
/-! SUPPORT. The tests of the first slice. Expected values come from 95_test_vectors.md (each test names its vector) or
from the rule a comment names; none is the model's own answer. Part 4 gives, for every obligation with hypotheses,
concrete states and operands that meet them. -/

open Sys2Proof Sys2Proof.Machine

namespace Sys2Proof.Tests

set_option maxRecDepth 100000
set_option exponentiation.threshold 5000

/-! ### 1. Well-formedness and decoding (95_test_vectors.md 2.1) -/

/-- `LEN` has 16 bits (R83): 65535 is the last legal value. -/
theorem test_wellFormed_len :
    (Instr.mgf1 65535).wellFormed = true ∧ (Instr.mgf1 65536).wellFormed = false
      ∧ (Instr.i2osp true 65536).wellFormed = false ∧ (Instr.oaepEnc true 65536).wellFormed = false
      ∧ (Instr.oaepDec 65536).wellFormed = false ∧ (Instr.p1eEnc false 65536).wellFormed = false
      ∧ (Instr.p1eDec 65536).wellFormed = false ∧ (Instr.pssEnc true 65536).wellFormed = false
      ∧ (Instr.pssVfy 65536).wellFormed = false ∧ (Instr.p1sEnc 65536).wellFormed = false := by decide

theorem test_decode_converters :
    decode 0x00000001 = .ok (.clear false) ∧ decode 0x00000201 = .ok (.clear true)
      ∧ decode 0x00040010 = .ok (.i2osp false 4) ∧ decode 0x00800210 = .ok (.i2osp true 128)
      ∧ decode 0x00000010 = .ok (.i2osp false 0) ∧ decode 0x00000011 = .ok (.os2ip false)
      ∧ decode 0x00000211 = .ok (.os2ip true) ∧ decode 0x00000012 = .ok .rsaep ∧ decode 0x00000013 = .ok .rsadp
      ∧ decode 0x00000014 = .ok .rsasp1 ∧ decode 0x00000015 = .ok .rsavp1 ∧ decode 0x00000016 = .ok .cmpem := by decide

theorem test_decode_mgf1_oaep :
    decode 0x00280020 = .ok (.mgf1 40) ∧ decode 0x00800130 = .ok (.oaepEnc true 128)
      ∧ decode 0x00800030 = .ok (.oaepEnc false 128) ∧ decode 0xFFFF0030 = .ok (.oaepEnc false 65535)
      ∧ decode 0x00800031 = .ok (.oaepDec 128) ∧ decode 0x00000132 = .ok (.oaepEncrypt true)
      ∧ decode 0x00000032 = .ok (.oaepEncrypt false) ∧ decode 0x00000033 = .ok .oaepDecrypt := by decide

theorem test_decode_pkcs1_encryption :
    decode 0x000C0140 = .ok (.p1eEnc true 12) ∧ decode 0x000C0041 = .ok (.p1eDec 12)
      ∧ decode 0x00000142 = .ok (.pkcs1Encrypt true) ∧ decode 0x00000043 = .ok .pkcs1Decrypt := by decide

theorem test_decode_signatures :
    decode 0x03FF0150 = .ok (.pssEnc true 1023) ∧ decode 0x03FF0051 = .ok (.pssVfy 1023)
      ∧ decode 0x00000152 = .ok (.pssSign true) ∧ decode 0x00000053 = .ok .pssVerify
      ∧ decode 0x00800060 = .ok (.p1sEnc 128) ∧ decode 0x00000062 = .ok .pkcs1Sign
      ∧ decode 0x00000063 = .ok .pkcs1Verify := by decide

theorem test_decode_illegal :
    decode 0x00000101 = .error .fixNotUsed ∧ decode 0x00000110 = .error .fixNotUsed
      ∧ decode 0x00010011 = .error .lenNotUsed ∧ decode 0x00000212 = .error .selNotUsed
      ∧ decode 0x00000412 = .error .reservedBits ∧ decode 0x00008012 = .error .reservedBits
      ∧ decode 0x00800330 = .error .selNotUsed ∧ decode 0x00800131 = .error .fixNotUsed
      ∧ decode 0x00000061 = .error .unassignedOpcode ∧ decode 0x00000162 = .error .fixNotUsed
      ∧ decode 0x00000000 = .error .unassignedOpcode ∧ decode 0xFFFFFFFF = .error .unassignedOpcode
      ∧ decode 0x00000002 = .error .unassignedOpcode := by decide

/-- No two rows of the opcode table share a word: where both masks look, the two patterns differ (R84, R85). -/
theorem test_rows_disjoint : Opcode.all.Pairwise fun a b =>
    a.matchWord &&& (a.maskWord &&& b.maskWord) ≠ b.matchWord &&& (a.maskWord &&& b.maskWord) := by decide

/-- The assembler lines of R88. -/
theorem test_assembler :
    (AsmLine.mk .oaepEnc true false (some 128)).word = some 0x00800130
      ∧ (AsmLine.mk .clear false true none).word = some 0x00000201
      ∧ (AsmLine.mk .os2ip false false (some 1)).word = none ∧ (AsmLine.mk .mgf1 false false none).word = none
      ∧ (AsmLine.mk .mgf1 false false (some 65536)).word = none := by decide

/-! ### 2. One command each, on the vectors that use no digest (95_test_vectors.md 2.2 to 2.4, 2.7) -/

/-- The state after one step in which a word is launched. -/
def after (w : Nat) (s : State) : Option State :=
  match step (s.withFetchWord 32 w) with
  | .next t => some t
  | .fault _ | .refused _ => none

/-- STATUS after one step in which a word is launched. -/
def statusAfter (w : Nat) (s : State) : Option Word := (after w s).map fun t => t.status.word

/-- A reset machine with XI set. -/
def withXi (x : BigWord) : State := { State.reset with xi := x }

/-- A reset machine with EM loaded. -/
def withEm (x : Bytes) : State := { State.reset with em := Buffer.ofBytes x }

/-- Key K12 in both forms, XI set. -/
def k12 (kf : KeyForm) (x : BigWord) : State :=
  { withXi x with cfg := ⟨.sha224, kf⟩, keys := ⟨3233, 17, 3233, 2753, 61, 53, 53, 49, 38⟩ }

/-- Every row of the opcode table as the first command after reset: key-free commands by their rules, the others with a
zero modulus, IllegalParameter (R100 stage 3). -/
theorem test_first_step :
    ([0x01, 0x10, 0x11, 0x12, 0x13, 0x14, 0x15, 0x16, 0x20, 0x30, 0x31, 0x32].map fun w => statusAfter w State.reset)
        = [2, 2, 2, 0x102, 0x102, 0x102, 0x102, 6, 2, 0x202, 0x302, 0x102].map some
      ∧ ([0x33, 0x40, 0x41, 0x42, 0x43, 0x50, 0x51, 0x52, 0x53, 0x60, 0x62, 0x63].map fun w => statusAfter w State.reset)
        = [0x102, 0x202, 0x302, 0x102, 0x102, 0xA02, 0x402, 0x102, 0x102, 0xA02, 0x102, 0x102].map some := by
  decide +kernel

/-- V-MEM-1 to V-MEM-4: lanes, limbs, reserved bits, bus errors. -/
theorem test_bus :
    (State.reset.perform (.write .w32 0x2400 0xAAFF0200)).1.em.data = [(1, 0x02), (2, 0xFF), (3, 0xAA)]
      ∧ ((State.reset.perform (.write .w32 0x2804 1)).1.xi, (State.reset.perform (.write .w32 0x2800 5)).1.xi)
        = (0x100000000, 5)
      ∧ ((State.reset.perform (.write .w32 0x0008 0xFFFFFFFF)).1.perform (.read .w32 0x0008)).2 = .data 0x103
      ∧ (State.reset.perform (.write .w32 0x0004 0xFFFFFFF7)).1 = State.reset
      ∧ (State.reset.perform (.read .w8 0x1000)).2 = .busError ∧ (State.reset.perform (.write .w16 0x0008 1)).2 = .busError
      ∧ (State.reset.perform (.write .w32 0x1001 0)).2 = .busError ∧ (State.reset.perform (.read .w32 0xFFFC)).2 = .busError
      ∧ (State.reset.perform (.read .w32 0x41FC)).2 = .data 0 := by decide +kernel

/-- V-MEM-6: the launch clears DONE and ERR at once; R42: a write while busy is dropped and sets HZD. -/
theorem test_launch :
    (({ State.reset with status := ⟨false, true, false, false, some .invalidSignature⟩ } : State).perform
        (.write .w32 0x0000 1)).1.status.word = 1
      ∧ ((State.reset.launch 1).perform (.write .w32 0x2800 7)).1 = { State.reset.launch 1 with
          status := ⟨true, false, false, true, none⟩ } := by decide +kernel

/-- Section 2.1: an illegal word changes nothing but CMDL and STATUS. -/
theorem test_illegal_word :
    after 0x61 { withEm [0, 1, 0xff] with xi := 7 }
      = some { withEm [0, 1, 0xff] with xi := 7, cmdl := 0x61, status := ⟨false, true, false, false, some .illegalCommand⟩ } := by
  decide +kernel

/-- V-CNV-25, V-CNV-26. -/
theorem test_clear :
    after 0x00000201 { k12 .crt 5 with em := ⟨[(0, 7)], 128⟩, slen := 9, cfg := ⟨.sha256, .crt⟩, status := ⟨false, false, false, true, none⟩ }
      = some { State.reset with cmdl := 0x201, slen := 9, cfg := ⟨.sha256, .crt⟩, status := ⟨false, true, false, true, none⟩ }
    ∧ (after 0x00000001 { k12 .crt 5 with em := ⟨[(0, 7)], 128⟩ }).map (fun t => (t.keys.n, t.em, t.xi))
      = some (3233, Buffer.empty, 0) := by decide +kernel

/-- V-CNV-1, V-CNV-3, V-CNV-5, V-CNV-7, V-CNV-10. -/
theorem test_i2osp :
    (after 0x00040010 (withXi 0x0102)).map (fun t => (t.val .out, t.status.word, t.xi)) = some ([0, 0, 1, 2], 2, 0x0102)
      ∧ (after 0x00010010 { withXi 0x0102 with out := Buffer.ofBytes [0xaa, 0xbb] }).map (fun t => (t.out, t.status.word))
        = some (⟨[], 0⟩, 0x502)
      ∧ statusAfter 0x00000010 (withXi 1) = some 0x502 ∧ statusAfter 0x00010010 (withXi 256) = some 0x502
      ∧ statusAfter 0x02010010 (withXi 1) = some 0xC02 := by decide +kernel

/-- V-CNV-11: all of EM is replaced, OUT is not. -/
theorem test_i2osp_sel :
    (after 0x00030210 { withXi 0x0102 with em := Buffer.ofBytes (rep 0xee 512) }).map (fun t => (t.em, t.out))
      = some (⟨[(1, 1), (2, 2)], 3⟩, Buffer.empty) := by decide +kernel

/-- V-CNV-12, V-CNV-14, V-CNV-17. -/
theorem test_os2ip :
    (after 0x00000011 (withEm [0, 0, 1, 2])).map (fun t => (t.xi, t.em)) = some (258, Buffer.ofBytes [0, 0, 1, 2])
      ∧ (after 0x00000011 { State.reset with em := ⟨[(2, 1), (3, 2)], 2⟩, xi := 9 }).map (fun t => t.xi) = some 0
      ∧ (after 0x00000011 { State.reset with em := ⟨[], 513⟩, xi := 9 }).map (fun t => (t.xi, t.status.word))
        = some (0, 0xC02) := by decide +kernel

/-- V-CNV-15, V-CNV-16. -/
theorem test_os2ip_sel :
    (after 0x00000211 { State.reset with msg := Buffer.ofBytes [0x0a, 0xe6] }).map (fun t => t.xi) = some 2790
      ∧ statusAfter 0x00000211 { State.reset with msg := ⟨[], 513⟩ } = some 0xC02 := by decide +kernel

/-- V-CNV-19 to V-CNV-22, V-CNV-24. -/
theorem test_cmpem :
    statusAfter 0x16 { withEm [0, 1, 0xff] with out := Buffer.ofBytes [0, 1, 0xff] } = some 6
      ∧ statusAfter 0x16 { withEm [0, 1, 0xff] with out := Buffer.ofBytes [0, 1, 0xfe] } = some 0x402
      ∧ statusAfter 0x16 { withEm [0, 1, 0xff] with out := Buffer.ofBytes [0, 1, 0xff, 0] } = some 0x402
      ∧ statusAfter 0x16 { State.reset with em := ⟨[(1, 1), (2, 0xff)], 2⟩, out := ⟨[(1, 1), (2, 0xaa)], 2⟩ } = some 6
      ∧ statusAfter 0x16 { State.reset with em := ⟨[], 513⟩ } = some 0xC02 := by decide +kernel

/-- V-RSA-1, V-RSA-6, V-RSA-7, V-RSA-14. -/
theorem test_rsaep :
    (after 0x12 (k12 .modulus 65)).map (fun t => t.xi) = some 2790
      ∧ (after 0x12 (k12 .modulus 3232)).map (fun t => t.xi) = some 3232
      ∧ (after 0x12 (k12 .modulus 3233)).map (fun t => (t.xi, t.status.word)) = some (0, 0x602)
      ∧ statusAfter 0x12 (withXi 5) = some 0x102 := by decide +kernel

/-- V-RSA-2 to V-RSA-4, V-RSA-8: in V-RSA-3 and V-RSA-4 `m1 < m2`, so the residue `h` is the point. -/
theorem test_rsadp :
    (after 0x13 (k12 .modulus 2790)).map (fun t => t.xi) = some 65
      ∧ (after 0x13 (k12 .crt 2790)).map (fun t => t.xi) = some 65
      ∧ (after 0x13 (k12 .crt 6)).map (fun t => t.xi) = some 2902
      ∧ statusAfter 0x13 (k12 .crt 3233) = some 0x602 := by decide +kernel

/-- A reset machine in CRT form with two factors. -/
def withFactors (p q : BigWord) : State :=
  { State.reset with cfg := ⟨.sha224, .crt⟩, keys := { Keys.zero with p := p, q := q } }

/-- V-RSA-17 to V-RSA-19: a zero factor, a modulus of 4097 bits, the widest modulus. -/
theorem test_rsadp_key_shape :
    statusAfter 0x13 (withFactors 0 53) = some 0x102
      ∧ statusAfter 0x13 (withFactors (2 ^ 2048) (2 ^ 2048)) = some 0xC02
      ∧ (after 0x13 (withFactors (2 ^ 2048 - 1) (2 ^ 2048 - 1))).map (fun t => t.xi) = some 1 := by decide +kernel

/-- V-RSA-9, V-RSA-10, V-RSA-12. -/
theorem test_rsasp1 :
    (after 0x14 (k12 .modulus 65)).map (fun t => t.xi) = some 588
      ∧ (after 0x14 (k12 .crt 65)).map (fun t => t.xi) = some 588
      ∧ statusAfter 0x14 (k12 .modulus 4000) = some 0x702 := by decide +kernel

/-- V-RSA-11, V-RSA-13. -/
theorem test_rsavp1 :
    (after 0x15 (k12 .modulus 588)).map (fun t => t.xi) = some 65
      ∧ statusAfter 0x15 (k12 .modulus 4000) = some 0x702 := by decide +kernel

/-- V-MGF-6: the capacity of the result and of AUX. -/
theorem test_mgf1_capacity :
    statusAfter 0x02010020 State.reset = some 0xC02
      ∧ statusAfter 0x00010020 { State.reset with aux := ⟨[], 513⟩ } = some 0xC02 := by decide +kernel

/-- A reset machine with MSG and AUX loaded. -/
def withMsgAux (msg aux : Bytes) : State :=
  { State.reset with msg := Buffer.ofBytes msg, aux := Buffer.ofBytes aux }

/-- V-P1E-2: the boundary, and the order of the errors. -/
theorem test_p1eEnc :
    (after 0x000C0140 (withMsgAux [0x41] [0x11, 0x22, 0x33, 0x44, 0x55, 0x66, 0x77, 0x88])).map
        (fun t => (t.val .em, t.status.word))
      = some ([0x00, 0x02, 0x11, 0x22, 0x33, 0x44, 0x55, 0x66, 0x77, 0x88, 0x00, 0x41], 2)
    ∧ statusAfter 0x000C0140 (withMsgAux [0x41, 0x42] [1, 2, 3]) = some 0x202
    ∧ statusAfter 0x000C0140 (withMsgAux [0x41] [0x11, 0x22, 0x33, 0x00, 0x55, 0x66, 0x77, 0x88]) = some 0x102 := by
  decide +kernel

/-- V-P1E-3: the first 00 separates; `PS` of 7 octets and a wrong marker are rejected. -/
theorem test_p1eDec :
    (after 0x00100041 (withEm [0, 2, 1, 2, 3, 4, 5, 6, 7, 8, 0, 0x0a, 0x0b, 0, 0x68, 0x69])).map (fun t => t.val .out)
        = some [0x0a, 0x0b, 0, 0x68, 0x69]
      ∧ statusAfter 0x00100041 (withEm [0, 2, 1, 2, 3, 4, 5, 6, 7, 0, 9, 0x0a, 0x0b, 0, 0x68, 0x69]) = some 0x302
      ∧ statusAfter 0x00100041 (withEm [0, 1, 1, 2, 3, 4, 5, 6, 7, 8, 9, 0x0a, 0x0b, 0, 0x68, 0x69]) = some 0x302
      ∧ statusAfter 0x000A0041 { State.reset with em := ⟨[], 10⟩ } = some 0x302 := by decide +kernel

/-- Key K96 with the message and `PS` of program P3. -/
def k96 (kf : KeyForm) (msg aux : Bytes) : State :=
  { State.reset with
    msg := Buffer.ofBytes msg, aux := Buffer.ofBytes aux, cfg := ⟨.sha224, kf⟩
    keys := ⟨0xd20000000016700000000017, 0x10001, 0xd20000000016700000000017, 0x6f80cc7f338bc000ffff0001,
      0xf00000000001, 0xe00000000017, 0x7000ffff0001, 0x8c7f3380cc8d, 0x955d9544d577⟩ }

/-- Program P3: the ciphertext, and EM and XI discarded. -/
theorem test_pkcs1Encrypt :
    (after 0x142 (k96 .modulus [0x41] [0x11, 0x22, 0x33, 0x44, 0x55, 0x66, 0x77, 0x88])).map
        (fun t => (t.val .out, t.em, t.xi, t.status.word))
      = some ([0x0d, 0x8b, 0xa0, 0x38, 0x1d, 0x00, 0x96, 0x68, 0xdb, 0xf6, 0xc9, 0x00], Buffer.empty, 0, 2) := by
  decide +kernel

/-- Program P3: back again, in both key forms; 13 octets are not a ciphertext (R175). -/
theorem test_pkcs1Decrypt :
    (after 0x43 (k96 .modulus [0x0d, 0x8b, 0xa0, 0x38, 0x1d, 0x00, 0x96, 0x68, 0xdb, 0xf6, 0xc9, 0x00] [])).map
        (fun t => (t.val .out, t.status.word)) = some ([0x41], 2)
      ∧ (after 0x43 (k96 .crt [0x0d, 0x8b, 0xa0, 0x38, 0x1d, 0x00, 0x96, 0x68, 0xdb, 0xf6, 0xc9, 0x00] [])).map
        (fun t => t.val .out) = some [0x41]
      ∧ statusAfter 0x43 (k96 .modulus (zeros 13) []) = some 0x302 := by decide +kernel

/-- With key K12 no scheme fits: V-OAEP and V-PSS error kinds, by their rules R154, R155, R194, R195, R212, R213. -/
theorem test_schemes_small_key :
    statusAfter 0x132 (k12 .modulus 0) = some 0x202 ∧ statusAfter 0x33 (k12 .modulus 0) = some 0x302
      ∧ statusAfter 0x152 (k12 .modulus 0) = some 0xA02 ∧ statusAfter 0x53 (k12 .modulus 0) = some 0x402
      ∧ statusAfter 0x62 (k12 .modulus 0) = some 0xA02 ∧ statusAfter 0x63 (k12 .modulus 0) = some 0x402 := by
  decide +kernel

/-- V-OAEP-4, V-OAEP-3, V-OAEP-5: which check comes first. -/
theorem test_oaep_errors :
    statusAfter 0x00800130 { State.reset with msg := ⟨[], 63⟩, aux := ⟨[], 31⟩, cfg := ⟨.sha256, .modulus⟩ } = some 0x202
      ∧ statusAfter 0x00800130 { State.reset with msg := ⟨[], 5⟩, aux := ⟨[], 31⟩, cfg := ⟨.sha256, .modulus⟩ } = some 0x902
      ∧ statusAfter 0x00800130 { State.reset with aux := ⟨[], 513⟩ } = some 0xC02
      ∧ statusAfter 0x00410031 { State.reset with em := ⟨[], 65⟩, cfg := ⟨.sha256, .modulus⟩ } = some 0x302
      ∧ statusAfter 0x007F0031 { State.reset with em := ⟨[], 128⟩, cfg := ⟨.sha256, .modulus⟩ } = some 0x302 := by
  decide +kernel

/-- V-PSS-4: which check comes first; the capacity of `emLen`; a verify of the wrong length (V-PSS-0b). -/
theorem test_pss_errors :
    statusAfter 0x02080150 { State.reset with aux := ⟨[], 5⟩, cfg := ⟨.sha256, .modulus⟩, slen := 32 } = some 0xA02
      ∧ statusAfter 0x03FF0150 { State.reset with aux := ⟨[], 31⟩, cfg := ⟨.sha256, .modulus⟩, slen := 32 } = some 0x102
      ∧ statusAfter 0x03FF0150 { State.reset with slen := 0xFFFFFFFF } = some 0xA02
      ∧ statusAfter 0x10010150 State.reset = some 0xC02
      ∧ statusAfter 0x01380051 { State.reset with em := ⟨[], 40⟩, slen := 4 } = some 0x402 := by decide +kernel

/-! ### 3. The encodings with the test digest TD (95_test_vectors.md 2.0, 2.5, 2.6, 2.8, 2.9) -/

/-- The test digest `TD28` of 95_test_vectors.md 2.0. -/
def td28 : Digest where
  hLen := 28
  octet x i := BitVec.ofNat 8 ((x.map (·.toNat)).sum + x.length + 7 * i + (x.getD (i % x.length) 0).toNat)
  infoPrefix := Config.infoPrefix .sha224

/-- The octets of a number, the leftmost first. -/
def octets (n x : Nat) : Bytes := octetsOf x n

/-- `TD28("")` and `TD28(61 62 63)` as 2.0 writes them. -/
theorem test_td28 :
    td28.hash [] = octets 28 0x00070e151c232a31383f464d545b626970777e858c939aa1a8afb6bd
      ∧ td28.hash [0x61, 0x62, 0x63] = octets 28 0x8a929a9fa7afb4bcc4c9d1d9dee6eef3fb030810181d252d323a4247 := by
  decide +kernel

/-- V-MGF-1. -/
theorem test_mgf1 : (mgf1 td28 [1, 2] 30).toOption = some (octets 30 0x0a12171e252c343c41484f565e666b7279808890959ca3aab2babfc60b13) := by
  decide +kernel

/-- V-OAEP-0: the encoding, and its decoding. -/
theorem test_oaepEncode :
    (oaepEncode td28 64 [0x61, 0x62, 0x63] [] (.fixed (octets 28 0x000102030405060708090a0b0c0d0e0f101112131415161718191a1b))).toOption
      = some (octets 64 0x00e5f6ff04094a53586d6e375c41f21b2035060f9499baa3c8fddec7cc9aa5a4a7a6e1e0e3e2ddacbfae59687b6a5554b7b6d1d0f3f2cddccf9ba3abb2daa1a8) := by
  decide +kernel

/-- V-OAEP-0b: cases b, c, e and g. -/
theorem test_oaepDecode :
    (oaepDecode td28 64 (octets 64 0x00e3f4f9060f48555a6b6c315e47f01d22330409969fb8a5cafbdcc1ce9aa5a4a7a6e1e0e3e2ddacbfae59687b6a5554b7b6d1d0f3f2cddccf9ba3a9b2daa1a8) []).toOption = none
      ∧ (oaepDecode td28 64 (octets 64 0x00e4f7fe05084b52596c6f365d40f31a2134070e9598bba2c9fcdfc6ce9aa5a4a7a6e1e0e3e2ddacbfae59687b6a5554b7b6d1d0f3f2cddcce9ba3abb2daa1a8) []).toOption = none
      ∧ (oaepDecode td28 64 (octets 64 0x00c5d6dfe4e92a33384d4e173c21d2fb0015e6ef74799a83a8ddbea7ac9aa5a4a7a6e1e0e3e2ddacbfae59687b6a5554b7b6d1d0f3f2cddccf9ba3abb2baa1a8) []).toOption = some [0x01, 0x62, 0x63]
      ∧ (oaepDecode td28 64 (octets 64 0x01e5f6ff04094a53586d6e375c41f21b2035060f9499baa3c8fddec7cc9aa5a4a7a6e1e0e3e2ddacbfae59687b6a5554b7b6d1d0f3f2cddccf9ba3abb2daa1a8) []).toOption = none := by
  decide +kernel

/-- V-PSS-0 and V-PSS-0c: the encodings in 317 and in 320 bits. -/
theorem test_pssEncode :
    (pssEncode td28 [0x61, 0x62, 0x63] 317 4 (.fixed [0xa0, 0xa1, 0xa2, 0xa3])).toOption
        = some (octets 40 0x1eccdae8f6041380196c47373e454c535a6168f908172332414d5c6b778695a1b0bfcbdae9f504bc)
      ∧ (pssEncode td28 [0x61, 0x62, 0x63] 320 4 (.fixed [0xa0, 0xa1, 0xa2, 0xa3])).toOption.map (fun x => x.take 1)
        = some [0xbe] := by decide +kernel

/-- V-PSS-0 accepted; V-PSS-0b with `EM[0] = 3e`, `EM[0] = 1f`, `SLEN` = 3, 5 and 10, and 320 bits. -/
theorem test_pssVerify :
    pssVerify td28 [0x61, 0x62, 0x63] (octets 40 0x1eccdae8f6041380196c47373e454c535a6168f908172332414d5c6b778695a1b0bfcbdae9f504bc) 317 4 = true
      ∧ pssVerify td28 [0x61, 0x62, 0x63] (octets 40 0x3eccdae8f6041380196c47373e454c535a6168f908172332414d5c6b778695a1b0bfcbdae9f504bc) 317 4 = false
      ∧ pssVerify td28 [0x61, 0x62, 0x63] (octets 40 0x1fccdae8f6041380196c47373e454c535a6168f908172332414d5c6b778695a1b0bfcbdae9f504bc) 317 4 = false
      ∧ ([3, 5, 10].map fun n => pssVerify td28 [0x61, 0x62, 0x63]
        (octets 40 0x1eccdae8f6041380196c47373e454c535a6168f908172332414d5c6b778695a1b0bfcbdae9f504bc) 317 n) = [false, false, false]
      ∧ pssVerify td28 [0x61, 0x62, 0x63] (octets 40 0x1eccdae8f6041380196c47373e454c535a6168f908172332414d5c6b778695a1b0bfcbdae9f504bc) 320 4 = false := by
  decide +kernel

/-- V-P1S-0: the shortest encoding. -/
theorem test_p1sEncode :
    (p1sEncode td28 [0x61, 0x62, 0x63] 58).toOption = some (octets 58 0x0001ffffffffffffffff00302d300d06096086480165030402040500041c8a929a9fa7afb4bcc4c9d1d9dee6eef3fb030810181d252d323a4247)
      ∧ (p1sEncode td28 [0x61, 0x62, 0x63] 57).toOption = none := by decide +kernel

/-! ### 4. Witnesses: for every obligation with hypotheses, states and operands that meet them -/

/-- A machine that has just launched a word, with turns to come. -/
def busyWith (w : Word) (ts : List Turn) : State := { State.reset.launch w with script := ts }

/-- A reset machine with the length registers of MSG, AUX and EM and SLEN as given. -/
def lens (msg aux em slen : Word) : State :=
  { State.reset with msg := ⟨[], msg⟩, aux := ⟨[], aux⟩, em := ⟨[], em⟩, slen := slen }

/-- The lengths given, and one modulus for both key registers, both exponents 1. -/
def withModulus (n : BigWord) (s : State) : State :=
  { s with keys := { Keys.zero with n := n, e := 1, pn := n, d := 1 } }

theorem witness_DecodeEncodeAgree :
    (Instr.oaepEnc true 65535).wellFormed = true ∧ decode 0xFFFF0130 = .ok (.oaepEnc true 65535) := by decide

theorem witness_StepRunsDecodedCommand :
    (busyWith 0x01FF0020 []).status.busy = true ∧ decode (busyWith 0x01FF0020 []).cmdl = .ok (.mgf1 511)
      ∧ (busyWith 0x01FF0020 []).script = []
      ∧ (busyWith 0x33 [.commandUnit, .reset]).status.busy = true
      ∧ decode (busyWith 0x33 [.commandUnit, .reset]).cmdl = .ok .oaepDecrypt
      ∧ (busyWith 0x33 [.commandUnit, .reset]).script = .commandUnit :: [.reset]
      ∧ decode (BitVec.ofNat 32 (0x63 % 2 ^ 32)) = .ok .pkcs1Verify
      ∧ decode (BitVec.ofNat 32 (0xFFFF0010 % 2 ^ 16)) = .ok (.i2osp false 0) := by decide

theorem witness_IllegalWordCompletes :
    State.reset.status.busy = false ∧ decode 0x00000061 = .error .unassignedOpcode
      ∧ decode 0x00010011 = .error .lenNotUsed := by decide

theorem witness_LaunchLatchesWord : (withEm [1]).status.busy = false ∧ (busyWith 1 []).status.busy = true := by decide

theorem witness_RunPseudoInstruction :
    ∃ t, State.reset.status.busy = false
      ∧ ({ State.reset with script := scriptRun 0x00040010 2 ++ [.reset] } : State).script
        = scriptRun 0x00040010 2 ++ [.reset]
      ∧ decode 0x00040010 = .ok (.i2osp false 4)
      ∧ exec (.i2osp false 4) (({ State.reset with script := scriptRun 0x00040010 2 ++ [.reset] } : State).launch 0x00040010)
        = .next t := ⟨_, by decide, rfl, by decide, rfl⟩

theorem witness_ResetRestoresResetValues :
    State.reset = State.reset ∧ ∃ t, (busyWith 0x33 [.reset, .commandUnit]).script = .reset :: [.commandUnit]
      ∧ step (busyWith 0x33 [.reset, .commandUnit]) = .next t := ⟨rfl, _, rfl, rfl⟩

theorem witness_EveryStepAnswersNext : (withEm [1]).status.busy = false ∧ (withEm [1]).script = [] := by decide

theorem witness_StepKeepsInvariant :
    ∃ t, (busyWith 0x00040010 []).inv = true ∧ step (busyWith 0x00040010 []) = .next t ∧ t ≠ busyWith 0x00040010 [] :=
  ⟨_, by decide, rfl, by decide⟩

/-- A clause each: CMD, STATUS, the first and the last offset of the rest. -/
theorem witness_BusyAccessOnlyMarksHazard :
    (busyWith 0x33 []).status.busy = true
      ∧ ([0x0000, 0x0004, 0x0008, 0x0020, 0x1000, 0x29FC, 0x41FC] : List Offset).Forall fun a =>
        a.toNat % 4 = 0 ∧ ¬ unmapped a.toNat := by
  unfold unmapped
  decide

/-- A clause each: an 8-bit and a 16-bit access, two misaligned ones, the ends of the unmapped ranges. -/
theorem witness_BusErrorChangesNothing :
    Width.w8 ≠ .w32 ∧ Width.w16 ≠ .w32 ∧ (0x1001 : Offset).toNat % 4 ≠ 0 ∧ (0x1FFF : Offset).toNat % 4 ≠ 0
      ∧ ([0x0024, 0x0FFC, 0x2A00, 0x2FFC, 0x4200, 0xFFFC] : List Offset).Forall fun a => unmapped a.toNat := by
  unfold unmapped
  decide

theorem witness_AddressMapPlacesRegisters :
    4 * 1023 < BufName.msg.cap ∧ 4 * 127 < BufName.out.cap ∧ 127 < 128 ∧ unmapped 0x24 ∧ unmapped 0x0FFF
      ∧ unmapped 0x2A00 ∧ unmapped 0x2FFF ∧ unmapped 0x4200 ∧ unmapped 0xFFFF := by
  unfold unmapped
  decide

theorem witness_BufferWordLanes :
    (withEm [1, 2, 3, 4, 5]).inv = true ∧ (withEm [1, 2, 3, 4, 5]).status.busy = false ∧ 4 * 127 < BufName.em.cap
      ∧ 4 * 1023 < BufName.msg.cap := by decide

theorem witness_IntegerLimbs : (withXi 7).status.busy = false ∧ 127 < 128 := by decide

theorem witness_ConfigurationRegistersStore : (withXi 7).status.busy = false := by decide

/-- A clause each: a dropped read, a dropped write, the clearing write, the clearing reset. -/
theorem witness_HazardFlagRule :
    (∃ t, step (busyWith 0x33 [.host (.read .w32 0x0008)]) = .next t
        ∧ (busyWith 0x33 [.host (.read .w32 0x0008)]).status.busy = true ∧ (0x0008 : Offset).toNat % 4 = 0
        ∧ ¬ unmapped (0x0008 : Offset).toNat
        ∧ (busyWith 0x33 [.host (.read .w32 0x0008)]).status.hzd = false ∧ t.status.hzd = true)
      ∧ (∃ t, step (busyWith 0x33 [.host (.write .w32 0x0000 1)]) = .next t
        ∧ (busyWith 0x33 [.host (.write .w32 0x0000 1)]).status.busy = true ∧ ¬ unmapped (0x0000 : Offset).toNat
        ∧ t.status.hzd = true)
      ∧ (∃ t, step { State.reset with script := [.host (.write .w32 0x0004 8)], status := ⟨false, true, false, true, none⟩ }
        = .next t ∧ t.status.hzd = false)
      ∧ (∃ t, step { State.reset with script := [.reset], status := ⟨false, true, false, true, none⟩ } = .next t
        ∧ t.status.hzd = false)
      ∧ ∃ t, exec .cmpem State.reset = .next t := by
  unfold unmapped
  exact ⟨⟨_, rfl, by decide⟩, ⟨_, rfl, by decide⟩, ⟨_, rfl, by decide⟩, ⟨_, rfl, by decide⟩, ⟨_, rfl⟩⟩

theorem witness_BusyWindowLeavesResult :
    ∃ t, (busyWith 0x00040010 []).status.busy = true ∧ (busyWith 0x00040010 []).complete = .next t
      ∧ [Access.write .w32 0x2800 7, .read .w32 0x2600].foldl State.hostTurn (busyWith 0x00040010 [])
        ≠ busyWith 0x00040010 [] := ⟨_, by decide, rfl, by decide⟩

theorem witness_CompletionFlags :
    ∃ t, exec .oaepDecrypt (withXi 7) = .next t ∧ layerOf .oaepDecrypt = .scheme := ⟨_, rfl, rfl⟩

theorem witness_VerdictFlagsAgree :
    (∃ t, exec .cmpem State.reset = .next t ∧ producesValid .cmpem = true ∧ t.status.valid = true)
      ∧ (∃ t, exec .pkcs1Verify State.reset = .next t ∧ producesValid .pkcs1Verify = true ∧ t.status.valid = false)
      ∧ ∃ t, exec .rsaep State.reset = .next t ∧ producesValid .rsaep = false :=
  ⟨⟨_, rfl, rfl, by decide⟩, ⟨_, rfl, rfl, by decide⟩, ⟨_, rfl, rfl⟩⟩

theorem witness_ConfigurationPersists :
    ∃ t, exec .rsaep (k12 .modulus 65) = .next t ∧ (∀ sel, Instr.rsaep ≠ .clear sel) ∧ Instr.rsaep ≠ .clear true :=
  ⟨_, rfl, by decide, by decide⟩

theorem witness_FailureClearsDestinations :
    (∃ t, exec .oaepDecrypt (withXi 7) = .next t ∧ t.status.err = some .illegalParameter)
      ∧ decode (busyWith 0x61 []).cmdl = .error .unassignedOpcode := ⟨⟨_, rfl, by decide⟩, by decide⟩

theorem witness_ErrorKindsPerCommand :
    ∃ t, exec .rsasp1 (k12 .crt 4000) = .next t ∧ t.status.err = some .signatureOutOfRange :=
  ⟨_, rfl, by decide +kernel⟩

theorem witness_NoCommandReadsFlags : ∃ t, exec (.pssVfy 317) (lens 3 0 40 4) = .next t := ⟨_, rfl⟩

/-- The two states differ in an octet past EMLEN. -/
theorem witness_OctetsPastLengthUnread :
    ∃ s s' t t' : State, s ≠ s' ∧ SameBelowLengths s s' ∧ exec (.os2ip false) s = .next t
      ∧ exec (.os2ip false) s' = .next t' := by
  refine ⟨{ State.reset with em := ⟨[(1, 5), (2, 1)], 2⟩ }, { State.reset with em := ⟨[(1, 5), (2, 9)], 2⟩ }, _, _,
    by decide, ⟨?_, rfl, rfl, rfl, rfl, rfl, rfl, rfl, rfl, rfl⟩, rfl, rfl⟩
  intro b
  cases b <;> decide

/-- The first pair: CRT form with another PN; modulus form with another P. The second: `FIX = 0` with another AUX. -/
theorem witness_IgnoredRegistersUnread :
    (∃ t, exec .rsadp (k12 .crt 6) = .next t ∧ ({ (k12 .crt 6).keys with pn := 0 } : Keys) ≠ (k12 .crt 6).keys
        ∧ (k12 .crt 6).cfg.kform ≠ .modulus)
      ∧ (∃ t, exec .rsadp (k12 .modulus 6) = .next t ∧ ({ (k12 .modulus 6).keys with p := 0 } : Keys) ≠ (k12 .modulus 6).keys
        ∧ (k12 .modulus 6).cfg.kform ≠ .crt)
      ∧ (∃ t, exec (.oaepEnc false 128) State.reset = .next t)
      ∧ (Instr.oaepEnc false 128).opcode.hasFix = true ∧ (Instr.oaepEnc false 128).fix = false :=
  ⟨⟨_, rfl, by decide, by decide⟩, ⟨_, rfl, by decide, by decide⟩, ⟨_, rfl⟩, rfl, rfl⟩

/-- Both sides of the first clause, at the boundary of a length and of the CRT modulus; and the second clause. -/
theorem witness_CapacityAndKeyShapeChecks :
    overCapacity (lens 0 0 513 0) (.os2ip false) ∧ ¬ overCapacity (lens 0 0 512 0) (.os2ip false)
      ∧ 2 ^ 4096 ≤ (withFactors (2 ^ 2048) (2 ^ 2048)).keys.p.toNat * (withFactors (2 ^ 2048) (2 ^ 2048)).keys.q.toNat
      ∧ ¬ 2 ^ 4096 ≤ (withFactors (2 ^ 2048) (2 ^ 2048 - 1)).keys.p.toNat
          * (withFactors (2 ^ 2048) (2 ^ 2048 - 1)).keys.q.toNat
      ∧ usesPrivateKey .oaepDecrypt = true ∧ (withFactors 0 53).cfg.kform = .crt
      ∧ ¬ overCapacity (withFactors 0 53) .oaepDecrypt ∧ keyModulus (withFactors 0 53) .oaepDecrypt = some 0 := by
  unfold overCapacity
  decide +kernel

theorem witness_BufferWriteReplacesAll :
    (rep 0xee 512).length ≤ BufName.em.cap ∧ (rep 0xee 4096).length ≤ BufName.msg.cap := by decide +kernel

/-- A clause each: the widest value in 512 octets, `LEN` = 513, and a value one too large. -/
theorem witness_I2ospCompletes :
    (withXi (2 ^ 4096 - 1)).xi.toNat < 256 ^ 512 ∧ 512 ≤ 512 ∧ 512 < 513 ∧ 256 ^ 1 ≤ (withXi 256).xi.toNat := by
  decide +kernel

theorem witness_Os2ipCompletes : (lens 0 0 512 0).bufLen .em ≤ 512 ∧ 512 < (lens 513 0 0 0).bufLen .msg := by decide

theorem witness_CmpemCompletes :
    (lens 0 0 0 0).bufLen .em = (lens 0 0 0 0).bufLen .out ∧ (lens 0 0 512 0).bufLen .em ≤ 512
      ∧ (lens 0 0 512 0).bufLen .em ≠ (lens 0 0 512 0).bufLen .out ∧ 512 < (lens 0 0 513 0).bufLen .em := by decide

/-- A clause each: `n - 1`, `n`, and `n = 0`. -/
theorem witness_PublicPrimitivesComplete :
    (k12 .modulus 3232).xi.toNat < (k12 .modulus 3232).keys.n.toNat
      ∧ (k12 .modulus 3233).keys.n.toNat ≠ 0 ∧ (k12 .modulus 3233).keys.n.toNat ≤ (k12 .modulus 3233).xi.toNat
      ∧ (withXi 5).keys.n.toNat = 0 := by decide +kernel

theorem witness_PrivatePrimitivesModulusForm :
    (k12 .modulus 3232).cfg.kform = .modulus ∧ (k12 .modulus 3232).xi.toNat < (k12 .modulus 3232).keys.pn.toNat
      ∧ (k12 .modulus 3233).keys.pn.toNat ≠ 0 ∧ (k12 .modulus 3233).keys.pn.toNat ≤ (k12 .modulus 3233).xi.toNat
      ∧ (withXi 5).cfg.kform = .modulus ∧ (withXi 5).keys.pn.toNat = 0 := by decide +kernel

theorem witness_PrivatePrimitivesCrtForm :
    (k12 .crt 3232).cfg.kform = .crt ∧ (k12 .crt 3232).xi.toNat < 61 * 53 ∧ 61 * 53 < 2 ^ 4096
      ∧ 61 * 53 ≤ (k12 .crt 3233).xi.toNat ∧ (k12 .crt 3233).keys.p.toNat = 61 ∧ (k12 .crt 3233).keys.q.toNat = 53
      ∧ (withFactors 0 53).keys.p.toNat = 0 ∧ (withFactors (2 ^ 2048) (2 ^ 2048)).keys.p.toNat = 2 ^ 2048
      ∧ (withFactors (2 ^ 2048) (2 ^ 2048)).keys.q.toNat = 2 ^ 2048 ∧ 2 ^ 4096 ≤ 2 ^ 2048 * 2 ^ 2048 := by
  decide +kernel

/-- Key K12. -/
theorem witness_CrtAgreesWithModulus :
    Nat.Prime 61 ∧ Nat.Prime 53 ∧ 61 ≠ 53 ∧ 2 < 61 ∧ 2 < 53 ∧ 17 * 2753 % Nat.lcm (61 - 1) (53 - 1) = 1
      ∧ 38 * 53 % 61 = 1 ∧ 2790 < 61 * 53 := by
  refine ⟨by norm_num, by norm_num, ?_⟩
  decide

theorem witness_Mgf1Completes :
    (lens 0 512 0 0).bufLen .aux ≤ 512 ∧ 512 ≤ 512 ∧ 512 < (lens 0 513 0 0).bufLen .aux ∧ 512 < 513 := by decide

theorem witness_Mgf1PrefixProperty : ∃ x, 28 ≤ 30 ∧ mgf1 td28 [1, 2] 30 = .ok x := ⟨_, by decide, rfl⟩

/-- Encoding of the empty message with a label, in 58 octets with SHA-224 and a seed of zeros, succeeds. -/
theorem oaep_encoding (l : Bytes) : ∃ em, oaepEncode (Config.digest .sha224) 58 [] l (.fixed (zeros 28)) = .ok em := by
  obtain ⟨_, _, _, _, h⟩ := oaepEncode_total (D := Config.digest .sha224) (hLen_pos _) (by decide +kernel) (k := 58)
    (by decide) (m := []) (seed := zeros 28) l (src := .fixed (zeros 28)) rfl (by decide)
  exact ⟨_, h⟩

/-- PSS encoding of the empty message in 239 bits with SHA-224 and the empty salt succeeds. -/
theorem pss_encoding : ∃ em, pssEncode (Config.digest .sha224) [] 239 0 (.fixed []) = .ok em := by
  obtain ⟨_, _, h⟩ := pssEncode_total (D := Config.digest .sha224) (hLen_pos _) (m := []) (salt := []) (emBits := 239)
    (sLen := 0) (src := .fixed []) (by decide) rfl (by decide)
  exact ⟨_, h⟩

/-- Signature encoding of the empty message in 58 octets with SHA-224 succeeds. -/
theorem p1s_encoding : ∃ em, p1sEncode (Config.digest .sha224) [] 58 = .ok em :=
  ⟨_, p1sEncode_eq_ok.mpr ⟨by decide, rfl⟩⟩

/-- A clause each: `LEN` = 58 = `2*hLen + 2` with a seed of 28 octets, `LEN` = 57, a seed of 27 octets. -/
theorem witness_OaepEncCompletes :
    (lens 0 28 0 0).bufLen .aux = (lens 0 28 0 0).digest.hLen
      ∧ (lens 0 28 0 0).bufLen .msg + 2 * (lens 0 28 0 0).digest.hLen + 2 ≤ 58
      ∧ 57 < (lens 0 28 0 0).bufLen .msg + 2 * (lens 0 28 0 0).digest.hLen + 2
      ∧ (lens 0 27 0 0).bufLen .aux ≠ (lens 0 27 0 0).digest.hLen
      ∧ (lens 0 27 0 0).bufLen .msg + 2 * (lens 0 27 0 0).digest.hLen + 2 ≤ 58
      ∧ (lens 0 512 0 0).bufLen .aux ≤ 512 ∧ (lens 4096 0 0 0).bufLen .msg ≤ 4096 := by decide

/-- A clause each: EM an encoding; EM one octet short of the least size. -/
theorem witness_OaepDecCompletes :
    (∃ (s : State) (m : Bytes), s.bufLen .em ≤ 512 ∧ s.bufLen .lbl ≤ 512 ∧ 58 ≤ 512
        ∧ OaepAccepts s.digest 58 (s.val .em) (s.val .lbl) m)
      ∧ ∀ m, ¬ OaepAccepts (lens 0 0 57 0).digest 57 ((lens 0 0 57 0).val .em) ((lens 0 0 57 0).val .lbl) m := by
  constructor
  · obtain ⟨em, h⟩ := oaep_encoding []
    have hl := (oaepEncode_shape h).1
    have hv : ({ State.reset with em := Buffer.ofBytes em } : State).val .em = em := State.val_of_buf rfl (by omega)
    refine ⟨{ State.reset with em := Buffer.ofBytes em }, [], ?_, Nat.zero_le _, by decide, ?_⟩
    · rw [← State.val_length, hv, hl]; decide
    · rw [hv]; exact oaepAccepts_of_encode h
  · rintro m ⟨_, _, _, _, _, _, _, _, h, _⟩
    revert h
    decide

theorem witness_OaepRoundTrip :
    ∃ em, oaepEncode (Config.digest .sha224) 58 [] [] (.fixed (zeros 28)) = .ok em ∧ (0x01 : Byte) ≠ 0x00 := by
  obtain ⟨em, h⟩ := oaep_encoding []
  exact ⟨em, h, by decide⟩

/-- A clause each: a modulus of 457 bits (58 octets), a zero one, one of 456 bits (57 octets), a seed of 27 octets. -/
theorem witness_OaepEncryptCompletes :
    (bitLength (withModulus (2 ^ 456) (lens 0 28 0 0)).keys.n.toNat + 7) / 8 = 58
      ∧ (withModulus (2 ^ 456) (lens 0 28 0 0)).keys.n ≠ 0
      ∧ (lens 0 28 0 0).bufLen .msg + 2 * (lens 0 28 0 0).digest.hLen + 2 ≤ 58
      ∧ (lens 0 28 0 0).bufLen .aux = (lens 0 28 0 0).digest.hLen ∧ (lens 0 0 0 0).keys.n = 0
      ∧ (bitLength (withModulus (2 ^ 455) (lens 0 28 0 0)).keys.n.toNat + 7) / 8 = 57
      ∧ 57 < (lens 0 28 0 0).bufLen .msg + 2 * (lens 0 28 0 0).digest.hLen + 2
      ∧ (lens 0 27 0 0).bufLen .aux ≠ (lens 0 27 0 0).digest.hLen := by decide +kernel

/-- With exponent 1 a private key leaves an operand below its modulus as it is. -/
theorem apply_one {n x : Nat} (h : x < n) : x = (PrivKey.modulus n 1).apply x := by
  rw [apply_modulus, Nat.pow_one, Nat.mod_eq_of_lt h]

/-- The first clause: exponent 1 and an encoding as ciphertext. The second, each case: 57 octets; a representative equal
to the modulus; a modulus of one octet, where nothing is an encoding. -/
theorem witness_OaepDecryptCompletes :
    (∃ (s : State) (m em : Bytes), s.bufLen .msg ≤ 4096 ∧ s.bufLen .lbl ≤ 512 ∧ s.privKey.n ≠ 0
        ∧ s.privKey.n < 2 ^ 4096 ∧ 58 = (bitLength s.privKey.n + 7) / 8 ∧ s.bufLen .msg = 58
        ∧ os2ip (s.val .msg) < s.privKey.n ∧ em.length = 58 ∧ os2ip em = s.privKey.apply (os2ip (s.val .msg))
        ∧ OaepAccepts s.digest 58 em (s.val .lbl) m)
      ∧ (withModulus (2 ^ 456) (lens 57 0 0 0)).bufLen .msg ≠ 58
      ∧ (withModulus 1 { State.reset with msg := Buffer.ofBytes [1] }).privKey.n
        ≤ os2ip ((withModulus 1 { State.reset with msg := Buffer.ofBytes [1] }).val .msg)
      ∧ ∀ m em : Bytes, em.length = 1 → ¬ OaepAccepts (Config.digest .sha224) 1 em [] m := by
  refine ⟨?_, by decide +kernel, by decide +kernel, ?_⟩
  · obtain ⟨em, h⟩ := oaep_encoding []
    have hl := (oaepEncode_shape h).1
    have hk : kOf (2 ^ 456) = 58 := by decide +kernel
    have hlt : os2ip em < 2 ^ 456 :=
      oaepEncode_value_lt (n := 2 ^ 456) (by decide +kernel) (by rw [hk]; exact h)
    have hv : (withModulus (2 ^ 456) { State.reset with msg := Buffer.ofBytes em }).val .msg = em :=
      State.val_of_buf rfl (by omega)
    have hp : (withModulus (2 ^ 456) { State.reset with msg := Buffer.ofBytes em }).privKey = .modulus (2 ^ 456) 1 := by
      show PrivKey.modulus (2 ^ 456 : BigWord).toNat (1 : BigWord).toNat = _
      decide +kernel
    refine ⟨withModulus (2 ^ 456) { State.reset with msg := Buffer.ofBytes em }, [], em, ?_⟩
    rw [hp, hv, ← State.val_length, hv, hl]
    exact ⟨by decide, Nat.zero_le _, by decide +kernel, by decide +kernel, hk.symm, rfl, hlt, rfl, apply_one hlt,
      oaepAccepts_of_encode h⟩
  · rintro m em _ ⟨_, _, _, _, _, _, _, _, h, _⟩
    revert h
    decide

/-- A clause each: 8 octets of `PS` in 12 octets, `LEN` = 11, a `PS` of 7 octets, one with a 00. -/
theorem witness_P1eEncCompletes :
    (withMsgAux [0x41] (rep 1 8)).bufLen .msg + 11 ≤ 12
      ∧ (withMsgAux [0x41] (rep 1 8)).bufLen .aux + (withMsgAux [0x41] (rep 1 8)).bufLen .msg + 3 = 12
      ∧ (0x00 : Byte) ∉ (withMsgAux [0x41] (rep 1 8)).val .aux
      ∧ 11 < (withMsgAux [0x41] (rep 1 8)).bufLen .msg + 11
      ∧ (withMsgAux [0x41] (rep 1 7)).bufLen .aux + (withMsgAux [0x41] (rep 1 7)).bufLen .msg + 3 ≠ 12
      ∧ (0x00 : Byte) ∈ (withMsgAux [0x41] (zeros 8)).val .aux := by decide

/-- A clause each: the least encoding, and 11 octets of 00. -/
theorem witness_P1eDecCompletes :
    P1eAccepts 11 ((withEm ([0, 2] ++ rep 1 8 ++ [0])).val .em) [] ∧ ∀ m, ¬ P1eAccepts 11 ((withEm (zeros 11)).val .em) m := by
  refine ⟨⟨by decide, rep 1 8, by decide, by decide, by decide⟩, ?_⟩
  rintro m ⟨_, ps, h, _, _⟩
  have h1 : ((withEm (zeros 11)).val .em)[1]? = some 0 := by decide
  rw [h] at h1
  simp at h1

theorem witness_P1eRoundTrip :
    p1eEncode 11 [] (.fixed (rep 1 8)) = .ok ([0, 2] ++ rep 1 8 ++ [0]) ∧ ((0x01 : Byte) ≠ 0x00 ∨ (0x02 : Byte) ≠ 0x02)
      ∧ ((0x00 : Byte) ≠ 0x00 ∨ (0x01 : Byte) ≠ 0x02) := ⟨rfl, by decide, by decide⟩

/-- A clause each, with moduli of 12 and of 11 octets. -/
theorem witness_Pkcs1EncryptCompletes :
    (bitLength (k96 .modulus [0x41] (rep 1 8)).keys.n.toNat + 7) / 8 = 12 ∧ (k96 .modulus [0x41] (rep 1 8)).keys.n ≠ 0
      ∧ (k96 .modulus [0x41] (rep 1 8)).bufLen .msg + 11 ≤ 12
      ∧ (k96 .modulus [0x41] (rep 1 8)).bufLen .aux + (k96 .modulus [0x41] (rep 1 8)).bufLen .msg + 3 = 12
      ∧ (0x00 : Byte) ∉ (k96 .modulus [0x41] (rep 1 8)).val .aux ∧ State.reset.keys.n = 0
      ∧ (bitLength (withModulus (2 ^ 87) (withMsgAux [0x41] [])).keys.n.toNat + 7) / 8 = 11
      ∧ 11 < (withMsgAux [0x41] []).bufLen .msg + 11
      ∧ (k96 .modulus [0x41] (rep 1 7)).bufLen .aux + (k96 .modulus [0x41] (rep 1 7)).bufLen .msg + 3 ≠ 12
      ∧ (0x00 : Byte) ∈ (k96 .modulus [0x41] (zeros 8)).val .aux := by decide +kernel

/-- The first clause: an encoding of 11 octets as ciphertext under exponent 1. The second, each case. -/
theorem witness_Pkcs1DecryptCompletes :
    (∃ (s : State) (m em : Bytes), s.bufLen .msg ≤ 4096 ∧ s.privKey.n ≠ 0 ∧ s.privKey.n < 2 ^ 4096
        ∧ 11 = (bitLength s.privKey.n + 7) / 8 ∧ s.bufLen .msg = 11 ∧ os2ip (s.val .msg) < s.privKey.n ∧ em.length = 11
        ∧ os2ip em = s.privKey.apply (os2ip (s.val .msg)) ∧ P1eAccepts 11 em m)
      ∧ (withModulus (2 ^ 80) (lens 10 0 0 0)).bufLen .msg ≠ 11
      ∧ (withModulus 1 { State.reset with msg := Buffer.ofBytes [1] }).privKey.n
        ≤ os2ip ((withModulus 1 { State.reset with msg := Buffer.ofBytes [1] }).val .msg)
      ∧ ∀ m em : Bytes, em.length = 1 → ¬ P1eAccepts 1 em m := by
  refine ⟨⟨withModulus (2 ^ 80) (withMsgAux ([0, 2] ++ rep 1 8 ++ [0]) []), [], [0, 2] ++ rep 1 8 ++ [0],
    by decide +kernel, by decide +kernel, by decide +kernel, by decide +kernel, by decide +kernel, by decide +kernel,
    by decide, by decide +kernel, by decide, rep 1 8, by decide, by decide, by decide⟩, by decide +kernel,
    by decide +kernel, ?_⟩
  rintro m em hl ⟨_, ps, h, _, hp⟩
  simp [h] at hl

/-- A clause each: `emLen` = 30 = `hLen + 2` with the empty salt, `emLen` = 29, a salt of one octet. -/
theorem witness_PssEncCompletes :
    30 = (239 + 7) / 8 ∧ (lens 0 0 0 0).digest.hLen + (lens 0 0 0 0).slen.toNat + 2 ≤ 30
      ∧ (lens 0 0 0 0).bufLen .aux = (lens 0 0 0 0).slen.toNat ∧ 29 = (232 + 7) / 8
      ∧ 29 < (lens 0 0 0 0).digest.hLen + (lens 0 0 0 0).slen.toNat + 2
      ∧ (lens 0 1 0 0).bufLen .aux ≠ (lens 0 1 0 0).slen.toNat ∧ (4096 + 7) / 8 ≤ 512 := by decide

/-- A clause each: EM an encoding in 239 bits; EM one octet too short. -/
theorem witness_PssVfyCompletes :
    (∃ s : State, s.bufLen .msg ≤ 4096 ∧ s.bufLen .em ≤ 512 ∧ (239 + 7) / 8 ≤ 512
        ∧ PssAccepts s.digest (s.val .msg) (s.val .em) 239 s.slen.toNat)
      ∧ ¬ PssAccepts (lens 0 0 29 0).digest ((lens 0 0 29 0).val .msg) ((lens 0 0 29 0).val .em) 239
        (lens 0 0 29 0).slen.toNat := by
  constructor
  · obtain ⟨em, h⟩ := pss_encoding
    have hl : em.length = 30 := pssEncode_length h
    have hv : ({ State.reset with em := Buffer.ofBytes em } : State).val .em = em := State.val_of_buf rfl (by omega)
    refine ⟨{ State.reset with em := Buffer.ofBytes em }, Nat.zero_le _, ?_, by decide, ?_⟩
    · rw [← State.val_length, hv, hl]; decide
    · rw [hv]; exact pssAccepts_of_encode h
  · rintro ⟨_, _, _, _, _, h, _⟩
    revert h
    decide

theorem witness_PssRoundTrip : ∃ em, pssEncode (Config.digest .sha224) [] 239 0 (.fixed []) = .ok em := pss_encoding

/-- A clause each: a modulus of 240 bits, a zero one, one of 232 bits, a salt of one octet. -/
theorem witness_PssSignCompletes :
    30 = (bitLength (withModulus (2 ^ 239) (lens 0 0 0 0)).privKey.n + 7) / 8
      ∧ 239 = bitLength (withModulus (2 ^ 239) (lens 0 0 0 0)).privKey.n - 1
      ∧ (withModulus (2 ^ 239) (lens 0 0 0 0)).privKey.n < 2 ^ 4096
      ∧ (withModulus (2 ^ 239) (lens 0 0 0 0)).privKey.n ≠ 0
      ∧ (lens 0 0 0 0).digest.hLen + (lens 0 0 0 0).slen.toNat + 2 ≤ (239 + 7) / 8
      ∧ (lens 0 0 0 0).privKey.n = 0 ∧ 231 = bitLength (withModulus (2 ^ 231) (lens 0 0 0 0)).privKey.n - 1
      ∧ (231 + 7) / 8 < (lens 0 0 0 0).digest.hLen + (lens 0 0 0 0).slen.toNat + 2
      ∧ (lens 0 1 0 0).bufLen .aux ≠ (lens 0 1 0 0).slen.toNat := by decide +kernel

/-- The first clause: exponent 1 and an encoding as signature. The second, each case: 29 octets; a representative equal to
the modulus; a modulus of one bit, where nothing is an encoding. -/
theorem witness_PssVerifyCompletes :
    (∃ (s : State) (em : Bytes), s.bufLen .msg ≤ 4096 ∧ s.bufLen .aux ≤ 512 ∧ s.keys.n.toNat ≠ 0
        ∧ s.bufLen .aux = (bitLength s.keys.n.toNat + 7) / 8 ∧ os2ip (s.val .aux) < s.keys.n.toNat
        ∧ os2ip em = os2ip (s.val .aux) ^ s.keys.e.toNat % s.keys.n.toNat
        ∧ PssAccepts s.digest (s.val .msg) em (bitLength s.keys.n.toNat - 1) s.slen.toNat)
      ∧ (withModulus (2 ^ 239) (lens 0 29 0 0)).bufLen .aux
        ≠ (bitLength (withModulus (2 ^ 239) (lens 0 29 0 0)).keys.n.toNat + 7) / 8
      ∧ (withModulus 1 (withMsgAux [] [1])).keys.n.toNat ≤ os2ip ((withModulus 1 (withMsgAux [] [1])).val .aux)
      ∧ ∀ em, ¬ PssAccepts (Config.digest .sha224) [] em (bitLength 1 - 1) 0 := by
  refine ⟨?_, by decide +kernel, by decide +kernel, ?_⟩
  · obtain ⟨em, h⟩ := pss_encoding
    have hl : em.length = 30 := pssEncode_length h
    have hb : bitLength (2 ^ 239) = 240 := by decide +kernel
    have hlt : os2ip em < 2 ^ 239 := pssEncode_value_lt h
    have hn : (withModulus (2 ^ 239) (withMsgAux [] em)).keys.n.toNat = 2 ^ 239 := by
      show (2 ^ 239 : BigWord).toNat = _
      decide +kernel
    have he : (withModulus (2 ^ 239) (withMsgAux [] em)).keys.e.toNat = 1 := by
      show (1 : BigWord).toNat = _
      decide +kernel
    have hv : (withModulus (2 ^ 239) (withMsgAux [] em)).val .aux = em := State.val_of_buf rfl (by omega)
    refine ⟨withModulus (2 ^ 239) (withMsgAux [] em), em, ?_⟩
    have ha : (withModulus (2 ^ 239) (withMsgAux [] em)).bufLen .aux = 30 := by rw [← State.val_length, hv, hl]
    rw [hn, he, hv, ha, hb, Nat.pow_one, Nat.mod_eq_of_lt hlt]
    exact ⟨Nat.zero_le _, by decide, by decide +kernel, by decide, hlt, rfl, pssAccepts_of_encode h⟩
  · rintro em ⟨_, _, _, _, _, _, _, _, h, _⟩
    revert h
    decide

theorem witness_P1sEncCompletes :
    47 = State.reset.digest.infoPrefix.length + State.reset.digest.hLen ∧ 47 + 11 ≤ 58 ∧ 57 < 47 + 11
      ∧ (lens 4096 0 0 0).bufLen .msg ≤ 4096 := by decide

/-- A clause each: a modulus of 58 octets, a zero one, one of 57 octets. -/
theorem witness_Pkcs1SignCompletes :
    58 = (bitLength (withModulus (2 ^ 456) State.reset).privKey.n + 7) / 8
      ∧ (withModulus (2 ^ 456) State.reset).privKey.n < 2 ^ 4096 ∧ (withModulus (2 ^ 456) State.reset).privKey.n ≠ 0
      ∧ State.reset.digest.infoPrefix.length + State.reset.digest.hLen + 11 ≤ 58 ∧ State.reset.privKey.n = 0
      ∧ 57 = (bitLength (withModulus (2 ^ 455) State.reset).privKey.n + 7) / 8
      ∧ 57 < State.reset.digest.infoPrefix.length + State.reset.digest.hLen + 11 := by decide +kernel

/-- The first clause: exponent 1 and the encoding as signature. The second, each case: 57 octets; a representative equal
to the modulus; a modulus of one octet, where there is no encoding. -/
theorem witness_Pkcs1VerifyCompletes :
    (∃ (s : State) (em : Bytes), s.bufLen .msg ≤ 4096 ∧ s.bufLen .aux ≤ 512 ∧ s.keys.n.toNat ≠ 0
        ∧ 58 = (bitLength s.keys.n.toNat + 7) / 8 ∧ s.bufLen .aux = 58 ∧ os2ip (s.val .aux) < s.keys.n.toNat
        ∧ p1sEncode s.digest (s.val .msg) 58 = .ok em
        ∧ os2ip (s.val .aux) ^ s.keys.e.toNat % s.keys.n.toNat = os2ip em)
      ∧ (withModulus (2 ^ 456) (lens 0 57 0 0)).bufLen .aux ≠ 58
      ∧ (withModulus 1 (withMsgAux [] [1])).keys.n.toNat ≤ os2ip ((withModulus 1 (withMsgAux [] [1])).val .aux)
      ∧ p1sEncode (Config.digest .sha224) [] 1 = .error .encodingError := by
  refine ⟨?_, by decide +kernel, by decide +kernel, rfl⟩
  obtain ⟨em, h⟩ := p1s_encoding
  have hl : em.length = 58 := p1sEncode_length h
  have hk : kOf (2 ^ 456) = 58 := by decide +kernel
  have hlt : os2ip em < 2 ^ 456 := p1sEncode_value_lt (n := 2 ^ 456) (by decide +kernel) (by rw [hk]; exact h)
  have hn : (withModulus (2 ^ 456) (withMsgAux [] em)).keys.n.toNat = 2 ^ 456 := by
    show (2 ^ 456 : BigWord).toNat = _
    decide +kernel
  have he : (withModulus (2 ^ 456) (withMsgAux [] em)).keys.e.toNat = 1 := by
    show (1 : BigWord).toNat = _
    decide +kernel
  have hv : (withModulus (2 ^ 456) (withMsgAux [] em)).val .aux = em := State.val_of_buf rfl (by omega)
  refine ⟨withModulus (2 ^ 456) (withMsgAux [] em), em, ?_⟩
  have ha : (withModulus (2 ^ 456) (withMsgAux [] em)).bufLen .aux = 58 := by rw [← State.val_length, hv, hl]
  rw [hn, he, hv, ha, Nat.pow_one, Nat.mod_eq_of_lt hlt]
  exact ⟨Nat.zero_le _, by decide, by decide +kernel, hk.symm, rfl, hlt, h, rfl⟩

/-- The Mersenne prime `2^521 - 1` and 3 as key pair, in either private-key form, with the exponent 65537. -/
def mersenneKey (kf : KeyForm) (aux : Bytes) : State :=
  { withMsgAux [0x68, 0x69] aux with
    cfg := ⟨.sha224, kf⟩
    keys := ⟨3 * (2 ^ 521 - 1), 65537, 3 * (2 ^ 521 - 1), mersenneD, 2 ^ 521 - 1, 3, mersenneD, 1, (2 ^ 522 - 1) / 3⟩ }
where
  /-- The inverse of 65537 modulo `2^521 - 2`. -/
  mersenneD : BigWord := 5155328233496318390256865764810548697290840245466729669258087920880340553538954146776874404297340568416582885358721232128614872261196790492751513654940106623

theorem mersenne_prime : Nat.Prime (2 ^ 521 - 1) :=
  lucas_lehmer_sufficiency 521 (by norm_num) (by norm_num)

/-- The key pair belongs together, in both private-key forms. -/
theorem mersenne_pair (kf : KeyForm) (aux : Bytes) :
    RsaPair (mersenneKey kf aux).pubKey (mersenneKey kf aux).privKey := by
  refine ⟨2 ^ 521 - 1, 3, mersenneKey.mersenneD.toNat, mersenne_prime, Nat.prime_three, by decide +kernel,
    by decide +kernel, by decide, ?_, ?_, ?_⟩
  · show (3 * (2 ^ 521 - 1) : BigWord).toNat = _
    decide +kernel
  · show (65537 : BigWord).toNat * mersenneKey.mersenneD.toNat % _ = 1
    decide +kernel
  · cases kf with
    | modulus =>
      left
      show PrivKey.modulus (3 * (2 ^ 521 - 1) : BigWord).toNat _ = _
      rw [show (3 * (2 ^ 521 - 1) : BigWord).toNat = (2 ^ 521 - 1) * 3 from by decide +kernel]
      rfl
    | crt =>
      right
      refine ⟨((2 ^ 522 - 1) / 3 : BigWord).toNat, by decide +kernel, ?_⟩
      show PrivKey.crt (2 ^ 521 - 1 : BigWord).toNat (3 : BigWord).toNat mersenneKey.mersenneD.toNat (1 : BigWord).toNat _ = _
      rw [show (2 ^ 521 - 1 : BigWord).toNat = 2 ^ 521 - 1 from by decide +kernel,
        show (3 : BigWord).toNat = 3 from by decide +kernel, show (1 : BigWord).toNat = 1 from by decide +kernel,
        show mersenneKey.mersenneD.toNat % (2 ^ 521 - 1 - 1) = mersenneKey.mersenneD.toNat from by decide +kernel,
        show mersenneKey.mersenneD.toNat % (3 - 1) = 1 from by decide +kernel]
      rfl

/-- Both schemes and both key forms: OAEP in CRT form with a supplied seed, PKCS#1 v1.5 in modulus form. -/
theorem witness_EncryptDecryptRoundTrip :
    (∃ t, RsaPair (mersenneKey .crt (zeros 28)).pubKey (mersenneKey .crt (zeros 28)).privKey
        ∧ exec (.oaepEncrypt true) (mersenneKey .crt (zeros 28)) = .next t ∧ t.status.err = none)
      ∧ ∃ t, RsaPair (mersenneKey .modulus (rep 1 61)).pubKey (mersenneKey .modulus (rep 1 61)).privKey
        ∧ exec (.pkcs1Encrypt true) (mersenneKey .modulus (rep 1 61)) = .next t ∧ t.status.err = none := by
  refine ⟨?_, _, mersenne_pair _ _, rfl, by decide +kernel⟩
  generalize hs : mersenneKey .crt (zeros 28) = s
  have hk : kOf s.pubKey.n = 66 := by subst hs; decide +kernel
  have hn : s.pubKey.n ≠ 0 := by subst hs; decide +kernel
  have hc : (s.overCap .msg || s.overCap .lbl || s.fixOverCap true) = false := by subst hs; decide +kernel
  have hseed := oaepSeed_padSource (s := s) (fix := true) (fun _ => by subst hs; decide +kernel)
  obtain ⟨_, _, _, _, h⟩ := oaepEncode_total (D := s.digest) (digest_hLen_pos s) (by subst hs; decide +kernel) (k := 66)
    (by decide) (m := s.val .msg) (s.val .lbl) hseed (by subst hs; decide +kernel)
  have hop : ∃ c, s.oaepEncryptOp true = .ok c := by
    rw [State.oaepEncryptOp, if_neg (by simp [hc])]
    simp only [pubKey_check_ok hn, bind, Except.bind, hk, h]
    exact ⟨_, encryptEm_of_lt (oaepEncode_value_lt hn (by rw [hk]; exact h))⟩
  obtain ⟨c, hop⟩ := hop
  exact ⟨_, hs ▸ mersenne_pair _ _, rfl, by simp only [hop]; rfl⟩

/-- Both schemes and both key forms: PSS in CRT form with the empty salt, PKCS#1 v1.5 in modulus form. -/
theorem witness_SignVerifyRoundTrip :
    (∃ t, RsaPair (mersenneKey .crt []).pubKey (mersenneKey .crt []).privKey
        ∧ exec (.pssSign true) (mersenneKey .crt []) = .next t ∧ t.status.err = none)
      ∧ ∃ t, RsaPair (mersenneKey .modulus []).pubKey (mersenneKey .modulus []).privKey
        ∧ exec .pkcs1Sign (mersenneKey .modulus []) = .next t ∧ t.status.err = none := by
  constructor
  · generalize hs : mersenneKey .crt [] = s
    have hb : emBitsOf s.privKey.n = 522 := by subst hs; decide +kernel
    have hn : s.privKey.n ≠ 0 := by subst hs; decide +kernel
    have hw : s.privKey.n < 2 ^ 4096 := by subst hs; decide +kernel
    have hc : (s.overCap .msg || s.fixOverCap true) = false := by subst hs; decide +kernel
    have hsalt := pssSalt_padSource (s := s) (fix := true) (fun _ => by subst hs; decide +kernel)
    obtain ⟨_, _, h⟩ := pssEncode_total (D := s.digest) (digest_hLen_pos s) (m := s.val .msg) (emBits := 522)
      (by decide) hsalt (by subst hs; decide +kernel)
    have hop : ∃ c, s.pssSignOp true = .ok c := by
      rw [State.pssSignOp, if_neg (by simp [hc])]
      simp only [privKey_check_ok hn hw, bind, Except.bind, hb, State.saltLen, h]
      exact ⟨_, signEm_of_lt (pssEncode_value_lt_modulus hn (by rw [hb]; exact h))⟩
    obtain ⟨c, hop⟩ := hop
    exact ⟨_, hs ▸ mersenne_pair _ _, rfl, by simp only [hop]; rfl⟩
  · generalize hs : mersenneKey .modulus [] = s
    have hk : kOf s.privKey.n = 66 := by subst hs; decide +kernel
    have hn : s.privKey.n ≠ 0 := by subst hs; decide +kernel
    have hw : s.privKey.n < 2 ^ 4096 := by subst hs; decide +kernel
    have hc : s.overCap .msg = false := by subst hs; decide +kernel
    have h := p1sEncode_eq_ok (D := s.digest) (m := s.val .msg) (n := 66) |>.mpr ⟨by subst hs; decide +kernel, rfl⟩
    have hop : ∃ c, s.pkcs1SignOp = .ok c := by
      rw [State.pkcs1SignOp, if_neg (by simp [hc])]
      simp only [privKey_check_ok hn hw, bind, Except.bind, hk, h]
      exact ⟨_, signEm_of_lt (p1sEncode_value_lt hn (by rw [hk]; exact h))⟩
    obtain ⟨c, hop⟩ := hop
    exact ⟨_, hs ▸ mersenne_pair _ _, rfl, by simp only [hop]; rfl⟩

end Sys2Proof.Tests
end

/-! ## The state and its flags (10_state.md): what an access, a step and a completion do -/

section
namespace Sys2Proof.Machine

/-! ### Accesses that reach a register -/

section Accesses

variable {s : State} {a : Offset} {k : RegionKind} {j : Nat}

/-- A write while idle has the effect of its register alone (20_memory.md R62). -/
theorem perform_write_idle (v : Word) (hr : reach .w32 a = some (k, j)) (hb : s.status.busy = false) :
    s.perform (.write .w32 a v) = (s.writeWord k j v, .written) := by
  simp [State.perform, hr, State.hostWrite, hb]

/-- A write while busy sets HZD and does nothing else (10_state.md R42). -/
theorem perform_write_busy (v : Word) (hr : reach .w32 a = some (k, j)) (hb : s.status.busy = true) :
    s.perform (.write .w32 a v) = (s.markHazard, .written) := by
  simp [State.perform, hr, State.hostWrite, hb]

/-- A read while idle, and a read of CMD or STATUS at any time, gives the word and changes nothing
(20_memory.md R61, 10_state.md R42). -/
theorem perform_read_normal (hr : reach .w32 a = some (k, j)) (h : s.status.busy = false ∨ k.readableBusy = true) :
    s.perform (.read .w32 a) = (s, .data (s.readWord k j)) := by
  have hc : (s.status.busy && !k.readableBusy) = false := by rcases h with h | h <;> simp [h]
  simp [State.perform, hr, State.hostRead, hc]

/-- A read of any other register while busy gives 0 and sets HZD (10_state.md R42). -/
theorem perform_read_hidden (hr : reach .w32 a = some (k, j)) (hb : s.status.busy = true)
    (hk : k.readableBusy = false) : s.perform (.read .w32 a) = (s.markHazard, .data 0) := by
  simp [State.perform, hr, State.hostRead, hb, hk]

/-- An aligned offset outside the unmapped ranges reaches a register (20_memory.md R66, R67). -/
theorem exists_reach (ha : a.toNat % 4 = 0) (hm : ¬ unmapped a.toNat) : ∃ k j, reach .w32 a = some (k, j) := by
  cases hl : locate a.toNat with
  | none =>
    have := locate_eq_none.mp hl
    have := a.isLt
    exact absurd (by unfold unmapped; omega) hm
  | some kj => exact ⟨kj.1, kj.2, reach_eq_some.mpr ⟨rfl, ha, hl⟩⟩

/-- CMD and STATUS are the only registers the host can read while busy, and they stand at 0x0000 and 0x0004
(20_memory.md R66, 10_state.md R42). -/
theorem readableBusy_of_reach (hr : reach .w32 a = some (k, j)) :
    k.readableBusy = true ↔ a = 0x0000 ∨ a = 0x0004 := by
  have hlow : ∀ r ∈ addressMap, r.kind.readableBusy = true ↔ r.base < 8 := by decide
  have hbounds : ∀ r ∈ addressMap, r.base < 8 ↔ r.base + r.size ≤ 8 := by decide
  obtain ⟨-, ha, hl⟩ := reach_eq_some.mp hr
  obtain ⟨r, hm, rfl, h1, h2, -⟩ := locate_eq_some hl
  rw [hlow r hm]
  have := hbounds r hm
  constructor
  · intro h
    have h8 : a.toNat = 0 ∨ a.toNat = 4 := by omega
    exact h8.imp (fun h => BitVec.eq_of_toNat_eq h) (fun h => BitVec.eq_of_toNat_eq h)
  · rintro (rfl | rfl) <;> simp at h1 <;> omega

theorem reach_cmd : reach .w32 0x0000 = some (.control .cmd, 0) := by decide
theorem reach_status : reach .w32 0x0004 = some (.control .status, 0) := by decide
theorem reach_cfg : reach .w32 0x0008 = some (.control .cfg, 0) := by decide
theorem reach_slen : reach .w32 0x000C = some (.control .slen, 0) := by decide
theorem reach_length (b : BufName) : reach .w32 (BitVec.ofNat 16 (lenOffset b)) = some (.length b, 0) := by
  cases b <;> decide

end Accesses

/-! ### What a step can do -/

/-- The state a turn starts from: its own entry taken off the schedule. -/
def State.nextTurn (s : State) : State := { s with script := s.script.tail }

@[simp] theorem State.nextTurn_status (s : State) : s.nextTurn.status = s.status := rfl

theorem State.nextTurn_of_nil {s : State} (h : s.script = []) : s.nextTurn = s := by
  cases s
  cases h
  rfl

/-- Everything a step can be: a completion, an idle turn of the command unit, an access, or a reset
(00_scope.md R15, 10_state.md R40, 70_reset_and_hazards.md R260; log 1). -/
inductive Steps (s t : State) : Prop
  | completion (turn : s.script.head? = none ∨ s.script.head? = some .commandUnit) (busy : s.status.busy = true)
    (eq : s.nextTurn.complete = .next t)
  | idle (turn : s.script.head? = none ∨ s.script.head? = some .commandUnit) (busy : s.status.busy = false)
    (eq : t = s.nextTurn)
  | host (a : Access) (turn : s.script.head? = some (.host a)) (eq : t = s.nextTurn.hostTurn a)
  | reset (turn : s.script.head? = some .reset) (eq : t = s.nextTurn.resetTurn)

/-- A turn of the command unit. -/
theorem steps_of_unitTurn {s t : State} (turn : s.script.head? = none ∨ s.script.head? = some .commandUnit)
    (h : s.nextTurn.unitTurn = .next t) : Steps s t := by
  unfold State.unitTurn at h
  split at h
  · next hb => exact .completion turn hb h
  · next hb => exact .idle turn (Bool.eq_false_iff.mpr hb) (next_inj h).symm

theorem step_cases {s t : State} (h : step s = .next t) : Steps s t := by
  unfold step State.turn at h
  split at h
  · next hs => exact steps_of_unitTurn (.inl (by simp [hs])) (by rwa [State.nextTurn_of_nil hs])
  · next rest hs => exact steps_of_unitTurn (.inr (by simp [hs])) (by simpa [State.nextTurn, hs] using h)
  · next a rest hs => exact .host a (by simp [hs]) (by simpa [State.nextTurn, hs] using (next_inj h).symm)
  · next rest hs => exact .reset (by simp [hs]) (by simpa [State.nextTurn, hs] using (next_inj h).symm)

/-- A step with an access next is that access. -/
theorem step_host {s t : State} {a : Access} (hs : s.script.head? = some (.host a)) (h : step s = .next t) :
    t = s.nextTurn.hostTurn a := by
  cases step_cases h with
  | completion turn _ _ => simp [hs] at turn
  | idle turn _ _ => simp [hs] at turn
  | host b turn eq => rw [eq, show b = a by simpa [hs] using turn.symm]
  | reset turn _ => simp [hs] at turn

/-- A step with a reset next is that reset. -/
theorem step_reset {s t : State} (hs : s.script.head? = some .reset) (h : step s = .next t) :
    t = s.nextTurn.resetTurn := by
  cases step_cases h with
  | completion turn _ _ => simp [hs] at turn
  | idle turn _ _ => simp [hs] at turn
  | host a turn _ => simp [hs] at turn
  | reset _ eq => exact eq

/-- A completion step takes IllegalCommand or executes a command (30_encoding.md R86, 10_state.md R40). -/
theorem complete_cases {s t : State} (h : s.complete = .next t) : t = s.raiseIllegal ∨ ∃ i, exec i s = .next t := by
  unfold State.complete at h
  split at h
  · exact .inl (next_inj h).symm
  · next i _ => exact .inr ⟨i, h⟩

/-! ### The invariant -/

theorem inv_iff (s : State) : s.inv = true ↔ (∀ b, (s.buf b).wf b.cap = true) ∧ s.status.wf = true := by
  constructor
  · intro h
    simp only [State.inv, Bool.and_eq_true] at h
    obtain ⟨⟨⟨⟨⟨hmsg, hlbl⟩, haux⟩, hem⟩, hout⟩, hst⟩ := h
    exact ⟨fun b => by cases b <;> assumption, hst⟩
  · rintro ⟨hb, hst⟩
    simp only [State.inv, Bool.and_eq_true]
    exact ⟨⟨⟨⟨⟨hb .msg, hb .lbl⟩, hb .aux⟩, hb .em⟩, hb .out⟩, hst⟩

/-- Replacing one buffer by a well-formed one keeps all buffers well-formed. -/
theorem buffers_wf_setBuf {s : State} {b : BufName} {x : Buffer} (hx : x.wf b.cap = true)
    (h : ∀ c, (s.buf c).wf c.cap = true) (c : BufName) : ((s.setBuf b x).buf c).wf c.cap = true := by
  by_cases hc : c = b
  · subst hc; rw [State.buf_setBuf_self]; exact hx
  · rw [State.buf_setBuf_of_ne _ _ _ _ hc]; exact h c

/-- No command reports MaskTooLong (60_exceptions.md R230). -/
theorem maskTooLong_not_mem_mayReport (i : Instr) : ErrKind.maskTooLong ∉ mayReport i := by
  cases i <;> simp [mayReport]

theorem doneFlags_wf_of_error (s : State) {e : ErrKind} (h : e ≠ .maskTooLong) :
    (doneFlags s false (some e)).wf = true := by
  simp [doneFlags, Status.wf, h]

theorem doneFlags_wf_ok (s : State) (v : Bool) : (doneFlags s v none).wf = true := by
  simp [doneFlags, Status.wf]

/-- A command keeps the invariant, whatever the flags were before it. -/
theorem exec_keeps_inv {i : Instr} {s t : State} (hs : s.inv = true) (h : exec i s = .next t) : t.inv = true := by
  obtain ⟨hb, -⟩ := (inv_iff s).mp hs
  rw [inv_iff]
  have empty := fun b : BufName => Buffer.wf_empty b.cap
  cases exec_cases h with
  | failure e kind eq =>
    subst eq
    refine ⟨fun b => ?_, doneFlags_wf_of_error s fun he => maskTooLong_not_mem_mayReport i (he ▸ kind)⟩
    cases b <;> simp only [State.failed, State.buf]
    case em => split; exacts [empty .em, hb .em]
    case out => split; exacts [empty .out, hb .out]
    all_goals exact hb _
  | out x n len pv dest layer eq =>
    subst eq
    exact ⟨buffers_wf_setBuf (b := .out) (Buffer.wf_ofBytes len) hb, doneFlags_wf_ok s false⟩
  | schemeOut x n len pv dest layer eq =>
    subst eq
    exact ⟨buffers_wf_setBuf (b := .em) (empty .em) (buffers_wf_setBuf (b := .out) (Buffer.wf_ofBytes len) hb),
      doneFlags_wf_ok s false⟩
  | em x n len pv dest layer eq =>
    subst eq
    exact ⟨buffers_wf_setBuf (b := .em) (Buffer.wf_ofBytes len) hb, doneFlags_wf_ok s false⟩
  | xi x pv dest layer eq =>
    subst eq
    exact ⟨hb, doneFlags_wf_ok s false⟩
  | accept pv layer eq =>
    subst eq
    exact ⟨hb, doneFlags_wf_ok s true⟩
  | schemeAccept pv layer eq =>
    subst eq
    exact ⟨buffers_wf_setBuf (b := .em) (empty .em) hb, doneFlags_wf_ok s true⟩
  | clear sel instr eq =>
    subst eq
    exact ⟨fun b => by cases b <;> exact empty _, doneFlags_wf_ok s false⟩

theorem raiseIllegal_keeps_inv {s : State} (hs : s.inv = true) : s.raiseIllegal.inv = true := by
  obtain ⟨hb, -⟩ := (inv_iff s).mp hs
  exact (inv_iff _).mpr ⟨hb, doneFlags_wf_of_error s (by decide)⟩

/-- A launch makes the flags those of a busy CKPAD, whatever they were (10_state.md R39). -/
theorem Status.launched_wf (f : Status) : f.launched.wf = true := rfl

/-- A write of STATUS reaches HZD alone (10_state.md R34), which the invariant does not restrict. -/
theorem Status.hostWrite_wf (f : Status) (w : Word) : (f.hostWrite w).wf = f.wf := by
  unfold Status.hostWrite
  split <;> rfl

/-- A register write while idle keeps the invariant. -/
theorem writeWord_keeps_inv {s : State} {w : Width} {a : Offset} {k : RegionKind} {j : Nat} (v : Word)
    (hr : reach w a = some (k, j)) (hs : s.inv = true) : (s.writeWord k j v).inv = true := by
  obtain ⟨hb, hst⟩ := (inv_iff s).mp hs
  rw [inv_iff]
  cases k with
  | control c =>
    cases c with
    | cmd => exact ⟨hb, s.status.launched_wf⟩
    | status => exact ⟨hb, (s.status.hostWrite_wf v).trans hst⟩
    | cfg => exact ⟨hb, hst⟩
    | slen => exact ⟨hb, hst⟩
  | length b =>
    exact ⟨buffers_wf_setBuf (x := { s.buf b with len := v }) (hb b) hb, by simpa [State.writeWord, State.setLen]⟩
  | data b =>
    obtain ⟨x, he, -, hx⟩ := wf_setBufWord v (locate_data_lt (reach_eq_some.mp hr).2.2) (hb b)
    rw [State.writeWord, he]
    exact ⟨buffers_wf_setBuf hx hb, by simpa using hst⟩
  | integer r =>
    exact ⟨fun b => by cases b <;> simpa [State.writeWord, State.buf] using hb _, by simpa [State.writeWord]⟩

/-- HZD plays no part in the invariant. -/
theorem markHazard_inv (s : State) : s.markHazard.inv = s.inv := rfl

/-- An access keeps the invariant. -/
theorem perform_keeps_inv {s : State} (a : Access) (hs : s.inv = true) : (s.perform a).1.inv = true := by
  rcases perform_cases s a with h | ⟨-, h⟩ | ⟨-, w, x, v, k, j, -, hr, h⟩
  · rw [h]; exact hs
  · rw [h, markHazard_inv]; exact hs
  · rw [h]; exact writeWord_keeps_inv v hr hs

theorem reset_inv : State.reset.inv = true :=
  (inv_iff _).mpr ⟨fun b => by cases b <;> exact Buffer.wf_empty _, rfl⟩

/-- Settles O10: every buffer is empty, no flag is set. -/
theorem resetMeetsInvariant : Obligations.ResetMeetsInvariant := reset_inv

/-- Settles O11, by the cases of a step; the model's own fields play no part in the invariant. -/
theorem stepKeepsInvariant : Obligations.StepKeepsInvariant := by
  intro s t hs h
  have hs' : s.nextTurn.inv = true := hs
  cases step_cases h with
  | completion turn busy eq =>
    rcases complete_cases eq with rfl | ⟨i, hi⟩
    · exact raiseIllegal_keeps_inv hs'
    · exact exec_keeps_inv hs' hi
  | idle turn busy eq => subst eq; exact hs'
  | host a turn eq => subst eq; exact perform_keeps_inv a hs'
  | reset turn eq => subst eq; exact reset_inv

end Sys2Proof.Machine
end

/-! ## The registers as the host sees them (10_state.md sections 2, 5 and 7) -/

section
namespace Sys2Proof.Machine

/-! ### STATUS and CFG as words -/

theorem bitAt_getLsbD (b : Bool) (i j : Nat) (hj : j < 32) : (bitAt b i).getLsbD j = (decide (j = i) && b) := by
  rw [bitAt, BitVec.getLsbD_shiftLeft, BitVec.getLsbD_setWidth, BitVec.getLsbD_ofBool]
  by_cases h : j = i
  · simp [h, h ▸ hj]
  · simp [h]
    omega

/-- The low octet of STATUS holds the four flags (10_state.md R33). -/
theorem Status.word_getLsbD_flags (f : Status) (j : Nat) (hj : j < 8) :
    f.word.getLsbD j = ((decide (j = 0) && f.busy) || (decide (j = 1) && f.done) || (decide (j = 2) && f.valid)
      || (decide (j = 3) && f.hzd)) := by
  have h32 : j < 32 := by omega
  simp [Status.word, bitAt_getLsbD _ _ _ h32, hj]

/-- The other octets of STATUS hold the code of ERR (10_state.md R33). -/
theorem Status.word_getLsbD_err (f : Status) (i : Nat) (hi : i < 24) :
    f.word.getLsbD (8 + i) = (errCode f.err).getLsbD i := by
  have h32 : 8 + i < 32 := by omega
  have hi' : i < 32 := by omega
  have h1 : 8 + i ≠ 1 := by omega
  have h2 : 8 + i ≠ 2 := by omega
  have h3 : 8 + i ≠ 3 := by omega
  simp only [Status.word, BitVec.getLsbD_or, bitAt_getLsbD _ _ _ h32, BitVec.getLsbD_shiftLeft,
    BitVec.getLsbD_setWidth]
  simp [h32, hi', h1, h2, h3]

theorem Status.word_err (f : Status) : f.word.extractLsb' 8 8 = errCode f.err := by
  apply BitVec.eq_of_getLsbD_eq
  intro i hi
  rw [BitVec.getLsbD_extractLsb', f.word_getLsbD_err i (by omega), decide_eq_true hi, Bool.true_and]

theorem Status.word_reserved_low (f : Status) : f.word.extractLsb' 4 4 = 0 := by
  apply BitVec.eq_of_getLsbD_eq
  intro i hi
  rw [BitVec.getLsbD_extractLsb', f.word_getLsbD_flags _ (by omega)]
  interval_cases i <;> simp

/-- An error code has eight bits, so bits 31:16 read 0. -/
theorem Status.word_reserved_high (f : Status) : f.word.extractLsb' 16 16 = 0 := by
  apply BitVec.eq_of_getLsbD_eq
  intro i hi
  have e : 16 + i = 8 + (8 + i) := by omega
  rw [BitVec.getLsbD_extractLsb', e, f.word_getLsbD_err _ (by omega),
    BitVec.getLsbD_of_ge (errCode f.err) (8 + i) (by omega)]
  simp

theorem hashCode_hashOfCode : ∀ c : BitVec 2, hashCode (hashOfCode c) = c := by decide

/-- What a write of CFG stores and a read then gives: bits 1:0 and bit 8 (10_state.md R31). -/
theorem Cfg.word_ofWord (v : Word) : (Cfg.ofWord v).word = v &&& 0x00000103 := by
  have hk : ((Cfg.ofWord v).kform == .crt) = v.getLsbD 8 := by
    rw [Cfg.ofWord]
    cases v.getLsbD 8 <;> rfl
  apply BitVec.eq_of_getLsbD_eq
  intro i hi
  rw [Cfg.word, hk, show (Cfg.ofWord v).hash = hashOfCode (v.extractLsb' 0 2) from rfl, hashCode_hashOfCode,
    BitVec.getLsbD_or, bitAt_getLsbD _ _ _ hi, BitVec.getLsbD_and]
  interval_cases i <;> simp

theorem hashOfCode_eq_iff : ∀ (c : BitVec 2),
    (hashOfCode c = .sha224 ↔ c = 0) ∧ (hashOfCode c = .sha256 ↔ c = 1)
      ∧ (hashOfCode c = .sha384 ↔ c = 2) ∧ (hashOfCode c = .sha512 ↔ c = 3) := by decide

theorem Cfg.ofWord_kform_crt (v : Word) : (Cfg.ofWord v).kform = .crt ↔ v.getLsbD 8 = true := by
  rw [Cfg.ofWord]
  cases v.getLsbD 8 <;> simp

/-! ### Reset and capacities -/

/-- A reset turn empties every buffer and zeroes every integer register (10_state.md R41). -/
theorem resetTurn_registers (s : State) :
    (∀ b, s.resetTurn.bufLen b = 0 ∧ ∀ i, s.resetTurn.octet b i = 0) ∧ ∀ r, s.resetTurn.intReg r = 0 :=
  ⟨fun b => by cases b <;> exact ⟨rfl, fun _ => rfl⟩, fun r => by cases r <;> rfl⟩

theorem reset_status_word : State.reset.status.word = 0 := by decide

theorem reset_cfg_word : State.reset.cfg.word = 0 := by decide

theorem cap_lt (b : BufName) : b.cap < 2 ^ 32 := by cases b <;> decide

/-! ### The obligations about registers -/

/-- Settles O12: each access while busy by the rule of its kind; only CMD and STATUS are readable. -/
theorem busyAccessOnlyMarksHazard : Obligations.BusyAccessOnlyMarksHazard := by
  intro s a v hb ha hm
  obtain ⟨k, j, hr⟩ := exists_reach ha hm
  refine ⟨?_, ?_, fun h0 h4 => ?_, ?_⟩
  · rintro rfl; exact perform_read_normal reach_cmd (.inr rfl)
  · rintro rfl; exact perform_read_normal reach_status (.inr rfl)
  · have hk : ¬ k.readableBusy = true := fun hk => ((readableBusy_of_reach hr).mp hk).elim h0 h4
    exact perform_read_hidden hr hb (Bool.eq_false_iff.mpr hk)
  · rw [perform_write_busy v hr hb]; rfl

/-- Settles O6: a write of CMD is the launch while idle and is dropped while busy. -/
theorem launchLatchesWord : Obligations.LaunchLatchesWord := by
  intro s w
  constructor
  · intro hb; rw [perform_write_idle w reach_cmd hb]; rfl
  · intro hb; rw [perform_write_busy w reach_cmd hb]; rfl

/-- Settles O8: the reset state is itself what a reset turn leads to, and a step with a reset next is a reset turn. -/
theorem resetRestoresResetValues : Obligations.ResetRestoresResetValues := by
  intro t ht
  have hreset : ∃ s : State, t = s.resetTurn := by
    rcases ht with rfl | ⟨s, rest, hs, h⟩
    · exact ⟨State.reset, rfl⟩
    · exact ⟨_, step_reset (by rw [hs]; rfl) h⟩
  obtain ⟨s, rfl⟩ := hreset
  obtain ⟨hbufs, hints⟩ := resetTurn_registers s
  exact ⟨hbufs, hints, rfl, reset_status_word, rfl, reset_cfg_word, rfl, rfl, rfl⟩

/-- Settles O17: each register by its place in the map. -/
theorem configurationRegistersStore : Obligations.ConfigurationRegistersStore := by
  intro s v hb
  obtain ⟨h224, h256, h384, h512⟩ := hashOfCode_eq_iff (v.extractLsb' 0 2)
  refine ⟨⟨Cfg.ofWord v, ?_, Cfg.word_ofWord v, h224, h256, h384, h512, Cfg.ofWord_kform_crt v⟩,
    perform_read_normal reach_cfg (.inl hb), ?_, perform_read_normal reach_slen (.inl hb), fun b => ⟨?_, ?_⟩⟩
  · rw [perform_write_idle v reach_cfg hb]; rfl
  · rw [perform_write_idle v reach_slen hb]; rfl
  · rw [perform_write_idle v (reach_length b) hb]; rfl
  · exact perform_read_normal (reach_length b) (.inl hb)

/-- Settles O18: bit by bit, from the places of the fields. -/
theorem statusWordLayout : Obligations.StatusWordLayout := by
  intro s
  have flag := s.status.word_getLsbD_flags
  refine ⟨perform_read_normal reach_status (.inr rfl), (flag 0 (by decide)).trans ?_, (flag 1 (by decide)).trans ?_,
    (flag 2 (by decide)).trans ?_, (flag 3 (by decide)).trans ?_, s.status.word_reserved_low,
    s.status.word_reserved_high, ?_⟩
  · simp
  · simp
  · simp
  · simp
  · rw [Status.word_err]
    cases s.status.err with
    | none => rfl
    | some e => cases e <;> rfl

/-- Settles O31: the written buffer is `Buffer.ofBytes`, whose octets and length are those of the string. -/
theorem bufferWriteReplacesAll : Obligations.BufferWriteReplacesAll := by
  refine ⟨fun s b x hx => ?_, rfl, fun i => rfl⟩
  have hbuf : (s.writeBuf b x).buf b = Buffer.ofBytes x := State.buf_setBuf_self s b _
  have hlen : x.length < 2 ^ 32 := lt_of_le_of_lt hx (cap_lt b)
  refine ⟨rfl, ?_, State.val_of_buf hbuf hlen, fun i => ?_⟩
  · rw [State.bufLen, hbuf, Buffer.len_ofBytes hlen]
  · rw [State.octet, hbuf, Buffer.read_ofBytes]

end Sys2Proof.Machine
end

/-! ## What a command reads and what it leaves (10_state.md R23, R28, R34 to R37, R40) -/

section
namespace Sys2Proof.Machine

/-! ### What every command leaves unchanged -/

/-- Settles O21: in every way of completing STATUS is written by the completion alone. -/
theorem completionFlags : Obligations.CompletionFlags := by
  intro i s t h
  cases exec_cases h with
  | failure e kind eq =>
    subst eq
    exact ⟨rfl, rfl, rfl, rfl, rfl, rfl, fun hl => by simp [State.failed, hl]⟩
  | out x n len pv dest layer eq =>
    subst eq
    exact ⟨rfl, rfl, rfl, rfl, rfl, rfl, fun hl => by simp [layer] at hl⟩
  | schemeOut x n len pv dest layer eq => subst eq; exact ⟨rfl, rfl, rfl, rfl, rfl, rfl, fun _ => ⟨rfl, rfl⟩⟩
  | em x n len pv dest layer eq =>
    subst eq
    exact ⟨rfl, rfl, rfl, rfl, rfl, rfl, fun hl => by simp [layer] at hl⟩
  | xi x pv dest layer eq => subst eq; exact ⟨rfl, rfl, rfl, rfl, rfl, rfl, fun hl => by simp [layer] at hl⟩
  | accept pv layer eq => subst eq; exact ⟨rfl, rfl, rfl, rfl, rfl, rfl, fun hl => by simp [layer] at hl⟩
  | schemeAccept pv layer eq => subst eq; exact ⟨rfl, rfl, rfl, rfl, rfl, rfl, fun _ => ⟨rfl, rfl⟩⟩
  | clear sel instr eq => subst eq; exact ⟨rfl, rfl, rfl, rfl, rfl, rfl, fun _ => ⟨rfl, rfl⟩⟩

/-- Settles O23: of the ways of completing, only CLEAR's writes more than OUT, EM, XI, STATUS and the draws. -/
theorem configurationPersists : Obligations.ConfigurationPersists := by
  intro i s t h
  cases exec_cases h
  case clear sel instr eq =>
    subst eq
    refine ⟨rfl, rfl, fun hi => absurd instr (hi sel), fun hi => ?_⟩
    cases sel with
    | false => rfl
    | true => exact absurd instr hi
  all_goals
    rename_i eq
    subst eq
    exact ⟨rfl, rfl, fun _ => ⟨rfl, rfl, rfl⟩, fun _ => rfl⟩

/-! ### A command as a result and its completion -/

/-- What a command computes before anything is written: CLEAR, or a result for OUT, EM, XI or the verdict, with the
draws it took. -/
inductive Result
  | clear (sel : Bool)
  | out (layer : Layer) (r : Except ErrKind Bytes) (draws : Nat)
  | em (r : Except ErrKind Bytes) (draws : Nat)
  | xi (r : Except ErrKind Nat)
  | verdict (layer : Layer) (r : Except ErrKind Bool)

/-- The result of a command in a state. -/
def resultOf (i : Instr) (s : State) : Result :=
  match i with
  | .clear sel => .clear sel
  | .i2osp sel len => if sel then .em (s.i2ospOp len) 0 else .out .component (s.i2ospOp len) 0
  | .os2ip sel => .xi (s.os2ipOp (os2ipSource sel))
  | .rsaep => .xi (s.publicOp .representativeOutOfRange)
  | .rsadp => .xi (s.privateOp .representativeOutOfRange)
  | .rsasp1 => .xi (s.privateOp .signatureOutOfRange)
  | .rsavp1 => .xi (s.publicOp .signatureOutOfRange)
  | .cmpem => .verdict .component s.cmpemOp
  | .mgf1 len => .out .component (s.mgf1Op len) 0
  | .oaepEnc fix len => .em (s.oaepEncOp fix len) (drawsTaken fix (s.oaepEncOp fix len))
  | .oaepDec len => .out .component (s.oaepDecOp len) 0
  | .oaepEncrypt fix => .out .scheme (s.oaepEncryptOp fix) (drawsTaken fix (s.oaepEncryptOp fix))
  | .oaepDecrypt => .out .scheme s.oaepDecryptOp 0
  | .p1eEnc fix len => .em (s.p1eEncOp fix len) (drawsTaken fix (s.p1eEncOp fix len))
  | .p1eDec len => .out .component (s.p1eDecOp len) 0
  | .pkcs1Encrypt fix => .out .scheme (s.pkcs1EncryptOp fix) (drawsTaken fix (s.pkcs1EncryptOp fix))
  | .pkcs1Decrypt => .out .scheme s.pkcs1DecryptOp 0
  | .pssEnc fix len => .em (s.pssEncOp fix len) (drawsTaken fix (s.pssEncOp fix len))
  | .pssVfy len => .verdict .component (s.pssVfyOp len)
  | .pssSign fix => .out .scheme (s.pssSignOp fix) (drawsTaken fix (s.pssSignOp fix))
  | .pssVerify => .verdict .scheme s.pssVerifyOp
  | .p1sEnc len => .em (s.p1sEncOp len) 0
  | .pkcs1Sign => .out .scheme s.pkcs1SignOp 0
  | .pkcs1Verify => .verdict .scheme s.pkcs1VerifyOp

/-- The completion with a result. -/
def State.finish (s : State) : Result → State
  | .clear sel => (if sel then { s.clearBuffers with keys := Keys.zero } else s.clearBuffers).retire false none
  | .out layer r n => (s.finishOut layer r).drew n
  | .em r n => (s.finishEm .component r).drew n
  | .xi r => s.finishXi r
  | .verdict layer r => s.finishVerdict layer r

/-- Every command computes its result and then completes with it. -/
theorem exec_eq_finish (i : Instr) (s : State) : exec i s = .next (s.finish (resultOf i s)) := by
  cases i
  case i2osp sel len => cases sel <;> rfl
  all_goals rfl

theorem resultOf_eq_clear {i : Instr} {s : State} {sel : Bool} (h : resultOf i s = .clear sel) : i = .clear sel := by
  cases i
  case clear b => cases h; rfl
  case i2osp b len => cases b <;> cases h
  all_goals cases h

/-! ### What a command reads -/

/-- Two states that agree on what a command reads: the strings in the buffers, AUX only where it is no unused seed,
`PS` or salt; XI, both keys in force, CFG, SLEN and the next draw. -/
structure SameReads (i : Instr) (s s' : State) : Prop where
  val : ∀ b, b ≠ .aux → s'.val b = s.val b
  aux : (i.opcode.hasFix = true → i.fix = true) → s'.val .aux = s.val .aux
  xi : s'.xi = s.xi
  pubKey : s'.pubKey = s.pubKey
  privKey : s'.privKey = s.privKey
  cfg : s'.cfg = s.cfg
  slen : s'.slen = s.slen
  draws : s'.draws = s.draws

section Reads

variable {i : Instr} {s s' : State}

theorem overCap_congr {b : BufName} (h : s'.val b = s.val b) : s'.overCap b = s.overCap b := by
  unfold State.overCap
  rw [← State.val_length s', ← State.val_length s, h]

theorem bufLen_congr {b : BufName} (h : s'.val b = s.val b) : s'.bufLen b = s.bufLen b := by
  rw [← State.val_length s', ← State.val_length s, h]

theorem SameReads.digest (h : SameReads i s s') : s'.digest = s.digest := by
  rw [State.digest, State.digest, h.cfg]

theorem SameReads.saltLen (h : SameReads i s s') : s'.saltLen = s.saltLen := congrArg BitVec.toNat h.slen

/-- With `FIX = 0` neither the capacity check nor the source looks at AUX (30_encoding.md R81). -/
theorem SameReads.pad {fix : Bool} (h : SameReads i s s') (hf : i.fix = fix) :
    s'.fixOverCap fix = s.fixOverCap fix ∧ s'.padSource fix = s.padSource fix := by
  cases fix with
  | false => exact ⟨rfl, congrArg PadSource.random h.draws⟩
  | true =>
    have haux := h.aux fun _ => hf
    exact ⟨overCap_congr haux, congrArg PadSource.fixed haux⟩

/-- A command's result depends on nothing but what it reads. -/
theorem resultOf_congr (h : SameReads i s s') : resultOf i s' = resultOf i s := by
  have msg := h.val .msg (by decide)
  have lbl := h.val .lbl (by decide)
  have em := h.val .em (by decide)
  have out := h.val .out (by decide)
  have digest := h.digest
  have salt := h.saltLen
  have pub := h.pubKey
  have priv := h.privKey
  have xi := h.xi
  cases i
  case clear => rfl
  case i2osp => simp only [resultOf, State.i2ospOp, xi]
  case os2ip sel =>
    have src := h.val (os2ipSource sel) (by cases sel <;> decide)
    simp only [resultOf, State.os2ipOp, overCap_congr src, bufLen_congr src, src]
  case rsaep | rsavp1 => simp only [resultOf, State.publicOp, pub, xi]
  case rsadp | rsasp1 => simp only [resultOf, State.privateOp, priv, xi]
  case cmpem => simp only [resultOf, State.cmpemOp, overCap_congr em, overCap_congr out, em, out]
  case mgf1 =>
    have aux := h.aux nofun
    simp only [resultOf, State.mgf1Op, overCap_congr aux, aux, digest]
  case oaepEnc fix len =>
    obtain ⟨cap, src⟩ := h.pad (fix := fix) rfl
    simp only [resultOf, State.oaepEncOp, overCap_congr msg, overCap_congr lbl, cap, src, msg, lbl, digest]
  case oaepDec => simp only [resultOf, State.oaepDecOp, overCap_congr em, overCap_congr lbl, em, lbl, digest]
  case oaepEncrypt fix =>
    obtain ⟨cap, src⟩ := h.pad (fix := fix) rfl
    simp only [resultOf, State.oaepEncryptOp, overCap_congr msg, overCap_congr lbl, cap, src, msg, lbl, digest, pub]
  case oaepDecrypt =>
    simp only [resultOf, State.oaepDecryptOp, overCap_congr msg, overCap_congr lbl, msg, lbl, digest, priv]
  case p1eEnc fix len =>
    obtain ⟨cap, src⟩ := h.pad (fix := fix) rfl
    simp only [resultOf, State.p1eEncOp, overCap_congr msg, cap, src, msg]
  case p1eDec => simp only [resultOf, State.p1eDecOp, overCap_congr em, em]
  case pkcs1Encrypt fix =>
    obtain ⟨cap, src⟩ := h.pad (fix := fix) rfl
    simp only [resultOf, State.pkcs1EncryptOp, overCap_congr msg, cap, src, msg, pub]
  case pkcs1Decrypt => simp only [resultOf, State.pkcs1DecryptOp, overCap_congr msg, msg, priv]
  case pssEnc fix len =>
    obtain ⟨cap, src⟩ := h.pad (fix := fix) rfl
    simp only [resultOf, State.pssEncOp, overCap_congr msg, cap, src, msg, digest, salt]
  case pssVfy => simp only [resultOf, State.pssVfyOp, overCap_congr msg, overCap_congr em, msg, em, digest, salt]
  case pssSign fix =>
    obtain ⟨cap, src⟩ := h.pad (fix := fix) rfl
    simp only [resultOf, State.pssSignOp, overCap_congr msg, cap, src, msg, digest, salt, priv]
  case pssVerify =>
    have aux := h.aux nofun
    simp only [resultOf, State.pssVerifyOp, overCap_congr msg, overCap_congr aux, msg, aux, digest, salt, pub]
  case p1sEnc => simp only [resultOf, State.p1sEncOp, overCap_congr msg, msg, digest]
  case pkcs1Sign => simp only [resultOf, State.pkcs1SignOp, overCap_congr msg, msg, digest, priv]
  case pkcs1Verify =>
    have aux := h.aux nofun
    simp only [resultOf, State.pkcs1VerifyOp, overCap_congr msg, overCap_congr aux, msg, aux, digest, pub]

/-- Two states that agree on what a command reads complete with one result. -/
theorem exec_congr {t : State} (h : SameReads i s s') (he : exec i s = .next t) :
    exec i s' = .next (s'.finish (resultOf i s)) ∧ t = s.finish (resultOf i s) := by
  rw [exec_eq_finish] at he ⊢
  exact ⟨by rw [resultOf_congr h], (next_inj he).symm⟩

end Reads

/-! ### Completions of states that differ in one field -/

section Finish

variable (s : State)

theorem finish_withStatus (f : Status) (r : Result) :
    ({ s with status := f } : State).finish r
      = { s.finish r with status := { (s.finish r).status with hzd := f.hzd } } := by
  cases r with
  | clear sel => cases sel <;> rfl
  | out l r n | verdict l r => cases r <;> cases l <;> rfl
  | em r n | xi r => cases r <;> rfl

theorem finish_withKeys (k : Keys) (r : Result) (hr : r ≠ .clear true) :
    ({ s with keys := k } : State).finish r = { s.finish r with keys := k } := by
  cases r with
  | clear sel =>
    cases sel with
    | false => rfl
    | true => exact absurd rfl hr
  | out l r n | verdict l r => cases r <;> cases l <;> rfl
  | em r n | xi r => cases r <;> rfl

theorem finish_withAux (x : Buffer) (r : Result) (hr : ∀ sel, r ≠ .clear sel) :
    ({ s with aux := x } : State).finish r = { s.finish r with aux := x } := by
  cases r with
  | clear sel => exact absurd rfl (hr sel)
  | out l r n | verdict l r => cases r <;> cases l <;> rfl
  | em r n | xi r => cases r <;> rfl

end Finish

/-- Settles O26: STATUS is not among what a command reads, and a completion writes all of it but HZD. -/
theorem noCommandReadsFlags : Obligations.NoCommandReadsFlags := by
  intro i s t f h
  have reads : SameReads i s { s with status := f } :=
    ⟨fun _ _ => rfl, fun _ => rfl, rfl, rfl, rfl, rfl, rfl, rfl⟩
  obtain ⟨he, rfl⟩ := exec_congr reads h
  rw [he, finish_withStatus]

/-- Settles O28: the unselected key form, and AUX with `FIX = 0`, are not among what a command reads, and no completion
but CLEAR's writes them. -/
theorem ignoredRegistersUnread : Obligations.IgnoredRegistersUnread := by
  intro i s t h
  constructor
  · intro k hi hn hE hmod hcrt
    have priv : ({ s with keys := k } : State).privKey = s.privKey := by
      cases hf : s.cfg.kform with
      | modulus => obtain ⟨hpn, hd⟩ := hmod hf; simp only [State.privKey, hf, hpn, hd]
      | crt => obtain ⟨hp, hq, hdp, hdq, hqinv⟩ := hcrt hf; simp only [State.privKey, hf, hp, hq, hdp, hdq, hqinv]
    have reads : SameReads i s { s with keys := k } :=
      ⟨fun _ _ => rfl, fun _ => rfl, rfl, by simp only [State.pubKey, hn, hE], priv, rfl, rfl, rfl⟩
    obtain ⟨he, rfl⟩ := exec_congr reads h
    rw [he, finish_withKeys s k _ fun hr => hi (resultOf_eq_clear hr)]
  · intro x hf hfix
    have val : ∀ b, b ≠ .aux → ({ s with aux := x } : State).val b = s.val b := by
      intro b hb
      cases b
      case aux => exact absurd rfl hb
      all_goals rfl
    have reads : SameReads i s { s with aux := x } :=
      ⟨val, fun ha => by simp [ha hf] at hfix, rfl, rfl, rfl, rfl, rfl, rfl⟩
    obtain ⟨he, rfl⟩ := exec_congr reads h
    rw [he, finish_withAux s x _ fun sel hr => by rw [resultOf_eq_clear hr] at hf; cases hf]

/-! ### States that differ past the lengths -/

section Below

variable {s s' : State}

/-- The strings in the buffers are the octets below the lengths (10_state.md R24). -/
theorem SameBelowLengths.val (h : SameBelowLengths s s') (b : BufName) : s'.val b = s.val b := by
  obtain ⟨hlen, hoct⟩ := h.1 b
  have hl : s'.bufLen b = s.bufLen b := by rw [State.bufLen, State.bufLen, hlen]
  rw [State.val, State.val, hl]
  exact List.map_congr_left fun i hi => (hoct i (List.mem_range.mp hi)).symm

theorem SameBelowLengths.reads (h : SameBelowLengths s s') (i : Instr) : SameReads i s s' := by
  have val := h.val
  obtain ⟨-, xi, keys, -, -, cfg, slen, draws, -, -⟩ := h
  exact ⟨fun b _ => val b, fun _ => val .aux, xi.symm, by simp only [State.pubKey, keys],
    by simp only [State.privKey, keys, cfg], cfg.symm, slen.symm, draws.symm⟩

theorem SameBelowLengths.setBuf (h : SameBelowLengths s s') (b : BufName) (x : Buffer) :
    SameBelowLengths (s.setBuf b x) (s'.setBuf b x) := by
  obtain ⟨hbufs, hrest⟩ := h
  refine ⟨fun c => ?_, by simpa using hrest⟩
  simp only [State.bufLen, State.octet]
  by_cases hc : c = b
  · subst hc
    simp only [State.buf_setBuf_self, implies_true, and_self]
  · simp only [State.buf_setBuf_of_ne _ _ _ _ hc]
    exact hbufs c

theorem SameBelowLengths.writeXi (h : SameBelowLengths s s') (x : Nat) :
    SameBelowLengths (s.writeXi x) (s'.writeXi x) := by
  obtain ⟨hbufs, -, hrest⟩ := h
  exact ⟨hbufs, rfl, hrest⟩

theorem SameBelowLengths.zeroKeys (h : SameBelowLengths s s') :
    SameBelowLengths { s with keys := Keys.zero } { s' with keys := Keys.zero } := by
  obtain ⟨hbufs, xi, -, hrest⟩ := h
  exact ⟨hbufs, xi, rfl, hrest⟩

theorem SameBelowLengths.retire (h : SameBelowLengths s s') (v : Bool) (e : Option ErrKind) :
    SameBelowLengths (s.retire v e) (s'.retire v e) := by
  obtain ⟨hbufs, xi, keys, cmdl, status, hrest⟩ := h
  exact ⟨hbufs, xi, keys, cmdl, congrArg (Status.completed · v e) status, hrest⟩

theorem SameBelowLengths.drew (h : SameBelowLengths s s') (n : Nat) : SameBelowLengths (s.drew n) (s'.drew n) := by
  obtain ⟨hbufs, xi, keys, cmdl, status, cfg, slen, draws, hrest⟩ := h
  exact ⟨hbufs, xi, keys, cmdl, status, cfg, slen, congrArg (· + n) draws, hrest⟩

theorem SameBelowLengths.clearDest (h : SameBelowLengths s s') (d : Dest) :
    SameBelowLengths (s.clearDest d) (s'.clearDest d) := by
  cases d with
  | out => exact h.setBuf .out _
  | em => exact h.setBuf .em _
  | xi => exact h.writeXi 0

theorem SameBelowLengths.discard (h : SameBelowLengths s s') (l : Layer) :
    SameBelowLengths (s.discard l) (s'.discard l) := by
  cases l with
  | component => exact h
  | scheme => exact (h.setBuf .em _).writeXi 0

theorem SameBelowLengths.finishBuf (h : SameBelowLengths s s') (l : Layer) (b : BufName) (d : Dest)
    (r : Except ErrKind Bytes) : SameBelowLengths (s.finishBuf l b d r) (s'.finishBuf l b d r) := by
  cases r with
  | error e => exact ((h.clearDest d).discard l).retire _ _
  | ok x => exact ((h.setBuf b _).discard l).retire _ _

theorem SameBelowLengths.finish (h : SameBelowLengths s s') (r : Result) :
    SameBelowLengths (s.finish r) (s'.finish r) := by
  cases r with
  | clear sel =>
    have cleared : SameBelowLengths s.clearBuffers s'.clearBuffers :=
      (((((h.setBuf .msg _).setBuf .lbl _).setBuf .aux _).setBuf .em _).setBuf .out _).writeXi 0
    cases sel with
    | false => exact cleared.retire _ _
    | true => exact cleared.zeroKeys.retire _ _
  | out l r n => exact (h.finishBuf l .out .out r).drew n
  | em r n => exact (h.finishBuf .component .em .em r).drew n
  | xi r =>
    cases r with
    | error e => exact (h.clearDest .xi).retire _ _
    | ok x => exact (h.writeXi x).retire _ _
  | verdict l r => cases r <;> exact (h.discard l).retire _ _

end Below

/-- Settles O27: the two states give one result, and completing with it keeps what they share. -/
theorem octetsPastLengthUnread : Obligations.OctetsPastLengthUnread := by
  intro i s s' t t' h ht ht'
  obtain ⟨he, rfl⟩ := exec_congr (h.reads i) ht
  obtain rfl := next_inj (he.symm.trans ht')
  exact h.finish _

end Sys2Proof.Machine
end

/-! ## The busy window and the hazard flag (10_state.md R34, R40, R42) -/

section
namespace Sys2Proof.Machine

/-! ### The busy window -/

/-- The state with another HZD and other answers: all that the host can change while busy (10_state.md R42). -/
def State.withHazard (s : State) (z : Bool) (rs : List Response) : State :=
  { s with status := { s.status with hzd := z }, responses := rs }

/-- However many accesses the host makes while busy, only HZD and the answers differ. -/
theorem foldl_hostTurn_busy {s : State} (h : s.status.busy = true) (as : List Access) :
    ∃ z rs, as.foldl State.hostTurn s = s.withHazard z rs := by
  induction as generalizing s with
  | nil => exact ⟨s.status.hzd, s.responses, rfl⟩
  | cons a as ih =>
    obtain ⟨z, r, h1⟩ := hostTurn_busy h a
    obtain ⟨z', rs, h2⟩ := ih (s := s.hostTurn a) (by rw [h1]; exact h)
    exact ⟨z', rs, by rw [List.foldl_cons, h2, h1]; rfl⟩

/-- A command keeps the schedule, so it commutes with a change of HZD and of the answers. -/
theorem exec_withHazard {i : Instr} {s t : State} (z : Bool) (rs : List Response) (h : exec i s = .next t) :
    exec i (s.withHazard z rs) = .next (t.withHazard z rs) := by
  obtain ⟨-, -, -, -, hscript, -⟩ := completionFlags i s t h
  have hhost := exec_withHost s.script rs h
  rw [show t.withHost s.script rs = t.withHost t.script rs by rw [hscript]] at hhost
  exact noCommandReadsFlags i (s.withHost s.script rs) (t.withHost t.script rs) { s.status with hzd := z } hhost

theorem complete_withHazard {s t : State} (z : Bool) (rs : List Response) (h : s.complete = .next t) :
    (s.withHazard z rs).complete = .next (t.withHazard z rs) := by
  unfold State.complete at h ⊢
  rw [show (s.withHazard z rs).cmdl = s.cmdl from rfl]
  cases hd : decode s.cmdl with
  | error e => rw [hd] at h; rw [← next_inj h]; rfl
  | ok i => rw [hd] at h; exact exec_withHazard z rs h

/-- Settles O20: the accesses change only HZD and the answers, and the completion commutes with that change. -/
theorem busyWindowLeavesResult : Obligations.BusyWindowLeavesResult := by
  intro s t as hb h
  obtain ⟨z, rs, hfold⟩ := foldl_hostTurn_busy hb as
  rw [hfold]
  exact complete_withHazard z rs h

/-! ### The hazard flag -/

/-- A completion step keeps HZD (10_state.md R34). -/
theorem complete_hzd {s t : State} (h : s.complete = .next t) : t.status.hzd = s.status.hzd := by
  rcases complete_cases h with rfl | ⟨i, hi⟩
  · rfl
  · obtain ⟨-, -, hhzd, -⟩ := completionFlags i s t hi
    exact hhzd

theorem Status.hostWrite_eq (f : Status) (v : Word) : f.hostWrite v = { f with hzd := f.hzd && !v.getLsbD 3 } := by
  unfold Status.hostWrite
  cases v.getLsbD 3 <;> simp

/-- Of the register writes only that of STATUS reaches HZD, and it only clears it (10_state.md R34). -/
theorem writeWord_hzd (s : State) (k : RegionKind) (j : Nat) (v : Word) :
    (s.writeWord k j v).status.hzd = (s.status.hzd && !(decide (k = .control .status) && v.getLsbD 3)) := by
  cases k with
  | control c =>
    cases c with
    | status => simp [State.writeWord, State.writeControl, Status.hostWrite_eq]
    | cmd => simp [State.writeWord, State.writeControl]
    | cfg => simp [State.writeWord, State.writeControl]
    | slen => simp [State.writeWord, State.writeControl]
  | length b => simp [State.writeWord, State.setLen]
  | data b => simp [State.writeWord, State.setBufWord, State.setOctet]
  | integer r => simp [State.writeWord]

/-- STATUS stands at 0x0004 alone (20_memory.md R66). -/
theorem eq_of_reach_status {w : Width} {a : Offset} {j : Nat} (h : reach w a = some (.control .status, j)) :
    w = .w32 ∧ a = 0x0004 := by
  obtain ⟨rfl, -, -⟩ := reach_eq_some.mp h
  refine ⟨rfl, ((readableBusy_of_reach h).mp rfl).resolve_left ?_⟩
  rintro rfl
  rw [reach_cmd] at h
  cases h

/-- An access clears HZD only as a write of STATUS while idle with bit 3 set. -/
theorem perform_clears_hzd {s : State} {a : Access} (h1 : s.status.hzd = true)
    (h0 : (s.perform a).1.status.hzd = false) :
    ∃ v, a = .write .w32 0x0004 v ∧ s.status.busy = false ∧ v.getLsbD 3 = true := by
  rcases perform_cases s a with h | ⟨-, h⟩ | ⟨hb, w, x, v, k, j, rfl, hr, h⟩
  · rw [h, h1] at h0; cases h0
  · rw [h] at h0; cases h0
  · rw [h, writeWord_hzd, h1] at h0
    obtain ⟨rfl, hv⟩ : k = .control .status ∧ v.getLsbD 3 = true := by simpa using h0
    obtain ⟨rfl, rfl⟩ := eq_of_reach_status hr
    exact ⟨v, rfl, hb, hv⟩

/-- An access sets HZD only while busy. -/
theorem perform_sets_hzd {s : State} {a : Access} (h0 : s.status.hzd = false)
    (h1 : (s.perform a).1.status.hzd = true) : s.status.busy = true := by
  rcases perform_cases s a with h | ⟨hb, -⟩ | ⟨-, w, x, v, k, j, -, -, h⟩
  · rw [h, h0] at h1; cases h1
  · exact hb
  · rw [h, writeWord_hzd, h0] at h1; cases h1

@[simp] theorem hostTurn_status (s : State) (a : Access) : (s.hostTurn a).status = (s.perform a).1.status := rfl

/-- Settles O19: a step changes HZD only by its access or its reset; a completion keeps it and no command reads it. -/
theorem hazardFlagRule : Obligations.HazardFlagRule := by
  refine ⟨fun s t h => ⟨?_, ?_, ?_, ?_, ?_, ?_⟩, ?_⟩
  · rintro w a hs hb rfl ha hm h0 h4
    obtain ⟨k, j, hr⟩ := exists_reach ha hm
    have hk : ¬ k.readableBusy = true := fun hk => ((readableBusy_of_reach hr).mp hk).elim h0 h4
    rw [step_host hs h, hostTurn_status, perform_read_hidden (s := s.nextTurn) hr hb (Bool.eq_false_iff.mpr hk)]
    rfl
  · rintro w a v hs hb rfl ha hm
    obtain ⟨k, j, hr⟩ := exists_reach ha hm
    rw [step_host hs h, hostTurn_status, perform_write_busy (s := s.nextTurn) v hr hb]
    rfl
  · intro v hs hb
    rw [step_host hs h, hostTurn_status, perform_write_idle (s := s.nextTurn) v reach_status hb]
    exact Status.hostWrite_eq _ v
  · intro hs
    rw [step_reset hs h]
    rfl
  · intro h1 h0
    cases step_cases h with
    | completion turn busy eq => rw [complete_hzd eq, State.nextTurn_status, h1] at h0; cases h0
    | idle turn busy eq => rw [eq, State.nextTurn_status, h1] at h0; cases h0
    | reset turn eq => exact .inl turn
    | host a turn eq =>
      obtain ⟨v, rfl, hb, hv⟩ := perform_clears_hzd (s := s.nextTurn) (a := a) h1
        (by rw [← hostTurn_status, ← eq, h0])
      exact .inr ⟨v, turn, hb, hv⟩
  · intro h0 h1
    cases step_cases h with
    | completion turn busy eq => rw [complete_hzd eq, State.nextTurn_status, h0] at h1; cases h1
    | idle turn busy eq => rw [eq, State.nextTurn_status, h0] at h1; cases h1
    | reset turn eq => rw [eq] at h1; cases h1
    | host a turn eq =>
      exact ⟨perform_sets_hzd (s := s.nextTurn) (a := a) h0 (by rw [← hostTurn_status, ← eq, h1]), a, turn⟩
  · intro i s t h he
    exact noCommandReadsFlags i s t { s.status with hzd := h } he

end Sys2Proof.Machine
end

/-! ## The register space (20_memory.md): where registers stand, and what words and limbs the host sees -/

section
namespace Sys2Proof.Machine

/-! ### Where the address map puts a region's words -/

/-- No two regions of the address map overlap (20_memory.md R66). -/
theorem addressMap_disjoint : ∀ r ∈ addressMap, ∀ r' ∈ addressMap,
    r = r' ∨ r.base + r.size ≤ r'.base ∨ r'.base + r'.size ≤ r.base := by decide

/-- Every region is aligned and lies in the 16-bit register space (20_memory.md R60, R66). -/
theorem addressMap_aligned : ∀ r ∈ addressMap, r.base % 4 = 0 ∧ r.base + r.size ≤ 2 ^ 16 := by decide

theorem bufRegion_mem (b : BufName) : ⟨bufBase b, b.cap, .data b⟩ ∈ addressMap := by cases b <;> decide

theorem intRegion_mem (r : IntReg) : ⟨intBase r, 512, .integer r⟩ ∈ addressMap := by cases r <;> decide

theorem lenRegion_mem (b : BufName) : ⟨lenOffset b, 4, .length b⟩ ∈ addressMap := by cases b <;> decide

/-- An offset in a region reaches that region: the map's search cannot stop at another. -/
theorem locate_of_holds {r : Region} {a : Nat} (hr : r ∈ addressMap) (h1 : r.base ≤ a) (h2 : a < r.base + r.size) :
    locate a = some (r.kind, (a - r.base) / 4) := by
  have hold : r.holds a = true := by simp [Region.holds, h1, h2]
  cases hf : addressMap.find? (fun r => r.holds a) with
  | none => exact absurd hold (List.find?_eq_none.mp hf r hr)
  | some r' =>
    have hr' := List.mem_of_find?_eq_some hf
    have hold' := List.find?_some hf
    simp only [Region.holds, Bool.and_eq_true, decide_eq_true_eq] at hold'
    obtain rfl : r = r' := (addressMap_disjoint r hr r' hr').resolve_right (by omega)
    simp [locate, hf]

theorem locate_word {r : Region} {j : Nat} (hr : r ∈ addressMap) (hj : 4 * j < r.size) :
    locate (r.base + 4 * j) = some (r.kind, j) := by
  rw [locate_of_holds hr (by omega) (by omega)]
  congr 2
  omega

/-- A 32-bit access at a word of a region reaches that word. -/
theorem reach_word {r : Region} {j : Nat} (hr : r ∈ addressMap) (hj : 4 * j < r.size) :
    reach .w32 (BitVec.ofNat 16 (r.base + 4 * j)) = some (r.kind, j) := by
  obtain ⟨hbase, hend⟩ := addressMap_aligned r hr
  have ha : (BitVec.ofNat 16 (r.base + 4 * j)).toNat = r.base + 4 * j := by
    rw [BitVec.toNat_ofNat, Nat.mod_eq_of_lt (by omega)]
  rw [reach_eq_some, ha]
  exact ⟨rfl, by omega, locate_word hr hj⟩

theorem reach_data {b : BufName} {j : Nat} (hj : 4 * j < b.cap) :
    reach .w32 (BitVec.ofNat 16 (bufBase b + 4 * j)) = some (.data b, j) := reach_word (bufRegion_mem b) hj

theorem reach_integer {r : IntReg} {j : Nat} (hj : j < 128) :
    reach .w32 (BitVec.ofNat 16 (intBase r + 4 * j)) = some (.integer r, j) :=
  reach_word (intRegion_mem r) (show 4 * j < 512 by omega)

/-! ### Accesses that reach nothing -/

theorem locate_of_unmapped {a : Nat} (h : unmapped a) : locate a = none := by
  unfold unmapped at h
  exact locate_eq_none.mpr (by omega)

/-- A wrong width, a misaligned offset and an unmapped one each reach nothing (20_memory.md R65, R67). -/
theorem reach_none_of_busError {w : Width} {a : Offset} (h : w ≠ .w32 ∨ a.toNat % 4 ≠ 0 ∨ unmapped a.toNat) :
    reach w a = none := by
  unfold reach
  split
  · next hw =>
    obtain ⟨hw32, ha⟩ := hw
    exact locate_of_unmapped ((h.resolve_left (not_not_intro hw32)).resolve_left (not_not_intro ha))
  · rfl

theorem perform_read_unreached {s : State} {w : Width} {a : Offset} (h : reach w a = none) :
    s.perform (.read w a) = (s, .busError) := by simp [State.perform, h]

theorem perform_write_unreached {s : State} {w : Width} {a : Offset} (v : Word) (h : reach w a = none) :
    s.perform (.write w a v) = (s, .busError) := by simp [State.perform, h]

/-! ### Octets of a written buffer word -/

theorem data_wf_of_inv {s : State} (h : s.inv = true) (b : BufName) : (s.buf b).data.wf = true := by
  have hb := ((inv_iff s).mp h).1 b
  rw [Buffer.wf, Bool.and_eq_true] at hb
  exact hb.1

theorem setOctet_data_wf {s : State} {b : BufName} (i : Nat) (v : Byte) (h : (s.buf b).data.wf = true) :
    ((s.setOctet b i v).buf b).data.wf = true := by
  rw [State.setOctet, State.buf_setBuf_self]
  exact Memory.wf_write i v h

/-- A written octet reads back and the others stay; canonical form is what makes the written cell the one read. -/
theorem octet_setOctet {s : State} {b : BufName} (i i' : Nat) (v : Byte) (h : (s.buf b).data.wf = true) :
    (s.setOctet b i v).octet b i' = if i' = i then v else s.octet b i' := by
  rw [State.octet, State.setOctet, State.buf_setBuf_self]
  split
  · next hi => rw [hi]; exact Memory.read_write_self i v h
  · next hi => exact Memory.read_write_of_ne i i' v hi h

/-- A written word's four octets, as the last of the four writes that reaches the octet read. -/
theorem octet_setBufWord {s : State} {b : BufName} (j i : Nat) (v : Word) (h : (s.buf b).data.wf = true) :
    (s.setBufWord b j v).octet b i =
      if i = 4 * j + 3 then v.extractLsb' 24 8 else if i = 4 * j + 2 then v.extractLsb' 16 8
      else if i = 4 * j + 1 then v.extractLsb' 8 8 else if i = 4 * j then v.extractLsb' 0 8 else s.octet b i := by
  have h1 := setOctet_data_wf (4 * j) (v.extractLsb' 0 8) h
  have h2 := setOctet_data_wf (4 * j + 1) (v.extractLsb' 8 8) h1
  have h3 := setOctet_data_wf (4 * j + 2) (v.extractLsb' 16 8) h2
  rw [State.setBufWord, octet_setOctet _ _ _ h3, octet_setOctet _ _ _ h2, octet_setOctet _ _ _ h1,
    octet_setOctet _ _ _ h]

/-- Octet `4j + l` of a written word is lane `l` (20_memory.md R63). -/
theorem octet_setBufWord_lane {s : State} {b : BufName} {l : Nat} (j : Nat) (v : Word) (hl : l < 4)
    (h : (s.buf b).data.wf = true) : (s.setBufWord b j v).octet b (4 * j + l) = v.extractLsb' (8 * l) 8 := by
  rw [octet_setBufWord _ _ _ h]
  interval_cases l <;> simp

theorem octet_setBufWord_outside {s : State} {b : BufName} {i j : Nat} (v : Word) (hi : i < 4 * j ∨ 4 * j + 4 ≤ i)
    (h : (s.buf b).data.wf = true) : (s.setBufWord b j v).octet b i = s.octet b i := by
  rw [octet_setBufWord _ _ _ h, if_neg (by omega), if_neg (by omega), if_neg (by omega), if_neg (by omega)]

/-! ### The obligations about the register space -/

/-- Settles O13: such an access reaches nothing, busy or not. -/
theorem busErrorChangesNothing : Obligations.BusErrorChangesNothing := by
  intro s w a v h
  exact ⟨perform_read_unreached (reach_none_of_busError h), perform_write_unreached v (reach_none_of_busError h)⟩

/-- Settles O14: each register is a region of the map, and a region is found at each of its words. -/
theorem addressMapPlacesRegisters : Obligations.AddressMapPlacesRegisters := by
  refine ⟨by decide, by decide, by decide, by decide, fun b => ?_, fun b j hj => locate_word (bufRegion_mem b) hj,
    fun r j hj => locate_word (intRegion_mem r) (show 4 * j < 512 by omega), fun a => locate_of_unmapped⟩
  exact locate_word (j := 0) (lenRegion_mem b) (by decide : 4 * 0 < 4)

/-- Settles O15: the replaced buffer is the one that four octet writes leave, read through the word's lanes. -/
theorem bufferWordLanes : Obligations.BufferWordLanes := by
  intro s b j v hinv hb hj
  have hr := reach_data hj
  have hwf := data_wf_of_inv hinv b
  obtain ⟨x, hx, hlen, -⟩ := wf_setBufWord v (locate_data_lt (reach_eq_some.mp hr).2.2) (((inv_iff s).mp hinv).1 b)
  have hread : ∀ i, x.data.read i = (s.setBufWord b j v).octet b i := by
    intro i; rw [hx, State.octet, State.buf_setBuf_self]
  refine ⟨⟨s.bufWord b j, perform_read_normal hr (.inl hb), bufWord_lane s b j⟩, x, ?_, hlen, ?_, ?_⟩
  · rw [perform_write_idle v hr hb]; exact hx
  · intro l hl; rw [hread, octet_setBufWord_lane j v hl hwf]
  · intro i hi; rw [hread, octet_setBufWord_outside v hi hwf]

/-- Settles O16: a limb is a digit of the register to the base `2^32`, and a write replaces that limb alone. -/
theorem integerLimbs : Obligations.IntegerLimbs := by
  intro s r j v hb hj
  have hr := reach_integer (r := r) hj
  refine ⟨?_, setLimb (s.intReg r) j v, ?_, fun k hk => ?_⟩
  · rw [perform_read_normal hr (.inl hb)]
    have hword : s.readWord (.integer r) j = BitVec.ofNat 32 ((s.intReg r).toNat / 2 ^ (32 * j)) :=
      BitVec.eq_of_toNat_eq ((limb_toNat _ _).trans (BitVec.toNat_ofNat _ _).symm)
    rw [hword]
  · rw [perform_write_idle v hr hb]; rfl
  · rw [← limb_toNat, limb_setLimb _ _ _ _ hj hk, ← limb_toNat]
    split <;> rfl

end Sys2Proof.Machine
end

/-! ## The encoding of commands (30_encoding.md R81 to R88) -/

section
namespace Sys2Proof

/-! ### Legal words -/

/-- The clauses of rule R85 for one mnemonic: its `OPC`, `RSV` 0, and every field its row does not list 0. -/
structure Opcode.Admits (o : Opcode) (w : Word) : Prop where
  opc : Field.opc w = o.code
  rsv : Field.rsv w = 0
  fix : o.hasFix = false → Field.fix w = false
  sel : o.hasSel = false → Field.sel w = false
  len : o.format = .n → Field.len w = 0

/-- What the decoder answers on a legal word. -/
theorem Opcode.Admits.decode_eq {o : Opcode} {w : Word} (h : o.Admits w) :
    decode w = .ok (o.build (Field.fix w) (Field.sel w) (Field.len w)) := by
  have hf : ¬ (Field.fix w = true ∧ o.hasFix = false) := fun ⟨hw, ho⟩ => by simp [h.fix ho] at hw
  have hs : ¬ (Field.sel w = true ∧ o.hasSel = false) := fun ⟨hw, ho⟩ => by simp [h.sel ho] at hw
  have hl : ¬ (Field.len w ≠ 0 ∧ o.format = .n) := fun ⟨hw, ho⟩ => hw (h.len ho)
  rw [decode, h.opc, Opcode.ofCode_code]
  simp only [h.rsv, ne_eq, not_true_eq_false, if_false, if_neg hf, if_neg hs, if_neg hl]

/-- The decoder answers a command only on a word its mnemonic admits, and the command's fields are the word's. -/
theorem admits_of_decode {w : Word} {i : Instr} (h : decode w = .ok i) :
    ∃ o : Opcode, o.Admits w ∧ i = o.build (Field.fix w) (Field.sel w) (Field.len w) := by
  unfold decode at h
  split at h
  · cases h
  next o ho =>
    split_ifs at h with hr hf hs hl
    cases h
    refine ⟨o, ⟨(Opcode.ofCode_eq_some ho).symm, not_not.mp hr, fun unlisted => ?_, fun unlisted => ?_,
      fun unused => ?_⟩, rfl⟩
    · simpa [unlisted] using hf
    · simpa [unlisted] using hs
    · simpa [unused] using hl

theorem Opcode.opcode_build (o : Opcode) (f g : Bool) (n : Nat) : (o.build f g n).opcode = o := by
  cases o <;> rfl

/-- A word decodes to a command of a mnemonic exactly when the mnemonic admits it. -/
theorem exists_decode_iff_admits {w : Word} {o : Opcode} :
    (∃ i, decode w = .ok i ∧ i.opcode = o) ↔ o.Admits w := by
  constructor
  · rintro ⟨i, hi, rfl⟩
    obtain ⟨o, ho, rfl⟩ := admits_of_decode hi
    rwa [Opcode.opcode_build]
  · intro h
    exact ⟨_, h.decode_eq, o.opcode_build _ _ _⟩

/-! ### Fields a row does not list -/

theorem Opcode.fix_build (o : Opcode) (f g : Bool) (n : Nat) : (o.build f g n).fix = (o.hasFix && f) := by
  cases o <;> rfl

theorem Opcode.sel_build (o : Opcode) (f g : Bool) (n : Nat) : (o.build f g n).sel = (o.hasSel && g) := by
  cases o <;> rfl

theorem Opcode.len_build (o : Opcode) (f g : Bool) (n : Nat) :
    (o.build f g n).len = if o.format = .n then 0 else n := by
  cases o <;> rfl

theorem Field.len_lt (w : Word) : Field.len w < 2 ^ 16 := (w.extractLsb' 16 16).isLt

/-- The command built from a word its mnemonic admits has the fields of the word: those its row drops were 0. -/
theorem Opcode.Admits.fields_build {o : Opcode} {w : Word} (h : o.Admits w) {i : Instr}
    (hi : i = o.build (Field.fix w) (Field.sel w) (Field.len w)) :
    i.opcode = o ∧ i.fix = Field.fix w ∧ i.sel = Field.sel w ∧ i.len = Field.len w := by
  subst hi
  refine ⟨o.opcode_build _ _ _, ?_, ?_, ?_⟩
  · rw [Opcode.fix_build]
    cases ho : o.hasFix with
    | false => exact (h.fix ho).symm
    | true => rfl
  · rw [Opcode.sel_build]
    cases ho : o.hasSel with
    | false => exact (h.sel ho).symm
    | true => rfl
  · rw [Opcode.len_build]
    split
    · next ho => exact (h.len ho).symm
    · rfl

/-! ### Decoding and encoding undo each other -/

/-- The word of a well-formed command is legal: a command is built from its own fields, and building drops every field
the row does not list (R82, R84). -/
theorem admits_encode {i : Instr} (h : i.wellFormed = true) : i.opcode.Admits (encode i) := by
  obtain ⟨hbuild, hopc, hrsv, hfix, hsel, hlen⟩ := Laws.Layout.holds i
  refine ⟨hopc, hrsv, fun ho => ?_, fun ho => ?_, fun ho => ?_⟩
  · rw [hfix, ← hbuild, Opcode.fix_build, ho, Bool.false_and]
  · rw [hsel, ← hbuild, Opcode.sel_build, ho, Bool.false_and]
  · rw [hlen h, ← hbuild, Opcode.len_build, if_pos ho]

theorem decode_encode {i : Instr} (h : i.wellFormed = true) : decode (encode i) = .ok i := by
  obtain ⟨hbuild, -, -, hfix, hsel, hlen⟩ := Laws.Layout.holds i
  rw [(admits_encode h).decode_eq, hfix, hsel, hlen h, hbuild]

/-- A legal word holds the fields of its command and nothing else. -/
theorem wellFormed_and_encode_of_decode {w : Word} {i : Instr} (h : decode w = .ok i) :
    i.wellFormed = true ∧ encode i = w := by
  obtain ⟨o, ho, hi⟩ := admits_of_decode h
  obtain ⟨hop, hfix, hsel, hlen⟩ := ho.fields_build hi
  have hwf : i.wellFormed = true := decide_eq_true (hlen ▸ Field.len_lt w)
  have hn : BitVec.ofNat 16 (Field.len w) = w.extractLsb' 16 16 := (BitVec.ofNat_toNat _ _).trans (BitVec.setWidth_eq _)
  refine ⟨hwf, ?_⟩
  calc encode i
      = fieldsWord (Field.opc w) (Field.fix w) (Field.sel w) (Field.rsv w) (w.extractLsb' 16 16) := by
        rw [encode, hop, hfix, hsel, hlen, commandWord_eq_append, hn, ho.opc, ho.rsv]; rfl
    _ = w := (word_eq_append w).symm

/-- Settles O1: `Laws.Layout.holds` reads each field back, and a word is its fields side by side. -/
theorem decodeEncodeAgree : Obligations.DecodeEncodeAgree :=
  ⟨fun _ => decode_encode, fun _ _ => wellFormed_and_encode_of_decode⟩

/-- Settles O3: the eight words, decoded. -/
theorem exampleWordsDecode : Obligations.ExampleWordsDecode := by
  unfold Obligations.ExampleWordsDecode
  decide

/-! ### Mask and match -/

/-- Two words are equal exactly when their five fields are (R81). -/
theorem word_eq_iff_fields {v w : Word} :
    v = w ↔ Field.opc v = Field.opc w ∧ Field.rsv v = Field.rsv w ∧ Field.fix v = Field.fix w
      ∧ Field.sel v = Field.sel w ∧ v.extractLsb' 16 16 = w.extractLsb' 16 16 := by
  constructor
  · rintro rfl
    exact ⟨rfl, rfl, rfl, rfl, rfl⟩
  · rintro ⟨hopc, hrsv, hfix, hsel, hlen⟩
    simp only [Field.opc, Field.rsv, Field.fix, Field.sel] at hopc hrsv hfix hsel
    rw [word_eq_append v, word_eq_append w, hopc, hrsv, hfix, hsel, hlen]

/-- The match word holds the `OPC` and nothing else. -/
theorem Opcode.matchWord_eq_fieldsWord (o : Opcode) : o.matchWord = fieldsWord o.code false false 0 0 := by
  cases o <;> rfl

/-- The mask covers `OPC` and `RSV`, and each other field where the row does not list it. -/
theorem Opcode.maskWord_eq_fieldsWord (o : Opcode) :
    o.maskWord = fieldsWord (BitVec.allOnes 8) (!o.hasFix) (!o.hasSel) (BitVec.allOnes 6)
      (if o.format = .n then BitVec.allOnes 16 else 0) := by
  cases o <;> rfl

theorem extractLsb'_len_fieldsWord (c : BitVec 8) (f g : Bool) (r : BitVec 6) (n : BitVec 16) :
    (fieldsWord c f g r n).extractLsb' 16 16 = n :=
  BitVec.eq_of_toNat_eq (Field.len_fieldsWord c f g r n)

theorem Field.opc_and (v w : Word) : Field.opc (v &&& w) = Field.opc v &&& Field.opc w := BitVec.extractLsb'_and
theorem Field.rsv_and (v w : Word) : Field.rsv (v &&& w) = Field.rsv v &&& Field.rsv w := BitVec.extractLsb'_and
theorem Field.fix_and (v w : Word) : Field.fix (v &&& w) = (Field.fix v && Field.fix w) := BitVec.getLsbD_and
theorem Field.sel_and (v w : Word) : Field.sel (v &&& w) = (Field.sel v && Field.sel w) := BitVec.getLsbD_and

/-- A bit that the mask keeps exactly where the row does not list it. -/
theorem masked_bit_eq_false_iff {b listed : Bool} : (b && !listed) = false ↔ (listed = false → b = false) := by
  cases b <;> cases listed <;> decide

/-- A field that the mask keeps exactly where the format does not use it. -/
theorem masked_field_eq_zero_iff {k : Nat} {x : BitVec k} {p : Prop} [Decidable p] :
    (x &&& if p then BitVec.allOnes k else 0) = 0 ↔ (p → x = 0) := by
  split
  · next h => simp [h]
  · next h => simp [h]

theorem Field.len_eq_zero_iff {w : Word} : Field.len w = 0 ↔ w.extractLsb' 16 16 = 0 := by
  rw [Field.len, ← BitVec.toNat_inj]
  rfl

/-- The clauses of rule R85 as the rule writes them, with `LEN` as a bit field. -/
theorem Opcode.admits_iff {o : Opcode} {w : Word} :
    o.Admits w ↔ Field.opc w = o.code ∧ Field.rsv w = 0 ∧ (o.hasFix = false → Field.fix w = false)
      ∧ (o.hasSel = false → Field.sel w = false) ∧ (o.format = .n → w.extractLsb' 16 16 = 0) := by
  rw [← Field.len_eq_zero_iff]
  exact ⟨fun h => ⟨h.opc, h.rsv, h.fix, h.sel, h.len⟩, fun ⟨hopc, hrsv, hfix, hsel, hlen⟩ =>
    ⟨hopc, hrsv, hfix, hsel, hlen⟩⟩

/-- A mnemonic admits exactly the words that agree with its match under its mask (R85): of each field the mask keeps
what the clause for it compares. -/
theorem Opcode.admits_iff_mask {o : Opcode} {w : Word} : o.Admits w ↔ w &&& o.maskWord = o.matchWord := by
  rw [Opcode.admits_iff, word_eq_iff_fields, Opcode.maskWord_eq_fieldsWord, Opcode.matchWord_eq_fieldsWord]
  simp only [Field.opc_and, Field.rsv_and, Field.fix_and, Field.sel_and, BitVec.extractLsb'_and, Field.opc_fieldsWord,
    Field.rsv_fieldsWord, Field.fix_fieldsWord, Field.sel_fieldsWord, extractLsb'_len_fieldsWord, BitVec.and_allOnes,
    masked_bit_eq_false_iff, masked_field_eq_zero_iff]

/-- Settles O2: a word decodes to a command of the mnemonics that admit it. -/
theorem legalExactlyByPattern : Obligations.LegalExactlyByPattern := by
  intro w o
  rw [exists_decode_iff_admits]
  have hmask : o.maskWord = 0x0000FCFF ||| (if o.hasFix then 0 else 0x00000100) |||
      (if o.hasSel then 0 else 0x00000200) ||| (if o.format = .n then 0xFFFF0000 else 0) := by
    unfold Opcode.maskWord
    cases o.format <;> rfl
  rw [← hmask]
  exact ⟨Opcode.admits_iff, Opcode.admits_iff_mask⟩

end Sys2Proof
end

/-! ## Illegal words and RUN (30_encoding.md R86, R89) -/

section
namespace Sys2Proof.Machine

/-! ### Completions -/

theorem complete_of_illegal {s : State} {e : DecodeError} (h : decode s.cmdl = .error e) :
    s.complete = .next s.raiseIllegal := by
  rw [State.complete, h]

theorem complete_of_legal {s : State} {i : Instr} (h : decode s.cmdl = .ok i) : s.complete = exec i s := by
  rw [State.complete, h]

/-- Settles O5: the launch latches any word, and the completion of an illegal one only retires it. -/
theorem illegalWordCompletes : Obligations.IllegalWordCompletes := by
  intro s w e hb hw
  have hlaunch : (s.perform (.write .w32 0x0000 w)).1 = s.launch w := by rw [perform_write_idle w reach_cmd hb]; rfl
  rw [hlaunch, complete_of_illegal (s := s.launch w) hw]
  exact ⟨rfl, rfl⟩

/-! ### The turns of a run -/

/-- A step with an access next is that access, its answer appended. -/
theorem step_of_perform {s t : State} {a : Access} {r : Response} {rest : List Turn} (hs : s.script = .host a :: rest)
    (h : State.perform { s with script := rest } a = (t, r)) :
    step s = .next { t with responses := t.responses ++ [r] } := by
  simp only [step, State.turn, hs, State.hostTurn, h]

/-- A step with the command unit next, while busy, is the completion. -/
theorem step_of_commandUnit {s : State} {rest : List Turn} (hs : s.script = .commandUnit :: rest)
    (hb : s.status.busy = true) : step s = State.complete { s with script := rest } := by
  rw [step, State.turn, hs]
  exact if_pos hb

/-- The launch of a run: the word is latched and the host has its answer. -/
theorem step_launch {s : State} {w : Word} {rest : List Turn} (hs : s.script = .host (.write .w32 0x0000 w) :: rest)
    (hb : s.status.busy = false) : step s = .next ((s.launch w).withHost rest (s.responses ++ [.written])) :=
  step_of_perform hs (perform_write_idle w reach_cmd hb)

/-- A poll: the host reads STATUS (30_encoding.md R89). -/
def pollTurn : Turn := .host (.read .w32 0x0004)

/-- A poll, busy or not, changes nothing but the answers (10_state.md R42). -/
theorem step_poll {s : State} {rest : List Turn} (hs : s.script = pollTurn :: rest) :
    step s = .next (s.withHost rest (s.responses ++ [.data s.status.word])) :=
  step_of_perform hs (perform_read_normal reach_status (.inr rfl))

/-- The completion of a command under any schedule and any answers: it reads neither. -/
theorem step_completion {i : Instr} {s t : State} (rest : List Turn) (rs : List Response)
    (hb : s.status.busy = true) (hd : decode s.cmdl = .ok i) (h : exec i s = .next t) :
    step (s.withHost (.commandUnit :: rest) rs) = .next (t.withHost rest rs) := by
  rw [step_of_commandUnit (s := s.withHost (.commandUnit :: rest) rs) rfl hb]
  exact (complete_of_legal (s := s.withHost rest rs) hd).trans (exec_withHost rest rs h)

/-! ### Runs -/

theorem core_run_succ {s t : State} (k : Nat) (h : step s = .next t) :
    Host.Core.run Sys2Proof.core (k + 1) s = Host.Core.run Sys2Proof.core k t :=
  run_succ Sys2Proof.core k s t h

/-- Any number of polls gives STATUS as often and changes nothing else. -/
theorem run_polls (s : State) (polls k : Nat) (rest : List Turn) (rs : List Response) :
    Host.Core.run Sys2Proof.core (polls + k) (s.withHost (List.replicate polls pollTurn ++ rest) rs)
      = Host.Core.run Sys2Proof.core k (s.withHost rest (rs ++ List.replicate polls (.data s.status.word))) := by
  induction polls generalizing rs with
  | zero => simp
  | succ polls ih =>
    have hpoll : step (s.withHost (List.replicate (polls + 1) pollTurn ++ rest) rs)
        = .next (s.withHost (List.replicate polls pollTurn ++ rest) (rs ++ [.data s.status.word])) := step_poll rfl
    rw [Nat.succ_add, core_run_succ _ hpoll, ih, List.append_assoc, List.replicate_succ, List.singleton_append]

/-- The turns of RUN, the last poll written like the others. -/
theorem scriptRun_eq (w : Word) (polls : Nat) (rest : List Turn) :
    scriptRun w polls ++ rest = .host (.write .w32 0x0000 w) ::
      (List.replicate polls pollTurn ++ (.commandUnit :: (List.replicate 1 pollTurn ++ rest))) := by
  have hcmd : memWrite (offsetOf (.control .cmd)) w = .host (.write .w32 0x0000 w) := rfl
  have hpoll : memRead (offsetOf (.control .status)) = pollTurn := rfl
  simp [scriptRun, scriptWr, scriptRd, hcmd, hpoll]

/-- Settles O7: the launch, the polls that see the launched STATUS, the completion, the poll that sees its STATUS. -/
theorem runPseudoInstruction : Obligations.RunPseudoInstruction := by
  intro s t w i polls rest hb hs hd he
  rw [scriptRun_eq] at hs
  have hlaunch := core_run_succ (polls + 2) (step_launch hs hb)
  have hpolls := run_polls (s.launch w) polls 2 (.commandUnit :: (List.replicate 1 pollTurn ++ rest))
    (s.responses ++ [.written])
  have hcompletion := core_run_succ 1 (step_completion (s := s.launch w) (List.replicate 1 pollTurn ++ rest)
    (s.responses ++ [.written] ++ List.replicate polls (.data (s.launch w).status.word)) rfl hd he)
  have hlast := run_polls t 1 0 rest
    (s.responses ++ [.written] ++ List.replicate polls (.data (s.launch w).status.word))
  exact hlaunch.trans (hpolls.trans (hcompletion.trans hlast))

end Sys2Proof.Machine
end

/-! ## Converters, comparator and primitives (40_converters_primitives.md R101 to R118) -/

section
namespace Sys2Proof.Machine

/-! ### Results that go into XI -/

/-- A result below `2^4096` is the value of XI after it (40_converters_primitives.md R119). -/
theorem exists_finishXi_ok (s : State) {n : Nat} (h : n < 2 ^ 4096) :
    ∃ x : BigWord, x.toNat = n ∧ s.finishXi (.ok n) = { s with xi := x, status := doneFlags s false none } :=
  ⟨BitVec.ofNat 4096 n, by rw [BitVec.toNat_ofNat, Nat.mod_eq_of_lt h], rfl⟩

/-! ### RSAEP and RSAVP1 -/

section Public

variable {s : State} {i : Instr} {kind : ErrKind}

/-- `RSAEP` and `RSAVP1` differ in the error kind alone (R113, R118). -/
theorem exec_publicPrimitive
    (h : (i = .rsaep ∧ kind = .representativeOutOfRange) ∨ (i = .rsavp1 ∧ kind = .signatureOutOfRange)) :
    exec i s = .next (s.finishXi (s.publicOp kind)) ∧ ∀ e, s.finishXi (.error e) = s.failed i e := by
  obtain ⟨rfl, rfl⟩ | ⟨rfl, rfl⟩ := h <;> exact ⟨rfl, finishXi_error s rfl rfl⟩

theorem publicOp_of_zero (h : s.pubKey.n = 0) : s.publicOp kind = .error .illegalParameter := by
  rw [State.publicOp, pubKey_check_zero h]; rfl

theorem publicOp_of_ne_zero (h : s.pubKey.n ≠ 0) : s.publicOp kind = rsaPublic s.pubKey s.xi.toNat kind := by
  rw [State.publicOp, pubKey_check_ok h]; rfl

end Public

/-- Settles O35: the zero modulus is refused before the range check, and a residue modulo N fits XI. -/
theorem publicPrimitivesComplete : Obligations.PublicPrimitivesComplete := by
  intro s i kind hi
  obtain ⟨hexec, hfail⟩ := exec_publicPrimitive (s := s) hi
  rw [hexec]
  refine ⟨fun hlt => ?_, fun h0 => ?_, fun h0 hge => ?_⟩
  · have hn : s.pubKey.n ≠ 0 := Nat.ne_zero_of_lt hlt
    have hres : s.xi.toNat ^ s.pubKey.e % s.pubKey.n < 2 ^ 4096 :=
      (Nat.mod_lt _ (Nat.pos_of_ne_zero hn)).trans (pubKey_n_lt s)
    obtain ⟨x, hx, hfin⟩ := exists_finishXi_ok s hres
    exact ⟨x, hx, by rw [publicOp_of_ne_zero hn, rsaPublic_of_lt kind hlt, hfin]⟩
  · rw [publicOp_of_zero h0, hfail]
  · rw [publicOp_of_ne_zero h0, rsaPublic_of_le kind hge, hfail]

/-! ### RSADP and RSASP1 -/

theorem n_ne_zero_of_tooWide {k : PrivKey} (h : k.tooWide = true) : k.n ≠ 0 := by
  intro h0
  rw [tooWide_eq_false (by rw [h0]; exact Nat.two_pow_pos _)] at h
  cases h

/-- A CRT modulus that is too wide is refused (10_state.md R29): not being 0, it fails no check before that. -/
theorem privKey_check_tooWide {k : PrivKey} (h : k.tooWide = true) : k.check = .error .capacityExceeded := by
  rw [PrivKey.check, if_neg (n_ne_zero_of_tooWide h), if_pos h]

/-- The key `privKey` in force is too wide exactly as a CRT key with `P*Q` of `2^4096` or more (10_state.md R29). -/
theorem privKey_tooWide_iff (s : State) :
    s.privKey.tooWide = true ↔ s.cfg.kform = .crt ∧ 2 ^ 4096 ≤ s.keys.p.toNat * s.keys.q.toNat := by
  cases hf : s.cfg.kform with
  | modulus => simp only [State.privKey, hf, PrivKey.tooWide, reduceCtorEq, false_and]
  | crt => simp only [State.privKey, hf, tooWide_crt, true_and]

section Private

variable {s : State} {i : Instr} {kind : ErrKind}

/-- `RSADP` and `RSASP1` differ in the error kind alone (R116, R117). -/
theorem exec_privatePrimitive
    (h : (i = .rsadp ∧ kind = .representativeOutOfRange) ∨ (i = .rsasp1 ∧ kind = .signatureOutOfRange)) :
    exec i s = .next (s.finishXi (s.privateOp kind)) ∧ ∀ e, s.finishXi (.error e) = s.failed i e := by
  obtain ⟨rfl, rfl⟩ | ⟨rfl, rfl⟩ := h <;> exact ⟨rfl, finishXi_error s rfl rfl⟩

theorem privateOp_of_check_error {e : ErrKind} (h : s.privKey.check = .error e) : s.privateOp kind = .error e := by
  rw [State.privateOp, h]; rfl

theorem privateOp_of_check_ok (h : s.privKey.n ≠ 0) (hw : s.privKey.n < 2 ^ 4096) :
    s.privateOp kind = rsaPrivate s.privKey s.xi.toNat kind := by
  rw [State.privateOp, privKey_check_ok h hw]; rfl

/-- RSADP and RSASP1 in either key form: the result, then the three errors in the order of their checks. -/
theorem privatePrimitive_completes
    (hi : (i = .rsadp ∧ kind = .representativeOutOfRange) ∨ (i = .rsasp1 ∧ kind = .signatureOutOfRange)) :
    (s.xi.toNat < s.privKey.n → s.privKey.n < 2 ^ 4096 → ∃ x : BigWord, x.toNat = s.privKey.apply s.xi.toNat
      ∧ exec i s = .next { s with xi := x, status := doneFlags s false none })
    ∧ (s.privKey.n = 0 → exec i s = .next (s.failed i .illegalParameter))
    ∧ (s.privKey.tooWide = true → exec i s = .next (s.failed i .capacityExceeded))
    ∧ (s.privKey.n ≠ 0 → s.privKey.n < 2 ^ 4096 → s.privKey.n ≤ s.xi.toNat → exec i s = .next (s.failed i kind)) := by
  obtain ⟨hexec, hfail⟩ := exec_privatePrimitive (s := s) hi
  rw [hexec]
  refine ⟨fun hlt hw => ?_, fun h0 => ?_, fun hwide => ?_, fun h0 hw hge => ?_⟩
  · have hn : s.privKey.n ≠ 0 := Nat.ne_zero_of_lt hlt
    obtain ⟨x, hx, hfin⟩ := exists_finishXi_ok s ((s.privKey.apply_lt s.xi.toNat hn).trans hw)
    exact ⟨x, hx, by rw [privateOp_of_check_ok hn hw, rsaPrivate_of_lt kind hlt, hfin]⟩
  · rw [privateOp_of_check_error (privKey_check_zero h0), hfail]
  · rw [privateOp_of_check_error (privKey_check_tooWide hwide), hfail]
  · rw [privateOp_of_check_ok h0 hw, rsaPrivate_of_le kind hge, hfail]

end Private

/-- Settles O36: the modulus form is never too wide, being the value of a register. -/
theorem privatePrimitivesModulusForm : Obligations.PrivatePrimitivesModulusForm := by
  intro s i kind hi hf
  have hkey : s.privKey = .modulus s.keys.pn.toNat s.keys.d.toNat := by rw [State.privKey, hf]
  have hw : (PrivKey.modulus s.keys.pn.toNat s.keys.d.toNat).n < 2 ^ 4096 := s.keys.pn.isLt
  obtain ⟨hok, hzero, -, hrange⟩ := privatePrimitive_completes (s := s) hi
  rw [hkey] at hok hzero hrange
  refine ⟨fun hlt => ?_, hzero, fun h0 => hrange h0 hw⟩
  rw [← apply_modulus]
  exact hok hlt hw

/-- Settles O37: for `P` not 0 the residue `h` is not negative, so the natural number the model takes is `h`. -/
theorem privatePrimitivesCrtForm : Obligations.PrivatePrimitivesCrtForm := by
  intro s i kind p q m1 m2 h hi hf hp hq hm1 hm2 hh
  have hkey : s.privKey = .crt p q s.keys.dp.toNat s.keys.dq.toNat s.keys.qinv.toNat := by
    rw [State.privKey, hf, hp, hq]
  obtain ⟨hok, hzero, hwide, hrange⟩ := privatePrimitive_completes (s := s) hi
  rw [hkey] at hok hzero hwide hrange
  refine ⟨fun hlt hw => ?_, fun h0 => hzero (Nat.mul_eq_zero.mpr h0),
    fun hge => hwide ((tooWide_crt ..).mpr hge), fun hp0 hq0 => hrange (Nat.mul_ne_zero hp0 hq0)⟩
  obtain ⟨x, hx, hexec⟩ := hok hlt hw
  have hp0 : (p : Int) ≠ 0 := by
    intro h0
    rw [Int.natCast_eq_zero.mp h0, Nat.zero_mul] at hlt
    exact Nat.not_lt_zero _ hlt
  have hpos : 0 ≤ h := hh ▸ Int.emod_nonneg _ hp0
  refine ⟨x, ?_, hexec⟩
  rw [hx, apply_crt, ← hm1, ← hm2, ← hh, Nat.cast_add, Nat.cast_mul, Int.toNat_of_nonneg hpos]

/-! ### CLEAR and the converters -/

/-- Settles O30: the two values of SEL. -/
theorem clearCompletes : Obligations.ClearCompletes := by
  intro s sel
  cases sel <;> rfl

/-- An octet of a big-endian string is a digit to the base 256 (R102). -/
theorem octetsOf_getD_toNat {x n i : Nat} (h : i < n) :
    ((octetsOf x n).getD i 0).toNat = x / 256 ^ (n - 1 - i) % 256 := by
  have hi : i < (octetsOf x n).length := by rwa [octetsOf_length]
  rw [List.getD_eq_getElem _ _ hi, octetsOf_getElem, BitVec.toNat_ofNat]

/-- `I2OSP` writes EM or OUT, as SEL says (R103). -/
theorem exec_i2osp (s : State) (sel : Bool) (len : Nat) : exec (.i2osp sel len) s
    = .next (if sel then s.finishEm .component (s.i2ospOp len) else s.finishOut .component (s.i2ospOp len)) := rfl

theorem exec_i2osp_error {s : State} {sel : Bool} {len : Nat} {e : ErrKind} (h : s.i2ospOp len = .error e) :
    exec (.i2osp sel len) s = .next (s.failed (.i2osp sel len) e) := by
  rw [exec_i2osp, h]
  cases sel with
  | false => exact congrArg _ (finishOut_error s (i := .i2osp false len) rfl rfl e)
  | true => exact congrArg _ (finishEm_error s (i := .i2osp true len) rfl rfl e)

/-- Settles O32: the capacity is checked before the value, and the octets are the digits of XI. -/
theorem i2ospCompletes : Obligations.I2ospCompletes := by
  intro s sel len
  have hop (hl : len ≤ 512) : s.i2ospOp len = i2osp s.xi.toNat len := if_neg (Nat.not_lt.mpr hl)
  refine ⟨fun hl hx => ?_, fun hl => exec_i2osp_error (if_pos hl),
    fun hl hx => exec_i2osp_error ((hop hl).trans (i2osp_of_le hx))⟩
  refine ⟨octetsOf s.xi.toNat len, octetsOf_length .., fun i hi => octetsOf_getD_toNat hi, ?_⟩
  rw [exec_i2osp, hop hl, i2osp_of_lt hx]
  cases sel <;> rfl

/-- A buffer's value is the sum of rule R104 over its octets. -/
theorem os2ip_val (s : State) (b : BufName) :
    os2ip (s.val b) = ∑ i ∈ Finset.range (s.bufLen b), (s.octet b i).toNat * 256 ^ (s.bufLen b - 1 - i) := by
  rw [os2ip_eq_sum, State.val_length]
  refine Finset.sum_congr rfl fun i hi => ?_
  have hi : i < (s.val b).length := by rw [State.val_length]; exact Finset.mem_range.mp hi
  rw [List.getD_eq_getElem _ _ hi, State.val_getElem]

/-- No buffer holds less than KMAX octets, so of the two capacity checks of `OS2IP` that of KMAX decides (R105). -/
theorem os2ip_capacity_iff (s : State) (b : BufName) :
    (s.overCap b || decide (Config.kMax < s.bufLen b)) = true ↔ 512 < s.bufLen b := by
  have hcap : 512 ≤ b.cap := by cases b <;> decide
  rw [Bool.or_eq_true, State.overCap, decide_eq_true_iff, decide_eq_true_iff, kMax_eq]
  omega

/-- Settles O33: at most 512 octets are a value below `2^4096`. -/
theorem os2ipCompletes : Obligations.Os2ipCompletes := by
  intro s sel b hb
  have hexec : exec (.os2ip sel) s = .next (s.finishXi (s.os2ipOp b)) := by rw [hb]; rfl
  have hcap := os2ip_capacity_iff s b
  rw [hexec]
  refine ⟨fun hl => ?_, fun hl => ?_⟩
  · have hlt : os2ip (s.val b) < 2 ^ 4096 := by
      calc os2ip (s.val b) < 256 ^ (s.val b).length := os2ip_lt _
        _ = 2 ^ (8 * s.bufLen b) := by rw [State.val_length, pow256]
        _ ≤ 2 ^ 4096 := Nat.pow_le_pow_right Nat.two_pos (by omega)
    obtain ⟨x, hx, hfin⟩ := exists_finishXi_ok s hlt
    have hop : s.os2ipOp b = .ok (os2ip (s.val b)) := if_neg fun h => Nat.not_lt.mpr hl (hcap.mp h)
    exact ⟨x, by rw [hop, hfin], hx.trans (os2ip_val s b)⟩
  · have hop : s.os2ipOp b = .error .capacityExceeded := if_pos (hcap.mpr hl)
    rw [hop, finishXi_error s (i := .os2ip sel) rfl rfl]

/-! ### The comparator -/

/-- Two buffers hold one string exactly when their lengths and the octets below them agree (00_scope.md R5). -/
theorem val_eq_val_iff (s : State) (b c : BufName) :
    s.val b = s.val c ↔ s.bufLen b = s.bufLen c ∧ ∀ i, i < s.bufLen b → s.octet b i = s.octet c i := by
  simp only [List.ext_getElem_iff, State.val_length, State.val_getElem]
  exact and_congr_right fun hl => forall_congr' fun i => ⟨fun h hi => h hi (hl ▸ hi), fun h hi _ => h hi⟩

/-- Settles O34: the verdict is the equality of the two strings. -/
theorem cmpemCompletes : Obligations.CmpemCompletes := by
  intro s
  have hexec : exec .cmpem s = .next (s.finishVerdict .component s.cmpemOp) := rfl
  rw [hexec]
  refine ⟨fun hem hout => ?_, fun hover => ?_⟩
  · have hop : s.cmpemOp = .ok (decide (s.val .em = s.val .out)) := by
      rw [State.cmpemOp, overCap_eq_false s hem, overCap_eq_false s hout]; rfl
    rw [hop, ← val_eq_val_iff, finishVerdict_component_ok]
    exact ⟨fun heq => by rw [decide_eq_true heq]; rfl, fun hne => by rw [decide_eq_false hne]; rfl⟩
  · have hcap : (s.overCap .em || s.overCap .out) = true := by
      rw [Bool.or_eq_true]
      exact hover.imp (overCap_eq_true s (b := .em)) (overCap_eq_true s (b := .out))
    have hop : s.cmpemOp = .error .capacityExceeded := if_pos hcap
    rw [hop]; rfl

end Sys2Proof.Machine
end

/-! ## The checks before a command's work (40_converters_primitives.md R100, R111; 10_state.md R29) -/

section
namespace Sys2Proof.Machine

/-! ### The errors of a result -/

/-- Whether a result is a failure of a kind. -/
def Result.Fails : Result → ErrKind → Prop
  | .clear _, _ => False
  | .out _ r _, e | .em r _, e => r = .error e
  | .xi r, e => r = .error e
  | .verdict _ r, e => r = .error e

/-- ERR after a completion is the kind of the failure; `InvalidSignature` is also a verdict (60_exceptions.md R239). -/
theorem finish_err_eq_some (s : State) (r : Result) {e : ErrKind} (he : e ≠ .invalidSignature) :
    (s.finish r).status.err = some e ↔ r.Fails e := by
  cases r with
  | clear sel => cases sel <;> simp [State.finish, Result.Fails]
  | out l r n =>
    cases r with
    | error e' => simp [State.finish, State.finishOut, State.finishBuf, Result.Fails]
    | ok x => cases l <;> simp [State.finish, Result.Fails, doneFlags]
  | em r n =>
    cases r with
    | error e' => simp [State.finish, State.finishEm, State.finishBuf, Result.Fails]
    | ok x => simp [State.finish, Result.Fails, doneFlags]
  | xi r =>
    cases r with
    | error e' => simp [State.finish, State.finishXi, Result.Fails]
    | ok x => simp [State.finish, Result.Fails, doneFlags]
  | verdict l r =>
    cases r with
    | error e' => simp [State.finish, State.finishVerdict, Result.Fails]
    | ok ok => cases l <;> cases ok <;> simp [State.finish, Result.Fails, doneFlags, verdictErr, he.symm]

/-! ### What follows the checks reports no capacity error -/

section Later

variable {m l em : Bytes} {n k : Nat} {src : PadSource} {kind : ErrKind}

theorem bind_ne_capacity {α β : Type} {r : Except ErrKind α} {f : α → Except ErrKind β}
    (hr : r ≠ .error .capacityExceeded) (hf : ∀ x, f x ≠ .error .capacityExceeded) :
    r >>= f ≠ .error .capacityExceeded := by
  cases r with
  | error e => exact fun h => hr (by cases h; rfl)
  | ok x => exact hf x

theorem i2osp_ne_capacity (x n : Nat) : i2osp x n ≠ .error .capacityExceeded := by
  unfold i2osp
  split <;> nofun

theorem rsaPublic_ne_capacity (p : PubKey) (x : Nat) (hk : kind ≠ .capacityExceeded) :
    rsaPublic p x kind ≠ .error .capacityExceeded := by
  rcases Nat.lt_or_ge x p.n with h | h
  · rw [rsaPublic_of_lt kind h]; nofun
  · rw [rsaPublic_of_le kind h]; exact fun h => hk (Except.error.inj h)

theorem rsaPrivate_ne_capacity (p : PrivKey) (x : Nat) (hk : kind ≠ .capacityExceeded) :
    rsaPrivate p x kind ≠ .error .capacityExceeded := by
  rcases Nat.lt_or_ge x p.n with h | h
  · rw [rsaPrivate_of_lt kind h]; nofun
  · rw [rsaPrivate_of_le kind h]; exact fun h => hk (Except.error.inj h)

theorem encryptEm_ne_capacity (p : PubKey) (em : Bytes) : encryptEm p em ≠ .error .capacityExceeded :=
  bind_ne_capacity (rsaPublic_ne_capacity p _ nofun) fun _ => i2osp_ne_capacity _ _

theorem signEm_ne_capacity (p : PrivKey) (em : Bytes) : signEm p em ≠ .error .capacityExceeded :=
  bind_ne_capacity (rsaPrivate_ne_capacity p _ nofun) fun _ => i2osp_ne_capacity _ _

theorem generic_ne_capacity (r : Except ErrKind Bytes) : generic r ≠ .error .capacityExceeded :=
  fun h => nomatch generic_error h

theorem mgf1_ne_capacity (D : Digest) (seed : Bytes) (n : Nat) : mgf1 D seed n ≠ .error .capacityExceeded := by
  unfold mgf1
  split <;> nofun

theorem oaepEncode_ne_capacity (s : State) (hk : k ≤ 512) :
    oaepEncode s.digest k m l src ≠ .error .capacityExceeded := by
  intro h
  have hle := digest_hLen_le s
  rcases oaepEncode_error (digest_hLen_pos s) (by omega) (by omega) h with h | ⟨h, -⟩ <;> cases h

theorem p1eEncode_ne_capacity : p1eEncode k m src ≠ .error .capacityExceeded := by
  intro h
  rcases p1eEncode_error h with h | ⟨h, -⟩ <;> cases h

theorem pssEncode_ne_capacity (s : State) (hk : pssEmLen n ≤ 512) (sLen : Nat) :
    pssEncode s.digest m n sLen src ≠ .error .capacityExceeded := by
  intro h
  rcases pssEncode_error (digest_hLen_pos s) (by omega) h with h | ⟨h, -⟩ <;> cases h

theorem p1sEncode_ne_capacity (D : Digest) : p1sEncode D m k ≠ .error .capacityExceeded :=
  fun h => nomatch p1sEncode_error h

theorem oaepDecode_ne_capacity (D : Digest) : oaepDecode D k em l ≠ .error .capacityExceeded :=
  fun h => nomatch oaepDecode_error h

theorem p1eDecode_ne_capacity : p1eDecode k em ≠ .error .capacityExceeded := fun h => nomatch p1eDecode_error h

end Later

/-! ### Stage 3: the key -/

/-- A result past stage 2 fails in stage 3 of rule R100 as it must: with `CapacityExceeded` exactly for a CRT modulus
that is too wide, and with `IllegalParameter` for a zero modulus. -/
structure ChecksKey {α : Type} (i : Instr) (s : State) (r : Except ErrKind α) : Prop where
  tooWide : r = .error .capacityExceeded ↔ usesPrivateKey i = true ∧ s.privKey.tooWide = true
  zeroModulus : keyModulus s i = some 0 → r = .error .illegalParameter

section Key

variable {α : Type} {i : Instr} {s : State}

/-- A command without a key has no stage 3. -/
theorem checksKey_keyless {r : Except ErrKind α} (hkey : keyModulus s i = none) (hpriv : usesPrivateKey i = false)
    (hr : r ≠ .error .capacityExceeded) : ChecksKey i s r :=
  ⟨iff_of_false hr (fun h => nomatch hpriv.symm.trans h.1), fun h0 => nomatch hkey.symm.trans h0⟩

/-- A command with the key of `pubKey` checks it for a zero modulus. -/
theorem checksKey_public {f : PubKey → Except ErrKind α} (hkey : keyModulus s i = some s.pubKey.n)
    (hpriv : usesPrivateKey i = false) (hf : f s.pubKey ≠ .error .capacityExceeded) :
    ChecksKey i s (s.pubKey.check >>= f) := by
  refine ⟨iff_of_false ?_ (fun h => nomatch hpriv.symm.trans h.1), fun hz => ?_⟩
  · by_cases h0 : s.pubKey.n = 0
    · rw [pubKey_check_zero h0]; nofun
    · rw [pubKey_check_ok h0]; exact hf
  · rw [pubKey_check_zero (Option.some.inj (hkey.symm.trans hz))]; rfl

/-- A command with the key of `privKey` checks it for a zero modulus, then for a CRT modulus that is too wide. -/
theorem checksKey_private {f : PrivKey → Except ErrKind α} (hkey : keyModulus s i = some s.privKey.n)
    (hpriv : usesPrivateKey i = true) (hf : s.privKey.tooWide = false → f s.privKey ≠ .error .capacityExceeded) :
    ChecksKey i s (s.privKey.check >>= f) := by
  refine ⟨?_, fun hz => ?_⟩
  · cases hw : s.privKey.tooWide with
    | true => rw [privKey_check_tooWide hw]; exact iff_of_true rfl ⟨hpriv, rfl⟩
    | false =>
      refine iff_of_false ?_ fun h => nomatch h.2
      by_cases h0 : s.privKey.n = 0
      · rw [privKey_check_zero h0]; nofun
      · rw [privKey_check_ok h0 (privKey_n_lt s hw)]; exact hf hw
  · rw [privKey_check_zero (Option.some.inj (hkey.symm.trans hz))]; rfl

end Key

/-! ### Stage 2: the capacities -/

theorem overCap_iff (s : State) (b : BufName) : s.overCap b = true ↔ b.cap < s.bufLen b := decide_eq_true_iff

theorem fixOverCap_iff (s : State) (fix : Bool) : s.fixOverCap fix = true ↔ fix = true ∧ 512 < s.bufLen .aux := by
  rw [State.fixOverCap, Bool.and_eq_true, overCap_iff]
  rfl

theorem decide_kMax_lt_iff (n : Nat) : decide (Config.kMax < n) = true ↔ 512 < n := decide_eq_true_iff

theorem pssEmLen_eq (n : Nat) : pssEmLen n = (n + 7) / 8 := rfl

theorem msg_cap_eq : BufName.msg.cap = 4096 := rfl
theorem lbl_cap_eq : BufName.lbl.cap = 512 := rfl
theorem aux_cap_eq : BufName.aux.cap = 512 := rfl
theorem em_cap_eq : BufName.em.cap = 512 := rfl
theorem out_cap_eq : BufName.out.cap = 512 := rfl

/-- A command fails in stages 2 and 3 of rule R100 as it must: with `CapacityExceeded` exactly for an exceeded capacity
or a CRT modulus that is too wide, and past stage 2 with `IllegalParameter` for a zero modulus. -/
structure ChecksStages (i : Instr) (s : State) (fails : ErrKind → Prop) : Prop where
  capacity : fails .capacityExceeded ↔ overCapacity s i ∨ (usesPrivateKey i = true ∧ s.privKey.tooWide = true)
  zeroModulus : ¬ overCapacity s i → keyModulus s i = some 0 → fails .illegalParameter

/-- Stage 2 before a result that has stage 3. The check `c` of a command says the same as `overCapacity` but for the
names of the capacities and its form as a boolean. -/
theorem checksStages_of_checksKey {α : Type} {i : Instr} {s : State} {c : Prop} [Decidable c] {r : Except ErrKind α}
    (hr : ¬ overCapacity s i → ChecksKey i s r)
    (hc : c ↔ overCapacity s i := by
      simp only [overCapacity, overCap_iff, fixOverCap_iff, decide_kMax_lt_iff, ← pssEmLen_eq, Bool.or_eq_true,
        or_assoc, msg_cap_eq, lbl_cap_eq, aux_cap_eq, em_cap_eq, out_cap_eq]) :
    ChecksStages i s fun e => (if c then .error .capacityExceeded else r) = .error e := by
  rw [← hc] at hr
  by_cases hover : c
  · refine ⟨iff_of_true ?_ (.inl (hc.mp hover)), fun hn => absurd (hc.mp hover) hn⟩
    rw [if_pos hover]
  · rw [if_neg hover]
    obtain ⟨wide, zero⟩ := hr hover
    exact ⟨wide.trans (or_iff_right (hc.not.mp hover)).symm, fun _ => zero⟩

/-! ### Each command's checks -/

theorem publicOp_checksStages {i : Instr} {s : State} {kind : ErrKind} (hkey : keyModulus s i = some s.pubKey.n)
    (hpriv : usesPrivateKey i = false) (hk : kind ≠ .capacityExceeded) (hc : False ↔ overCapacity s i) :
    ChecksStages i s fun e => s.publicOp kind = .error e :=
  checksStages_of_checksKey (fun _ => checksKey_public hkey hpriv (rsaPublic_ne_capacity _ _ hk)) hc

theorem privateOp_checksStages {i : Instr} {s : State} {kind : ErrKind} (hkey : keyModulus s i = some s.privKey.n)
    (hpriv : usesPrivateKey i = true) (hk : kind ≠ .capacityExceeded) (hc : False ↔ overCapacity s i) :
    ChecksStages i s fun e => s.privateOp kind = .error e :=
  checksStages_of_checksKey (fun _ => checksKey_private hkey hpriv fun _ => rsaPrivate_ne_capacity _ _ hk) hc

/-- Every command checks the capacities and the modulus it uses, and nothing after these checks reports a capacity. -/
theorem resultOf_checksStages (i : Instr) (s : State) : ChecksStages i s (resultOf i s).Fails := by
  cases i
  case clear sel => exact ⟨iff_of_false id (by simp [overCapacity, usesPrivateKey]), fun _ h0 => nomatch h0⟩
  case i2osp sel len =>
    have hop : ChecksStages (.i2osp sel len) s fun e => s.i2ospOp len = .error e :=
      checksStages_of_checksKey (fun _ => checksKey_keyless rfl rfl (i2osp_ne_capacity _ _)) Iff.rfl
    cases sel <;> exact hop
  case os2ip sel =>
    exact checksStages_of_checksKey (fun _ => checksKey_keyless rfl rfl nofun) (os2ip_capacity_iff s (os2ipSource sel))
  case rsaep | rsavp1 => exact publicOp_checksStages rfl rfl nofun Iff.rfl
  case rsadp | rsasp1 => exact privateOp_checksStages rfl rfl nofun Iff.rfl
  case cmpem => exact checksStages_of_checksKey fun _ => checksKey_keyless rfl rfl nofun
  case mgf1 len => exact checksStages_of_checksKey fun _ => checksKey_keyless rfl rfl (mgf1_ne_capacity _ _ _)
  case oaepEnc fix len =>
    refine checksStages_of_checksKey fun hover => checksKey_keyless rfl rfl (oaepEncode_ne_capacity s ?_)
    simp only [overCapacity] at hover
    omega
  case oaepDec len => exact checksStages_of_checksKey fun _ => checksKey_keyless rfl rfl (oaepDecode_ne_capacity _)
  case oaepEncrypt fix =>
    exact checksStages_of_checksKey fun _ => checksKey_public rfl rfl
      (bind_ne_capacity (oaepEncode_ne_capacity s (kOf_pubKey_le s)) fun em => encryptEm_ne_capacity _ em)
  case oaepDecrypt => exact checksStages_of_checksKey fun _ => checksKey_private rfl rfl fun _ => generic_ne_capacity _
  case p1eEnc fix len => exact checksStages_of_checksKey fun _ => checksKey_keyless rfl rfl p1eEncode_ne_capacity
  case p1eDec len => exact checksStages_of_checksKey fun _ => checksKey_keyless rfl rfl p1eDecode_ne_capacity
  case pkcs1Encrypt fix =>
    exact checksStages_of_checksKey fun _ => checksKey_public rfl rfl
      (bind_ne_capacity p1eEncode_ne_capacity fun em => encryptEm_ne_capacity _ em)
  case pkcs1Decrypt => exact checksStages_of_checksKey fun _ => checksKey_private rfl rfl fun _ => generic_ne_capacity _
  case pssEnc fix len =>
    refine checksStages_of_checksKey fun hover => checksKey_keyless rfl rfl (pssEncode_ne_capacity s ?_ _)
    simp only [overCapacity, ← pssEmLen_eq] at hover
    omega
  case pssVfy len => exact checksStages_of_checksKey fun _ => checksKey_keyless rfl rfl nofun
  case pssSign fix =>
    exact checksStages_of_checksKey fun _ => checksKey_private rfl rfl fun hw => bind_ne_capacity
      (pssEncode_ne_capacity s ((pssEmLen_le_kOf _).trans (kOf_privKey_le hw)) _) fun em => signEm_ne_capacity _ em
  case pssVerify | pkcs1Verify => exact checksStages_of_checksKey fun _ => checksKey_public rfl rfl nofun
  case p1sEnc len => exact checksStages_of_checksKey fun _ => checksKey_keyless rfl rfl (p1sEncode_ne_capacity _)
  case pkcs1Sign =>
    exact checksStages_of_checksKey fun _ => checksKey_private rfl rfl fun _ =>
      bind_ne_capacity (p1sEncode_ne_capacity _) fun em => signEm_ne_capacity _ em

/-- Settles O29: ERR is the kind of the failure, and every command's failures come from its stages. -/
theorem capacityAndKeyShapeChecks : Obligations.CapacityAndKeyShapeChecks := by
  intro i s t h
  obtain rfl := next_inj ((exec_eq_finish i s).symm.trans h)
  obtain ⟨hcap, hzero⟩ := resultOf_checksStages i s
  rw [finish_err_eq_some s _ (by decide), finish_err_eq_some s _ (by decide), ← privKey_tooWide_iff]
  exact ⟨hcap, hzero⟩

end Sys2Proof.Machine
end

/-! ## MGF1 (41_mgf1.md R140 to R142) -/

section
namespace Sys2Proof.Machine

/-! ### Masks and their blocks -/

/-- A mask has no more octets than its blocks; a digest without octets gives only the empty mask. -/
theorem maskLen_le_ceilDiv_mul {n h : Nat} (hn : n ≤ 2 ^ 32 * h) : n ≤ ceilDiv n h * h := by
  rcases Nat.eq_zero_or_pos h with rfl | hpos
  · exact hn
  · exact ceilDiv_mul_le hpos

theorem ceilDiv_mono {m n : Nat} (b : Nat) (h : m ≤ n) : ceilDiv m b ≤ ceilDiv n b :=
  Nat.div_le_div_right (Nat.add_le_add_right h _)

/-- Octets that `a` blocks already hold do not depend on the blocks after them. -/
theorem mgf1Blocks_take {D : Digest} {seed : Bytes} {a b m : Nat} (hab : a ≤ b) (hm : m ≤ a * D.hLen) :
    (mgf1Blocks D seed b).take m = (mgf1Blocks D seed a).take m := by
  obtain ⟨c, rfl⟩ := Nat.exists_eq_add_of_le hab
  obtain ⟨tail, htail⟩ := mgf1Blocks_add D seed a c
  rw [htail, List.take_append_of_le_length (by rwa [mgf1Blocks_length])]

/-- Octet `i` of a mask is octet `i mod hLen` of block `i / hLen` (R140). -/
theorem mgf1_getD {D : Digest} {seed x : Bytes} {n i : Nat} (h : mgf1 D seed n = .ok x) (hi : i < n) :
    x.getD i 0 = (mgf1Block D seed (i / D.hLen)).getD (i % D.hLen) 0 := by
  obtain ⟨hn, rfl⟩ := mgf1_eq_ok.mp h
  have hblocks : i < ceilDiv n D.hLen * D.hLen := hi.trans_le (maskLen_le_ceilDiv_mul hn)
  rw [List.getD_eq_getElem?_getD, List.getD_eq_getElem?_getD, List.getElem?_take_of_lt hi,
    mgf1Blocks_getElem? D seed _ i hblocks]

/-- Settles O40: the shorter mask takes its octets from the first blocks of the longer one. -/
theorem mgf1PrefixProperty : Obligations.Mgf1PrefixProperty := by
  intro D seed x m n hmn h
  obtain ⟨hn, hx⟩ := mgf1_eq_ok.mp h
  have hm : m ≤ 2 ^ 32 * D.hLen := hmn.trans hn
  refine ⟨mgf1_length h, mgf1_eq_ok.mpr ⟨hm, ?_⟩⟩
  rw [hx, List.take_take, Nat.min_eq_left hmn]
  exact mgf1Blocks_take (ceilDiv_mono _ hmn) (maskLen_le_ceilDiv_mul hm)

/-! ### The counter -/

/-- A counter below 256 has one octet that can be other than zero. -/
theorem be32_of_lt {c : Nat} (h : c < 256) : be32 c = [0, 0, 0, BitVec.ofNat 8 c] := by
  have hquot : c / 256 = 0 := Nat.div_eq_of_lt h
  simp [be32, octetsOf_succ, octetsOf_zero_length, hquot]

theorem le_digest_hLen (s : State) : 28 ≤ s.digest.hLen := by
  unfold State.digest
  cases s.cfg.hash <;> decide

/-- The digests are long enough that a mask of KMAX octets has fewer than 256 blocks. -/
theorem mgf1_counter_lt (s : State) {i : Nat} (hi : i < 512) : i / s.digest.hLen < 256 := by
  have hlen := le_digest_hLen s
  calc i / s.digest.hLen ≤ i / 28 := Nat.div_le_div_left hlen (by decide)
    _ < 256 := by omega

/-! ### The command -/

/-- `MGF1` writes OUT or fails as its mask does (R141). -/
theorem exec_mgf1 (s : State) (len : Nat) :
    exec (.mgf1 len) s = .next (s.finishOut .component (s.mgf1Op len)) := rfl

theorem mgf1_capacity_iff (s : State) (len : Nat) :
    (s.overCap .aux || decide (Config.kMax < len)) = true ↔ 512 < s.bufLen .aux ∨ 512 < len := by
  rw [Bool.or_eq_true, overCap_iff, decide_kMax_lt_iff, aux_cap_eq]

/-- Settles O39: past the two capacity checks the mask cannot fail, and its counter has one octet. -/
theorem mgf1Completes : Obligations.Mgf1Completes := by
  intro s len
  have hcap := mgf1_capacity_iff s len
  rw [exec_mgf1]
  refine ⟨fun haux hlen => ?_, fun hover => ?_⟩
  · have hop : s.mgf1Op len = mgf1 s.digest (s.val .aux) len := if_neg (hcap.not.mpr (by omega))
    obtain ⟨x, hx, hxlen⟩ := mgf1_total (digest_hLen_pos s) (s.val .aux) (n := len) (by omega)
    refine ⟨x, hxlen, fun i hi => ?_, by rw [hop, hx, finishOut_component_ok]⟩
    rw [mgf1_getD hx hi, mgf1Block, be32_of_lt (mgf1_counter_lt s (hi.trans_le hlen))]
  · have hop : s.mgf1Op len = .error .capacityExceeded := if_pos (hcap.mpr hover)
    rw [hop, finishOut_error s (i := .mgf1 len) (l := .component) rfl rfl]

end Sys2Proof.Machine
end

/-! ## Completions by the place of the result (40_converters_primitives.md R100, 60_exceptions.md R232) -/

section
namespace Sys2Proof.Machine

section Completion

variable {i : Instr} {s t : State} {l : Layer} {fix : Bool} {r : Except ErrKind Bytes} {n : Nat} {x : Bytes}
  {e : ErrKind}

/-- An encoder that succeeds writes EM, and takes a draw with `FIX = 0`. -/
theorem exec_em_ok (hi : resultOf i s = .em r (drawsTaken fix r)) (h : r = .ok x) :
    exec i s = .next { s with
      em := Buffer.ofBytes x, status := doneFlags s false none, draws := s.draws + if fix then 0 else 1 } := by
  rw [exec_eq_finish, hi, h, drawsTaken_ok]
  rfl

/-- An encoder that fails takes no draw. -/
theorem exec_em_error (hi : resultOf i s = .em r (drawsTaken fix r)) (h : r = .error e) (hd : destOf i = some .em)
    (hl : layerOf i = .component) : exec i s = .next (s.failed i e) := by
  rw [exec_eq_finish, hi, h, drawsTaken_error, ← finishEm_error s hd hl]
  rfl

theorem exec_out_ok (hi : resultOf i s = .out .component r 0) (h : r = .ok x) :
    exec i s = .next { s with out := Buffer.ofBytes x, status := doneFlags s false none } := by
  rw [exec_eq_finish, hi, h]
  rfl

/-- A scheme command that succeeds writes OUT and discards EM and XI. -/
theorem exec_schemeOut_ok (hi : resultOf i s = .out .scheme r n) (h : r = .ok x) :
    exec i s = .next { s with
      out := Buffer.ofBytes x, em := Buffer.empty, xi := 0, status := doneFlags s false none
      draws := s.draws + n } := by
  rw [exec_eq_finish, hi, h]
  rfl

/-- A scheme command with a seed, `PS` or salt that succeeds takes a draw with `FIX = 0`. -/
theorem exec_seededOut_ok (hi : resultOf i s = .out .scheme r (drawsTaken fix r)) (h : r = .ok x) :
    exec i s = .next { s with
      out := Buffer.ofBytes x, em := Buffer.empty, xi := 0, status := doneFlags s false none
      draws := s.draws + if fix then 0 else 1 } := by
  rw [exec_schemeOut_ok hi h, h, drawsTaken_ok]

/-- A command that fails to write OUT takes no draw. -/
theorem exec_out_error (hi : resultOf i s = .out l r n) (h : r = .error e) (hd : destOf i = some .out)
    (hl : layerOf i = l) (hn : n = 0) : exec i s = .next (s.failed i e) := by
  rw [exec_eq_finish, hi, h, hn, ← finishOut_error s hd hl]
  rfl

theorem exec_seededOut_error (hi : resultOf i s = .out .scheme r (drawsTaken fix r)) (h : r = .error e)
    (hd : destOf i = some .out) (hl : layerOf i = .scheme) : exec i s = .next (s.failed i e) :=
  exec_out_error hi h hd hl (by rw [h, drawsTaken_error])

/-- A completion of a scheme command with ERR at OK has written a result to OUT. -/
theorem exec_schemeOut_eq_next (hi : resultOf i s = .out .scheme r n) (h : exec i s = .next t)
    (ht : t.status.err = none) : ∃ x, r = .ok x ∧ t = { s with
      out := Buffer.ofBytes x, em := Buffer.empty, xi := 0, status := doneFlags s false none
      draws := s.draws + n } := by
  cases r with
  | error e =>
    rw [exec_eq_finish, hi] at h
    obtain rfl := next_inj h
    cases ht
  | ok x => exact ⟨x, rfl, next_inj (h.symm.trans (exec_schemeOut_ok hi rfl))⟩

/-- A completion with ERR at OK has exceeded no capacity. -/
theorem not_overCapacity_of_exec (h : exec i s = .next t) (ht : t.status.err = none) : ¬ overCapacity s i := by
  intro hover
  have herr := (capacityAndKeyShapeChecks i s t h).1.mpr (.inl hover)
  rw [ht] at herr
  cases herr

end Completion

end Sys2Proof.Machine
end

/-! ## The two halves of RSA encryption (40_converters_primitives.md R115, R119; 42_oaep.md R154, R155) -/

section
namespace Sys2Proof.Machine

/-! ### Encrypting and decrypting encoded messages -/

theorem bind_eq_ok {α β : Type} {r : Except ErrKind α} {f : α → Except ErrKind β} {y : β} :
    r >>= f = .ok y ↔ ∃ x, r = .ok x ∧ f x = .ok y := by
  cases r with
  | error e => exact iff_of_false nofun nofun
  | ok x => exact ⟨fun h => ⟨x, rfl, h⟩, fun ⟨_, hx, h⟩ => by cases hx; exact h⟩

theorem bind_eq_error {α β : Type} {r : Except ErrKind α} (f : α → Except ErrKind β) {e : ErrKind} (h : r = .error e) :
    r >>= f = .error e := by rw [h]; rfl

/-- The value of a ciphertext (R154, R174). -/
theorem os2ip_of_encryptEm {k : PubKey} {em c : Bytes} (hem : os2ip em < k.n) (hc : encryptEm k em = .ok c) :
    os2ip c = os2ip em ^ k.e % k.n := by
  rw [encryptEm_of_lt hem] at hc
  cases hc
  exact os2ip_octetsOf ((Nat.mod_lt _ (Nat.zero_lt_of_lt hem)).trans (lt_pow_kOf _))

/-- What a decryption gives: the string of the key's size whose value is the key's `apply` of the ciphertext. -/
theorem decryptToEm_eq_ok {k : PrivKey} {c em : Bytes} : decryptToEm k c = .ok em ↔
    os2ip c < k.n ∧ em.length = kOf k.n ∧ os2ip em = k.apply (os2ip c) := by
  rcases Nat.lt_or_ge (os2ip c) k.n with hc | hc
  · have hval : k.apply (os2ip c) < 256 ^ kOf k.n := (k.apply_lt _ (Nat.ne_zero_of_lt hc)).trans (lt_pow_kOf k.n)
    rw [decryptToEm_of_lt hc]
    constructor
    · intro h
      cases h
      exact ⟨hc, octetsOf_length .., os2ip_octetsOf hval⟩
    · rintro ⟨-, hlen, hem⟩
      rw [← hem, ← hlen, octetsOf_os2ip]
  · rw [decryptToEm_of_le hc]
    exact iff_of_false nofun fun h => Nat.not_lt.mpr hc h.1

/-- The generic region of a decrypt command gives a message exactly when the ciphertext has the key's size and decrypts
to a string that the decoder takes; the decoder takes none in fewer octets than `least` (R155, R175). -/
theorem decryptRegion_eq_ok {k : PrivKey} {c m : Bytes} {least : Nat} {dec : Bytes → Except ErrKind Bytes}
    (hleast : ∀ em, dec em = .ok m → least ≤ kOf k.n) :
    (if c.length ≠ kOf k.n ∨ kOf k.n < least then .error .decryptionFailure else decryptToEm k c >>= dec) = .ok m ↔
      c.length = kOf k.n ∧ ∃ em, decryptToEm k c = .ok em ∧ dec em = .ok m := by
  split
  case isTrue hc =>
    refine iff_of_false nofun ?_
    rintro ⟨hlen, em, -, hem⟩
    have := hleast em hem
    omega
  case isFalse hc =>
    rw [bind_eq_ok, and_iff_right (not_not.mp fun hlen => hc (.inl hlen))]

/-- A generic region that gives no message ends with the one `DecryptionFailure` (R155). -/
theorem generic_of_not_ok {r : Except ErrKind Bytes} (h : ∀ x, r ≠ .ok x) : generic r = .error .decryptionFailure := by
  cases r with
  | error e => rfl
  | ok x => exact absurd rfl (h x)

/-! ### Keys that belong together -/

/-- The secret exponent of a key pair is no multiple of `p - 1` for an odd prime `p` (log 18). -/
theorem mod_sub_one_ne_zero {p e d m : Nat} (hp : 2 < p) (hm : p - 1 ∣ m) (h : e * d % m = 1) : d % (p - 1) ≠ 0 := by
  intro hd
  have hdvd : p - 1 ∣ e * d := (Nat.dvd_of_mod_eq_zero hd).mul_left e
  have hone : p - 1 ∣ 1 := h ▸ (Nat.dvd_mod_iff hm).mpr hdvd
  have := Nat.le_of_dvd Nat.one_pos hone
  omega

/-- Garner's recombination `m2 + q*h` has the residue `m1` modulo `p` (R115). -/
theorem crt_recombination_modEq {p q qinv m1 m2 : Nat} (hp : p ≠ 0) (hinv : qinv * q % p = 1) :
    m2 + q * ((((m1 : Int) - (m2 : Int)) * (qinv : Int)) % (p : Int)).toNat ≡ m1 [MOD p] := by
  have hnonneg := Int.emod_nonneg (((m1 : Int) - m2) * qinv) (Int.natCast_ne_zero.mpr hp)
  have hone : (qinv : Int) * q ≡ 1 [ZMOD p] := by
    have hnat := (Nat.mod_modEq (qinv * q) p).symm
    rw [hinv, ← Int.natCast_modEq_iff] at hnat
    exact_mod_cast hnat
  rw [← Int.natCast_modEq_iff, Nat.cast_add, Nat.cast_mul, Int.toNat_of_nonneg hnonneg]
  calc (m2 : Int) + q * (((m1 : Int) - m2) * qinv % p)
      ≡ m2 + q * (((m1 : Int) - m2) * qinv) [ZMOD p] := ((Int.mod_modEq _ _).mul_left _).add_left _
    _ = m2 + (m1 - m2) * (qinv * q) := by ring
    _ ≡ m2 + (m1 - m2) * 1 [ZMOD p] := (hone.mul_left _).add_left _
    _ = m1 := by ring

/-- The CRT form computes the power of the modulus form, where neither reduced exponent is 0 (R119, log 18). -/
theorem apply_crt_eq_pow_mod {p q d qinv : Nat} (hp : p.Prime) (hq : q.Prime) (hne : p ≠ q) (hdp : d % (p - 1) ≠ 0)
    (hdq : d % (q - 1) ≠ 0) (hinv : qinv * q % p = 1) (c : Nat) :
    (PrivKey.crt p q (d % (p - 1)) (d % (q - 1)) qinv).apply c = c ^ d % (p * q) := by
  have hlt := (PrivKey.crt p q (d % (p - 1)) (d % (q - 1)) qinv).apply_lt c (Nat.mul_ne_zero hp.ne_zero hq.ne_zero)
  rw [apply_crt] at hlt ⊢
  have hmod := (Nat.modEq_and_modEq_iff_modEq_mul ((Nat.coprime_primes hp hq).mpr hne)).mp
    ⟨(crt_recombination_modEq (m2 := c ^ (d % (q - 1)) % q) hp.ne_zero hinv).trans
        ((Nat.mod_modEq _ p).trans (pow_mod_sub_one (c := c) hp hdp)),
      (Nat.add_mul_mod_self_left _ q _).trans ((Nat.mod_modEq _ q).trans (pow_mod_sub_one (c := c) hq hdq))⟩
  exact (Nat.mod_eq_of_lt hlt).symm.trans hmod

/-- The `PrivKey` of a pair raises to an exponent `d`, in both forms, and `d` undoes the public exponent (R119). -/
theorem rsaPair_exponent {pub : PubKey} {priv : PrivKey} (h : RsaPair pub priv) : priv.n = pub.n ∧
    ∃ d, (∀ c, priv.apply c = c ^ d % pub.n) ∧ ∀ x, x ^ (pub.e * d) ≡ x [MOD pub.n] := by
  obtain ⟨p, q, d, hp, hq, hne, hp2, hq2, hn, hed, hpriv⟩ := h
  have hundo (x : Nat) : x ^ (pub.e * d) ≡ x [MOD p * q] := pow_mul_modEq_self hp hq hne hed
  rw [hn]
  obtain rfl | ⟨qinv, hinv, rfl⟩ := hpriv
  · exact ⟨rfl, d, apply_modulus _ d, hundo⟩
  · have hdp := mod_sub_one_ne_zero hp2 (Nat.dvd_lcm_left _ (q - 1)) hed
    have hdq := mod_sub_one_ne_zero hq2 (Nat.dvd_lcm_right (p - 1) _) hed
    exact ⟨rfl, d, apply_crt_eq_pow_mod hp hq hne hdp hdq hinv, hundo⟩

/-- The `PrivKey` of a pair undoes the `PubKey`. -/
theorem apply_pow_mod_of_rsaPair {pub : PubKey} {priv : PrivKey} (h : RsaPair pub priv) {x : Nat} (hx : x < pub.n) :
    priv.apply (x ^ pub.e % pub.n) = x := by
  obtain ⟨-, d, happly, hundo⟩ := rsaPair_exponent h
  calc priv.apply (x ^ pub.e % pub.n) = (x ^ pub.e % pub.n) ^ d % pub.n := happly _
    _ = x ^ (pub.e * d) % pub.n := by rw [← Nat.pow_mod, ← pow_mul]
    _ = x % pub.n := hundo x
    _ = x := Nat.mod_eq_of_lt hx

/-- Decrypting an encrypted encoded message gives it back (R156, R176). -/
theorem decryptToEm_of_encryptEm {pub : PubKey} {priv : PrivKey} {em c : Bytes} (h : RsaPair pub priv)
    (hem : os2ip em < pub.n) (hlen : em.length = kOf pub.n) (hc : encryptEm pub em = .ok c) :
    decryptToEm priv c = .ok em := by
  rw [decryptToEm_eq_ok, os2ip_of_encryptEm hem hc, apply_pow_mod_of_rsaPair h hem, (rsaPair_exponent h).1]
  exact ⟨Nat.mod_lt _ (Nat.zero_lt_of_lt hem), hlen, rfl⟩

end Sys2Proof.Machine
end

/-! ## OAEP (42_oaep.md R150 to R156) -/

section
namespace Sys2Proof.Machine

/-! ### Encoding and decoding as functions -/

section Functions

variable {D : Digest} {k : Nat} {m l em x : Bytes} {src : PadSource}

theorem oaepEncode_of_short (h : k < m.length + 2 * D.hLen + 2) : oaepEncode D k m l src = .error .messageTooLong := by
  rw [oaepEncode_eq, if_neg (Nat.not_le.mpr h)]

/-- A supplied seed of another length is refused after the message's length (R150 step 4). -/
theorem oaepEncode_of_bad_seed (h : m.length + 2 * D.hLen + 2 ≤ k) (hx : x.length ≠ D.hLen) :
    oaepEncode D k m l (.fixed x) = .error .invalidSeed := by
  rw [oaepEncode_eq, if_pos h, oaepSeed, if_pos hx]
  rfl

/-- Decoding accepts exactly the encodings (R152). -/
theorem oaepDecode_eq_ok : oaepDecode D k em l = .ok m ↔ OaepAccepts D k em l m :=
  ⟨oaepAccepts_of_decode, oaepDecode_of_accepts⟩

theorem oaepDecode_of_not_accepts (h : ∀ m, ¬ OaepAccepts D k em l m) :
    oaepDecode D k em l = .error .decryptionFailure := by
  cases hdec : oaepDecode D k em l with
  | error e => rw [oaepDecode_error hdec]
  | ok m => exact absurd (oaepAccepts_of_decode hdec) (h m)

/-- An accepted string begins with the octet 00. -/
theorem head?_of_oaepAccepts (h : OaepAccepts D k em l m) : em.head? = some 0x00 := by
  obtain ⟨_, _, _, _, _, rfl, -⟩ := h
  rfl

theorem size_le_of_oaepAccepts (h : OaepAccepts D k em l m) : 2 * D.hLen + 2 ≤ k := by
  obtain ⟨_, _, _, _, _, -, -, -, hk, -⟩ := h
  exact hk

end Functions

/-- Settles O43: what encoding gives is accepted, and an accepted string begins with the octet 00. -/
theorem oaepRoundTrip : Obligations.OaepRoundTrip := by
  intro D k m l em src h
  refine ⟨oaepDecode_of_accepts (oaepAccepts_of_encode h), fun y hy => oaepDecode_of_not_accepts fun m' haccepts => ?_⟩
  exact hy (Option.some.inj (head?_of_oaepAccepts haccepts))

/-! ### OAEP_ENC and OAEP_DEC -/

/-- Within the capacities `OAEP_ENC` encodes (R151). -/
theorem oaepEncOp_eq {s : State} {fix : Bool} {len : Nat} (hmsg : s.bufLen .msg ≤ 4096) (hlbl : s.bufLen .lbl ≤ 512)
    (haux : fix = true → s.bufLen .aux ≤ 512) (hlen : len ≤ 512) :
    s.oaepEncOp fix len = oaepEncode s.digest len (s.val .msg) (s.val .lbl) (s.padSource fix) := by
  have hcap : (s.overCap .msg || s.overCap .lbl || s.fixOverCap fix) = false := by
    rw [overCap_eq_false s hmsg, overCap_eq_false s hlbl, fixOverCap_eq_false s haux]; rfl
  exact if_neg (capacity_ok hcap hlen)

/-- Settles O41: an encoding within KMAX cannot fail in MGF1, so that its length and seed decide. -/
theorem oaepEncCompletes : Obligations.OaepEncCompletes := by
  intro s fix len hmsg hlbl haux hlen
  have hop := oaepEncOp_eq hmsg hlbl haux hlen
  simp only [← State.val_length s .msg]
  refine ⟨fun seed db hfit hseedLen hseed hdb => ?_, fun hshort => ?_, fun hfit hfix hbad => ?_⟩
  · subst hseed hdb
    have hle := digest_hLen_le s
    obtain ⟨dbMask, seedMask, hdbMask, hseedMask, henc⟩ := oaepEncode_total (digest_hLen_pos s) (by omega) (by omega)
      (s.val .lbl) (oaepSeed_padSource hseedLen) hfit
    exact ⟨dbMask, seedMask, _, hdbMask, hseedMask, rfl, (oaepEncode_shape henc).1,
      exec_em_ok (i := .oaepEnc fix len) rfl (hop.trans henc)⟩
  · exact exec_em_error (i := .oaepEnc fix len) rfl (hop.trans (oaepEncode_of_short hshort)) rfl rfl
  · subst hfix
    exact exec_em_error (i := .oaepEnc true len) rfl
      (hop.trans (oaepEncode_of_bad_seed hfit (by rwa [State.val_length]))) rfl rfl

/-- Within the capacities `OAEP_DEC` decodes (R153). -/
theorem oaepDecOp_eq {s : State} {len : Nat} (hem : s.bufLen .em ≤ 512) (hlbl : s.bufLen .lbl ≤ 512)
    (hlen : len ≤ 512) : s.oaepDecOp len = oaepDecode s.digest len (s.val .em) (s.val .lbl) := by
  have hcap : (s.overCap .em || s.overCap .lbl) = false := by
    rw [overCap_eq_false s hem, overCap_eq_false s hlbl]; rfl
  exact if_neg (capacity_ok hcap hlen)

/-- Settles O42: decoding accepts exactly the encodings, and rejects with one kind. -/
theorem oaepDecCompletes : Obligations.OaepDecCompletes := by
  intro s len hem hlbl hlen
  have hop := oaepDecOp_eq hem hlbl hlen
  refine ⟨fun m haccepts => ?_, fun hreject => ?_⟩
  · exact exec_out_ok (i := .oaepDec len) rfl (hop.trans (oaepDecode_of_accepts haccepts))
  · exact exec_out_error (i := .oaepDec len) rfl (hop.trans (oaepDecode_of_not_accepts hreject)) rfl rfl rfl

/-! ### OAEP_ENCRYPT and OAEP_DECRYPT -/

section Encrypt

variable {s : State} {fix : Bool} {e : ErrKind}

theorem pubKey_n_eq_zero_iff (s : State) : s.pubKey.n = 0 ↔ s.keys.n = 0 := by
  rw [← BitVec.toNat_inj, BitVec.ofNat_eq_ofNat, BitVec.toNat_zero]
  rfl

variable (hmsg : s.bufLen .msg ≤ 4096) (hlbl : s.bufLen .lbl ≤ 512) (haux : fix = true → s.bufLen .aux ≤ 512)
include hmsg hlbl haux

/-- Within the capacities `OAEP_ENCRYPT` checks the modulus, encodes and encrypts (R154). -/
theorem oaepEncryptOp_eq : s.oaepEncryptOp fix = s.pubKey.check >>= fun pub =>
    oaepEncode s.digest (kOf pub.n) (s.val .msg) (s.val .lbl) (s.padSource fix) >>= encryptEm pub := by
  have hcap : (s.overCap .msg || s.overCap .lbl || s.fixOverCap fix) = false := by
    rw [overCap_eq_false s hmsg, overCap_eq_false s hlbl, fixOverCap_eq_false s haux]; rfl
  exact if_neg (by rw [hcap]; nofun)

theorem oaepEncryptOp_of_zero (hn : s.pubKey.n = 0) : s.oaepEncryptOp fix = .error .illegalParameter :=
  (oaepEncryptOp_eq hmsg hlbl haux).trans (bind_eq_error _ (pubKey_check_zero hn))

theorem oaepEncryptOp_of_ne_zero (hn : s.pubKey.n ≠ 0) : s.oaepEncryptOp fix =
    oaepEncode s.digest (kOf s.pubKey.n) (s.val .msg) (s.val .lbl) (s.padSource fix) >>= encryptEm s.pubKey := by
  rw [oaepEncryptOp_eq hmsg hlbl haux, pubKey_check_ok hn]
  rfl

end Encrypt

/-- Settles O44: the encoding is a representative, so that encrypting it cannot fail. -/
theorem oaepEncryptCompletes : Obligations.OaepEncryptCompletes := by
  intro s fix k hk hmsg hlbl haux
  obtain rfl : k = kOf s.pubKey.n := hk
  have hop := oaepEncryptOp_of_ne_zero hmsg hlbl haux
  have herr {e : ErrKind} (h : s.oaepEncryptOp fix = .error e) :=
    exec_seededOut_error (i := .oaepEncrypt fix) rfl h rfl rfl
  simp only [← State.val_length s .msg, ne_eq, ← pubKey_n_eq_zero_iff]
  refine ⟨fun hn hfit hseedLen => ?_, fun hn => herr (oaepEncryptOp_of_zero hmsg hlbl haux hn),
    fun hn hshort => herr ((hop hn).trans (bind_eq_error _ (oaepEncode_of_short hshort))),
    fun hn hfit hfix hbad => ?_⟩
  · have hle := digest_hLen_le s
    have hkMax := kOf_pubKey_le s
    rw [kMax_eq] at hkMax
    obtain ⟨_, _, -, -, henc⟩ := oaepEncode_total (digest_hLen_pos s) (by omega) (by omega) (s.val .lbl)
      (oaepSeed_padSource hseedLen) hfit
    have hlt := oaepEncode_value_lt hn henc
    have hc := encryptEm_of_lt hlt
    exact ⟨_, _, henc, encryptEm_length hc, os2ip_of_encryptEm hlt hc,
      exec_seededOut_ok (i := .oaepEncrypt fix) rfl ((hop hn).trans (bind_eq_ok.mpr ⟨_, henc, hc⟩))⟩
  · subst hfix
    exact herr ((hop hn).trans (bind_eq_error _ (oaepEncode_of_bad_seed hfit (by rwa [State.val_length]))))

/-- A ciphertext is taken exactly when it has the key's size and decrypts to an encoding (R155). -/
theorem oaepDecryptCore_eq_ok {D : Digest} {priv : PrivKey} {c l m : Bytes} :
    oaepDecryptCore D priv c l = .ok m ↔ c.length = kOf priv.n
      ∧ ∃ em, decryptToEm priv c = .ok em ∧ OaepAccepts D (kOf priv.n) em l m := by
  simp only [← oaepDecode_eq_ok]
  exact decryptRegion_eq_ok fun em hem => size_le_of_oaepAccepts (oaepAccepts_of_decode hem)

/-- Within the capacities and with a modulus that passes stage 3, the generic region decides (R155). -/
theorem oaepDecryptOp_eq {s : State} (hmsg : s.bufLen .msg ≤ 4096) (hlbl : s.bufLen .lbl ≤ 512)
    (hn : s.privKey.n ≠ 0) (hw : s.privKey.n < 2 ^ 4096) :
    s.oaepDecryptOp = generic (oaepDecryptCore s.digest s.privKey (s.val .msg) (s.val .lbl)) := by
  have hcap : (s.overCap .msg || s.overCap .lbl) = false := by
    rw [overCap_eq_false s hmsg, overCap_eq_false s hlbl]; rfl
  rw [State.oaepDecryptOp, if_neg (by rw [hcap]; nofun), privKey_check_ok hn hw]
  rfl

/-- Settles O45: the string of `k` octets with the value of RSADP is the one that is decoded. -/
theorem oaepDecryptCompletes : Obligations.OaepDecryptCompletes := by
  intro s k c hk hc hmsg hlbl hn hw
  obtain rfl : k = kOf s.privKey.n := hk
  subst hc
  have hop := oaepDecryptOp_eq hmsg hlbl hn hw
  refine ⟨fun m em hlen hlt hemLen hem haccepts => ?_, fun hreject => ?_⟩
  · have hcore := oaepDecryptCore_eq_ok.mpr
      ⟨(State.val_length s .msg).trans hlen, em, decryptToEm_eq_ok.mpr ⟨hlt, hemLen, hem⟩, haccepts⟩
    exact exec_schemeOut_ok (i := .oaepDecrypt) rfl (by rw [hop, hcore, generic])
  · refine exec_out_error (i := .oaepDecrypt) rfl (hop.trans (generic_of_not_ok fun m hcore => ?_)) rfl rfl rfl
    obtain ⟨hlen, em, hdec, haccepts⟩ := oaepDecryptCore_eq_ok.mp hcore
    obtain ⟨hlt, hemLen, hem⟩ := decryptToEm_eq_ok.mp hdec
    rcases hreject with hne | hge | hnone
    · exact hne ((State.val_length s .msg).symm.trans hlen)
    · exact Nat.not_lt.mpr hge hlt
    · exact hnone m em hemLen hem haccepts

end Sys2Proof.Machine
end

/-! ## Encrypting and then decrypting (42_oaep.md R156, 43_pkcs1_encryption.md R176) -/

section
namespace Sys2Proof.Machine

/-! ### PKCS1_DECRYPT's generic region -/

theorem p1eDecode_eq_ok {k : Nat} {em m : Bytes} : p1eDecode k em = .ok m ↔ P1eAccepts k em m :=
  ⟨p1eAccepts_of_decode, p1eDecode_of_accepts⟩

/-- Two marker octets, 8 octets of `PS` and the separator (43_pkcs1_encryption.md R172). -/
theorem size_le_of_p1eAccepts {k : Nat} {em m : Bytes} (h : P1eAccepts k em m) : 11 ≤ k := by
  obtain ⟨rfl, ps, rfl, -, hps⟩ := h
  simp only [List.length_append, List.length_cons, List.length_nil]
  omega

/-- A ciphertext is taken exactly when it has the key's size and decrypts to an encoding (43_pkcs1_encryption.md
R175). -/
theorem pkcs1DecryptCore_eq_ok {priv : PrivKey} {c m : Bytes} : pkcs1DecryptCore priv c = .ok m ↔
    c.length = kOf priv.n ∧ ∃ em, decryptToEm priv c = .ok em ∧ P1eAccepts (kOf priv.n) em m := by
  simp only [← p1eDecode_eq_ok]
  exact decryptRegion_eq_ok fun em hem => size_le_of_p1eAccepts (p1eAccepts_of_decode hem)

/-- Within the capacity and with a modulus that passes stage 3, the generic region decides (43_pkcs1_encryption.md
R175). -/
theorem pkcs1DecryptOp_eq {s : State} (hmsg : s.bufLen .msg ≤ 4096) (hn : s.privKey.n ≠ 0)
    (hw : s.privKey.n < 2 ^ 4096) : s.pkcs1DecryptOp = generic (pkcs1DecryptCore s.privKey (s.val .msg)) := by
  rw [State.pkcs1DecryptOp, if_neg (by rw [overCap_eq_false s hmsg]; nofun), privKey_check_ok hn hw]
  rfl

/-! ### The two commands one after the other -/

/-- What a decrypt command reads once the host has put the OUT of an encrypt command into MSG: the ciphertext, and the
label, digest and key of the state `s` that encrypted. -/
structure Receives (s u : State) (c : Bytes) : Prop where
  length : c.length ≤ 512
  msg : u.val .msg = c
  lbl : u.val .lbl = s.val .lbl
  digest : u.digest = s.digest
  key : u.privKey = s.privKey

theorem receives_out {s : State} {c : Bytes} {n : Nat} (hc : c.length ≤ 512) : Receives s
    { s with
      msg := Buffer.ofBytes c, out := Buffer.ofBytes c, em := Buffer.empty, xi := 0, status := doneFlags s false none
      draws := n } c :=
  ⟨hc, State.val_of_buf rfl (by omega), rfl, rfl, rfl⟩

section RoundTrip

variable {s u : State} {fix : Bool} {c : Bytes}

theorem receives_msg_le (hrec : Receives s u c) : u.bufLen .msg ≤ 4096 := by
  rw [← State.val_length, hrec.msg]
  exact hrec.length.trans (by decide)

/-- The `PrivKey` of a pair with a `PubKey` in a register passes stage 3. -/
theorem privKey_in_range (hpair : RsaPair s.pubKey s.privKey) (hn : s.pubKey.n ≠ 0) :
    s.privKey.n ≠ 0 ∧ s.privKey.n < 2 ^ 4096 := by
  rw [(rsaPair_exponent hpair).1]
  exact ⟨hn, pubKey_n_lt s⟩

theorem oaepDecryptOp_of_encrypted (hpair : RsaPair s.pubKey s.privKey) (hrec : Receives s u c)
    (hlbl : s.bufLen .lbl ≤ 512) (h : s.oaepEncryptOp fix = .ok c) : u.oaepDecryptOp = .ok (s.val .msg) := by
  obtain ⟨hn, em, henc, hc⟩ := oaepEncryptOp_eq_ok h
  obtain ⟨hpriv, hw⟩ := privKey_in_range hpair hn
  have hsize := (rsaPair_exponent hpair).1
  have hdec := decryptToEm_of_encryptEm hpair (oaepEncode_value_lt hn henc) (oaepEncode_shape henc).1 hc
  have hcore : oaepDecryptCore s.digest s.privKey c (s.val .lbl) = .ok (s.val .msg) := by
    rw [oaepDecryptCore_eq_ok, hsize]
    exact ⟨encryptEm_length hc, em, hdec, oaepAccepts_of_encode henc⟩
  rw [oaepDecryptOp_eq (receives_msg_le hrec) (by rwa [← State.val_length, hrec.lbl, State.val_length])
    (by rwa [hrec.key]) (by rwa [hrec.key]), hrec.msg, hrec.lbl, hrec.digest, hrec.key, hcore, generic]

theorem pkcs1DecryptOp_of_encrypted (hpair : RsaPair s.pubKey s.privKey) (hrec : Receives s u c)
    (h : s.pkcs1EncryptOp fix = .ok c) : u.pkcs1DecryptOp = .ok (s.val .msg) := by
  obtain ⟨hn, em, henc, hc⟩ := pkcs1EncryptOp_eq_ok h
  obtain ⟨hpriv, hw⟩ := privKey_in_range hpair hn
  have hsize := (rsaPair_exponent hpair).1
  have haccepts := p1eAccepts_of_encode henc
  have hdec := decryptToEm_of_encryptEm hpair (p1eEncode_value_lt hn henc) haccepts.1 hc
  have hcore : pkcs1DecryptCore s.privKey c = .ok (s.val .msg) := by
    rw [pkcs1DecryptCore_eq_ok, hsize]
    exact ⟨encryptEm_length hc, em, hdec, haccepts⟩
  rw [pkcs1DecryptOp_eq (receives_msg_le hrec) (by rwa [hrec.key]) (by rwa [hrec.key]), hrec.msg, hrec.key, hcore,
    generic]

end RoundTrip

/-- Settles O51: with keys that belong together, the decrypted encoded message is the encrypted one. -/
theorem encryptDecryptRoundTrip : Obligations.EncryptDecryptRoundTrip := by
  intro s t fix hpair ht
  refine ⟨fun h => ?_, fun h => ?_⟩
  · have hover := not_overCapacity_of_exec h ht
    have hlbl : s.bufLen .lbl ≤ 512 := Nat.le_of_not_lt fun hlt => hover (.inr (.inl hlt))
    obtain ⟨c, hop, rfl⟩ := exec_schemeOut_eq_next (i := .oaepEncrypt fix) rfl h ht
    refine ⟨_, exec_schemeOut_ok (i := .oaepDecrypt) rfl ?_, rfl, rfl⟩
    exact oaepDecryptOp_of_encrypted hpair (receives_out (oaepEncryptOp_length hop)) hlbl hop
  · obtain ⟨c, hop, rfl⟩ := exec_schemeOut_eq_next (i := .pkcs1Encrypt fix) rfl h ht
    refine ⟨_, exec_schemeOut_ok (i := .pkcs1Decrypt) rfl ?_, rfl, rfl⟩
    exact pkcs1DecryptOp_of_encrypted hpair (receives_out (pkcs1EncryptOp_length hop)) hop

end Sys2Proof.Machine
end

/-! ## PKCS#1 v1.5 encryption (43_pkcs1_encryption.md R170 to R176) -/

section
namespace Sys2Proof.Machine

/-! ### Encoding and decoding as functions -/

section Functions

variable {k : Nat} {m em x : Bytes} {src : PadSource}

theorem p1eEncode_of_short (h : k < m.length + 11) : p1eEncode k m src = .error .messageTooLong := if_pos h

/-- A supplied `PS` of another length or with a 00 is refused after the message's length (R170 step 3). -/
theorem p1eEncode_of_bad_pad (h : m.length + 11 ≤ k) (hx : x.length + m.length + 3 ≠ k ∨ (0x00 : Byte) ∈ x) :
    p1eEncode k m (.fixed x) = .error .illegalParameter := by
  have hpad : x.length ≠ k - m.length - 3 ∨ (0x00 : Byte) ∈ x := hx.imp_left (by omega)
  rw [p1eEncode, if_neg (Nat.not_lt.mpr h), p1ePad, if_pos hpad]
  rfl

theorem p1eDecode_of_not_accepts (h : ∀ m, ¬ P1eAccepts k em m) : p1eDecode k em = .error .decryptionFailure := by
  cases hdec : p1eDecode k em with
  | error e => rw [p1eDecode_error hdec]
  | ok m => exact absurd (p1eAccepts_of_decode hdec) (h m)

/-- An accepted string begins with the octets 00 02. -/
theorem markers_of_p1eAccepts {y z : Byte} (h : P1eAccepts k (y :: z :: em) m) : y = 0x00 ∧ z = 0x02 := by
  obtain ⟨-, ps, hem, -⟩ := h
  obtain ⟨hy, htail⟩ := List.cons.inj hem
  exact ⟨hy, (List.cons.inj htail).1⟩

end Functions

/-- Settles O48: what encoding gives is accepted, and an accepted string begins with the octets 00 02. -/
theorem p1eRoundTrip : Obligations.P1eRoundTrip := by
  intro k m em src h
  refine ⟨p1eDecode_of_accepts (p1eAccepts_of_encode h), fun y z hyz => p1eDecode_of_not_accepts fun m' haccepts => ?_⟩
  obtain ⟨hy, hz⟩ := markers_of_p1eAccepts haccepts
  exact hyz.elim (· hy) (· hz)

/-! ### P1E_ENC and P1E_DEC -/

section Pad

variable {s : State} {fix : Bool} {k n : Nat}

/-- A supplied `PS` of the exact length and without 00 is taken as it is, and a draw always serves (R170 step 3). -/
theorem p1ePad_padSource (h : fix = true → s.bufLen .aux = n ∧ (0x00 : Byte) ∉ s.val .aux) :
    p1ePad n (s.padSource fix) = .ok (if fix then s.val .aux else Config.drawNonzero s.draws n) := by
  cases fix with
  | false => rfl
  | true =>
    obtain ⟨hlen, hzero⟩ := h rfl
    exact if_neg (not_or.mpr ⟨not_not.mpr ((State.val_length s .aux).trans hlen), hzero⟩)

/-- A message that fits, with a `PS` that serves, is encoded with the `PS` of its source (R170). -/
theorem exists_p1eEncode_padSource (hfit : s.bufLen .msg + 11 ≤ k)
    (hpad : fix = true → s.bufLen .aux + s.bufLen .msg + 3 = k ∧ (0x00 : Byte) ∉ s.val .aux) :
    ∃ ps, p1ePad (k - s.bufLen .msg - 3) (s.padSource fix) = .ok ps
      ∧ (fix = true → ps = s.val .aux) ∧ (fix = false → ps = Config.drawNonzero s.draws ps.length)
      ∧ p1eEncode k (s.val .msg) (s.padSource fix) = .ok ([0x00, 0x02] ++ ps ++ [0x00] ++ s.val .msg) := by
  have hps := p1ePad_padSource (s := s) (fix := fix) (n := k - s.bufLen .msg - 3) fun hfix =>
    (hpad hfix).imp_left (by omega)
  refine ⟨_, hps, ?_, ?_, p1eEncode_eq_ok.mpr ?_⟩
  · rintro rfl
    rfl
  · rintro rfl
    rw [if_neg Bool.false_ne_true, drawNonzero_length]
  · rw [State.val_length]
    exact ⟨hfit, _, hps, rfl⟩

/-- Within the capacities `P1E_ENC` encodes (R171). -/
theorem p1eEncOp_eq {len : Nat} (hmsg : s.bufLen .msg ≤ 4096) (haux : fix = true → s.bufLen .aux ≤ 512)
    (hlen : len ≤ 512) : s.p1eEncOp fix len = p1eEncode len (s.val .msg) (s.padSource fix) := by
  have hcap : (s.overCap .msg || s.fixOverCap fix) = false := by
    rw [overCap_eq_false s hmsg, fixOverCap_eq_false s haux]; rfl
  exact if_neg (capacity_ok hcap hlen)

end Pad

/-- Settles O46: past the capacity checks the message's length and the supplied `PS` decide. -/
theorem p1eEncCompletes : Obligations.P1eEncCompletes := by
  intro s fix len hmsg haux hlen
  have hop := p1eEncOp_eq hmsg haux hlen
  refine ⟨fun hfit hpad => ?_, fun hshort => ?_, fun hfit hfix hbad => ?_⟩
  · obtain ⟨ps, hps, hfixed, hdrawn, henc⟩ := exists_p1eEncode_padSource hfit hpad
    obtain ⟨hpsLen, hzero⟩ := p1ePad_ok hps
    exact ⟨ps, _, hfixed, hdrawn, by omega, hzero, rfl, exec_em_ok (i := .p1eEnc fix len) rfl (hop.trans henc)⟩
  · rw [← State.val_length] at hshort
    exact exec_em_error (i := .p1eEnc fix len) rfl (hop.trans (p1eEncode_of_short hshort)) rfl rfl
  · subst hfix
    simp only [← State.val_length] at hfit hbad
    exact exec_em_error (i := .p1eEnc true len) rfl (hop.trans (p1eEncode_of_bad_pad hfit hbad)) rfl rfl

/-- Within the capacities `P1E_DEC` decodes (R173). -/
theorem p1eDecOp_eq {s : State} {len : Nat} (hem : s.bufLen .em ≤ 512) (hlen : len ≤ 512) :
    s.p1eDecOp len = p1eDecode len (s.val .em) :=
  if_neg (capacity_ok (overCap_eq_false s hem) hlen)

/-- Settles O47: decoding accepts exactly the encodings, and rejects with one kind. -/
theorem p1eDecCompletes : Obligations.P1eDecCompletes := by
  intro s len hem hlen
  have hop := p1eDecOp_eq hem hlen
  refine ⟨fun m haccepts => ?_, fun hreject => ?_⟩
  · exact exec_out_ok (i := .p1eDec len) rfl (hop.trans (p1eDecode_of_accepts haccepts))
  · exact exec_out_error (i := .p1eDec len) rfl (hop.trans (p1eDecode_of_not_accepts hreject)) rfl rfl rfl

/-! ### PKCS1_ENCRYPT and PKCS1_DECRYPT -/

section Encrypt

variable {s : State} {fix : Bool} (hmsg : s.bufLen .msg ≤ 4096) (haux : fix = true → s.bufLen .aux ≤ 512)
include hmsg haux

/-- Within the capacities `PKCS1_ENCRYPT` checks the modulus, encodes and encrypts (R174). -/
theorem pkcs1EncryptOp_eq : s.pkcs1EncryptOp fix = s.pubKey.check >>= fun pub =>
    p1eEncode (kOf pub.n) (s.val .msg) (s.padSource fix) >>= encryptEm pub := by
  have hcap : (s.overCap .msg || s.fixOverCap fix) = false := by
    rw [overCap_eq_false s hmsg, fixOverCap_eq_false s haux]; rfl
  exact if_neg (by rw [hcap]; nofun)

theorem pkcs1EncryptOp_of_zero (hn : s.pubKey.n = 0) : s.pkcs1EncryptOp fix = .error .illegalParameter :=
  (pkcs1EncryptOp_eq hmsg haux).trans (bind_eq_error _ (pubKey_check_zero hn))

theorem pkcs1EncryptOp_of_ne_zero (hn : s.pubKey.n ≠ 0) : s.pkcs1EncryptOp fix =
    p1eEncode (kOf s.pubKey.n) (s.val .msg) (s.padSource fix) >>= encryptEm s.pubKey := by
  rw [pkcs1EncryptOp_eq hmsg haux, pubKey_check_ok hn]
  rfl

end Encrypt

/-- Settles O49: the encoding is a representative, so that encrypting it cannot fail. -/
theorem pkcs1EncryptCompletes : Obligations.Pkcs1EncryptCompletes := by
  intro s fix k hk hmsg haux
  obtain rfl : k = kOf s.pubKey.n := hk
  have hop := pkcs1EncryptOp_of_ne_zero hmsg haux
  have herr {e : ErrKind} (h : s.pkcs1EncryptOp fix = .error e) :=
    exec_seededOut_error (i := .pkcs1Encrypt fix) rfl h rfl rfl
  simp only [ne_eq, ← pubKey_n_eq_zero_iff]
  refine ⟨fun hn hfit hpad => ?_, fun hn => herr (pkcs1EncryptOp_of_zero hmsg haux hn), fun hn hshort => ?_,
    fun hn hfit hfix hbad => ?_⟩
  · obtain ⟨_, -, -, -, henc⟩ := exists_p1eEncode_padSource hfit hpad
    have hlt := p1eEncode_value_lt hn henc
    have hc := encryptEm_of_lt hlt
    exact ⟨_, _, henc, encryptEm_length hc, os2ip_of_encryptEm hlt hc,
      exec_seededOut_ok (i := .pkcs1Encrypt fix) rfl ((hop hn).trans (bind_eq_ok.mpr ⟨_, henc, hc⟩))⟩
  · rw [← State.val_length] at hshort
    exact herr ((hop hn).trans (bind_eq_error _ (p1eEncode_of_short hshort)))
  · subst hfix
    simp only [← State.val_length] at hfit hbad
    exact herr ((hop hn).trans (bind_eq_error _ (p1eEncode_of_bad_pad hfit hbad)))

/-- Settles O50: the string of `k` octets with the value of RSADP is the one that is decoded. -/
theorem pkcs1DecryptCompletes : Obligations.Pkcs1DecryptCompletes := by
  intro s k c hk hc hmsg hn hw
  obtain rfl : k = kOf s.privKey.n := hk
  subst hc
  have hop := pkcs1DecryptOp_eq hmsg hn hw
  have hcore (m : Bytes) := pkcs1DecryptCore_eq_ok (priv := s.privKey) (c := s.val .msg) (m := m)
  simp only [decryptToEm_eq_ok, State.val_length] at hcore
  refine ⟨fun m em hlen hlt hemLen hem haccepts => ?_, fun hreject => ?_⟩
  · have hok := (hcore m).mpr ⟨hlen, em, ⟨hlt, hemLen, hem⟩, haccepts⟩
    exact exec_schemeOut_ok (i := .pkcs1Decrypt) rfl (by rw [hop, hok, generic])
  · refine exec_out_error (i := .pkcs1Decrypt) rfl (hop.trans (generic_of_not_ok fun m hok => ?_)) rfl rfl rfl
    obtain ⟨hlen, em, ⟨hlt, hemLen, hem⟩, haccepts⟩ := (hcore m).mp hok
    rcases hreject with hne | hge | hnone
    · exact hne hlen
    · exact Nat.not_lt.mpr hge hlt
    · exact hnone m em hemLen hem haccepts

end Sys2Proof.Machine
end

/-! ## Verdicts, and the two halves of an RSA signature (60_exceptions.md R239; 44_pss.md R194, R195) -/

section
namespace Sys2Proof.Machine

/-! ### Completions with a verdict -/

section Verdict

variable {i : Instr} {s : State} {r : Except ErrKind Bool}

/-- A component command with a verdict writes STATUS alone. -/
theorem exec_verdict {ok : Bool} (hi : resultOf i s = .verdict .component r) (h : r = .ok ok) :
    exec i s = .next { s with status := doneFlags s ok (verdictErr ok) } := by
  rw [exec_eq_finish, hi, h]
  rfl

/-- A scheme command that accepts discards EM and XI. -/
theorem exec_schemeVerdict_accept (hi : resultOf i s = .verdict .scheme r) (h : r = .ok true) :
    exec i s = .next { s with em := Buffer.empty, xi := 0, status := doneFlags s true none } := by
  rw [exec_eq_finish, hi, h]
  rfl

theorem exec_schemeVerdict_reject (hi : resultOf i s = .verdict .scheme r) (h : r = .ok false)
    (hd : destOf i = none) (hl : layerOf i = .scheme) : exec i s = .next (s.failed i .invalidSignature) := by
  rw [exec_eq_finish, hi, h, ← finishVerdict_reject s hd hl]
  rfl

end Verdict

/-! ### Signing an encoded message and recovering it -/

/-- The value of a signature (R194, 45_pkcs1_signature.md R212). -/
theorem os2ip_of_signEm {k : PrivKey} {em c : Bytes} (hem : os2ip em < k.n) (hc : signEm k em = .ok c) :
    os2ip c = k.apply (os2ip em) := by
  rw [signEm_of_lt hem] at hc
  cases hc
  exact os2ip_octetsOf ((k.apply_lt _ (Nat.ne_zero_of_lt hem)).trans (lt_pow_kOf _))

/-- `I2OSP` gives the one string of its length with the value. -/
theorem i2osp_eq_ok_iff_value {x n : Nat} {y : Bytes} : i2osp x n = .ok y ↔ y.length = n ∧ os2ip y = x := by
  rw [i2osp_eq_ok]
  constructor
  · rintro ⟨hx, rfl⟩
    exact ⟨octetsOf_length .., os2ip_octetsOf hx⟩
  · rintro ⟨rfl, rfl⟩
    exact ⟨os2ip_lt y, (octetsOf_os2ip y).symm⟩

/-- The encoded message of `len` octets that the two verify commands take from a signature: `RSAVP1`, then `I2OSP`
(R195, 45_pkcs1_signature.md R213). -/
def recoverEm (k : PubKey) (sig : Bytes) (len : Nat) : Except ErrKind Bytes :=
  rsaPublic k (os2ip sig) .signatureOutOfRange >>= fun x => i2osp x len

theorem recoverEm_eq_ok {k : PubKey} {sig em : Bytes} {len : Nat} : recoverEm k sig len = .ok em ↔
    os2ip sig < k.n ∧ em.length = len ∧ os2ip em = os2ip sig ^ k.e % k.n := by
  rcases Nat.lt_or_ge (os2ip sig) k.n with hlt | hge
  · rw [recoverEm, rsaPublic_of_lt _ hlt, and_iff_right hlt, ← i2osp_eq_ok_iff_value]
    rfl
  · rw [recoverEm, rsaPublic_of_le _ hge]
    exact iff_of_false nofun fun h => Nat.not_lt.mpr hge h.1

/-- The `PubKey` of a pair undoes the `PrivKey`. -/
theorem pow_apply_mod_of_rsaPair {pub : PubKey} {priv : PrivKey} (h : RsaPair pub priv) {x : Nat} (hx : x < pub.n) :
    priv.apply x ^ pub.e % pub.n = x := by
  obtain ⟨-, d, happly, hundo⟩ := rsaPair_exponent h
  calc priv.apply x ^ pub.e % pub.n = (x ^ d % pub.n) ^ pub.e % pub.n := by rw [happly]
    _ = x ^ (pub.e * d) % pub.n := by rw [← Nat.pow_mod, ← pow_mul, mul_comm]
    _ = x % pub.n := hundo x
    _ = x := Nat.mod_eq_of_lt hx

/-- What was signed is recovered (R197, 45_pkcs1_signature.md R214). -/
theorem recoverEm_of_signEm {pub : PubKey} {priv : PrivKey} {em c : Bytes} (h : RsaPair pub priv)
    (hem : os2ip em < pub.n) (hc : signEm priv em = .ok c) : recoverEm pub c em.length = .ok em := by
  have hn := (rsaPair_exponent h).1
  rw [← hn] at hem
  rw [recoverEm_eq_ok, os2ip_of_signEm hem hc, pow_apply_mod_of_rsaPair h (hn ▸ hem), ← hn]
  exact ⟨priv.apply_lt _ (Nat.ne_zero_of_lt hem), rfl, rfl⟩

end Sys2Proof.Machine
end

/-! ## PSS (44_pss.md R190 to R197) -/

section
namespace Sys2Proof.Machine

/-! ### Encoding and verifying as functions -/

section Functions

variable {D : Digest} {emBits sLen : Nat} {m em x : Bytes} {src : PadSource}

theorem pssEncode_of_short (h : pssEmLen emBits < D.hLen + sLen + 2) :
    pssEncode D m emBits sLen src = .error .encodingError := if_pos h

/-- A supplied salt of another length is refused after the size (R190 step 3). -/
theorem pssEncode_of_bad_salt (h : D.hLen + sLen + 2 ≤ pssEmLen emBits) (hx : x.length ≠ sLen) :
    pssEncode D m emBits sLen (.fixed x) = .error .illegalParameter := by
  rw [pssEncode, if_neg (Nat.not_lt.mpr h), pssSalt, if_pos hx]
  rfl

theorem length_of_pssAccepts (h : PssAccepts D m em emBits sLen) : em.length = pssEmLen emBits := by
  obtain ⟨_, _, _, _, -, hlen, -⟩ := h
  exact hlen

theorem pssVerify_of_not_accepts (h : ¬ PssAccepts D m em emBits sLen) : pssVerify D m em emBits sLen = false :=
  Bool.eq_false_iff.mpr fun hok => h (pssAccepts_of_verify hok)

end Functions

/-- Settles O54: what encoding gives is an encoding with the salt it took. -/
theorem pssRoundTrip : Obligations.PssRoundTrip := by
  intro D m em emBits sLen src h
  exact pssVerify_of_accepts (pssAccepts_of_encode h)

/-! ### PSS_ENC and PSS_VFY -/

/-- Within the capacities `PSS_ENC` encodes (R191). -/
theorem pssEncOp_eq {s : State} {fix : Bool} {len : Nat} (hmsg : s.bufLen .msg ≤ 4096)
    (haux : fix = true → s.bufLen .aux ≤ 512) (hlen : pssEmLen len ≤ 512) :
    s.pssEncOp fix len = pssEncode s.digest (s.val .msg) len s.saltLen (s.padSource fix) := by
  have hcap : (s.overCap .msg || s.fixOverCap fix) = false := by
    rw [overCap_eq_false s hmsg, fixOverCap_eq_false s haux]; rfl
  exact if_neg (capacity_ok hcap hlen)

/-- Settles O52: an encoding within KMAX cannot fail in MGF1, so that its size and salt decide. -/
theorem pssEncCompletes : Obligations.PssEncCompletes := by
  intro s fix len emLen hemLen hmsg haux hcap
  obtain rfl : emLen = pssEmLen len := hemLen
  have hop := pssEncOp_eq hmsg haux hcap
  refine ⟨fun salt h hfit hsaltLen hsalt hh => ?_, fun hshort => ?_, fun hfit hfix hbad => ?_⟩
  · subst hsalt hh
    obtain ⟨dbMask, hdbMask, henc⟩ := pssEncode_total (digest_hLen_pos s) (m := s.val .msg) (by omega)
      (pssSalt_padSource hsaltLen) hfit
    exact ⟨dbMask, _, hdbMask, rfl, pssEncode_length henc, exec_em_ok (i := .pssEnc fix len) rfl (hop.trans henc)⟩
  · exact exec_em_error (i := .pssEnc fix len) rfl (hop.trans (pssEncode_of_short hshort)) rfl rfl
  · subst hfix
    exact exec_em_error (i := .pssEnc true len) rfl
      (hop.trans (pssEncode_of_bad_salt hfit (by rwa [State.val_length]))) rfl rfl

/-- Within the capacities `PSS_VFY` verifies (R193). -/
theorem pssVfyOp_eq {s : State} {len : Nat} (hmsg : s.bufLen .msg ≤ 4096) (hem : s.bufLen .em ≤ 512)
    (hlen : pssEmLen len ≤ 512) : s.pssVfyOp len = .ok (pssVerify s.digest (s.val .msg) (s.val .em) len s.saltLen) := by
  have hcap : (s.overCap .msg || s.overCap .em) = false := by
    rw [overCap_eq_false s hmsg, overCap_eq_false s hem]; rfl
  exact if_neg (capacity_ok hcap hlen)

/-- Settles O53: verification accepts exactly the encodings. -/
theorem pssVfyCompletes : Obligations.PssVfyCompletes := by
  intro s len hmsg hem hlen
  have hop := pssVfyOp_eq hmsg hem hlen
  refine ⟨fun haccepts => ?_, fun hreject => ?_⟩
  · exact exec_verdict (i := .pssVfy len) rfl (hop.trans (congrArg _ (pssVerify_of_accepts haccepts)))
  · exact exec_verdict (i := .pssVfy len) rfl (hop.trans (congrArg _ (pssVerify_of_not_accepts hreject)))

/-! ### PSS_SIGN and PSS_VERIFY -/

section Sign

variable {s : State} {fix : Bool} (hmsg : s.bufLen .msg ≤ 4096) (haux : fix = true → s.bufLen .aux ≤ 512)
include hmsg haux

/-- Within the capacities `PSS_SIGN` checks the key, encodes and signs (R194). -/
theorem pssSignOp_eq : s.pssSignOp fix = s.privKey.check >>= fun priv =>
    pssEncode s.digest (s.val .msg) (emBitsOf priv.n) s.saltLen (s.padSource fix) >>= signEm priv := by
  have hcap : (s.overCap .msg || s.fixOverCap fix) = false := by
    rw [overCap_eq_false s hmsg, fixOverCap_eq_false s haux]; rfl
  exact if_neg (by rw [hcap]; nofun)

theorem pssSignOp_of_zero (hn : s.privKey.n = 0) : s.pssSignOp fix = .error .illegalParameter :=
  (pssSignOp_eq hmsg haux).trans (bind_eq_error _ (privKey_check_zero hn))

theorem pssSignOp_of_ne_zero (hn : s.privKey.n ≠ 0) (hw : s.privKey.n < 2 ^ 4096) : s.pssSignOp fix =
    pssEncode s.digest (s.val .msg) (emBitsOf s.privKey.n) s.saltLen (s.padSource fix) >>= signEm s.privKey := by
  rw [pssSignOp_eq hmsg haux, privKey_check_ok hn hw]
  rfl

end Sign

/-- Settles O55: the encoding is a representative, so that signing it cannot fail. -/
theorem pssSignCompletes : Obligations.PssSignCompletes := by
  intro s fix k emBits hk hemBits hmsg haux hw
  obtain rfl : k = kOf s.privKey.n := hk
  obtain rfl : emBits = emBitsOf s.privKey.n := hemBits
  have hop (hn : s.privKey.n ≠ 0) := pssSignOp_of_ne_zero hmsg haux hn hw
  have herr {e : ErrKind} (h : s.pssSignOp fix = .error e) := exec_seededOut_error (i := .pssSign fix) rfl h rfl rfl
  refine ⟨fun hn hfit hsaltLen => ?_, fun hn => herr (pssSignOp_of_zero hmsg haux hn),
    fun hn hshort => herr ((hop hn).trans (bind_eq_error _ (pssEncode_of_short hshort))),
    fun hn hfit hfix hbad => ?_⟩
  · have hsize : pssEmLen (emBitsOf s.privKey.n) ≤ 2 ^ 32 :=
      ((pssEmLen_le_kOf _).trans (kOf_le_kMax hw)).trans (by decide)
    obtain ⟨_, -, henc⟩ := pssEncode_total (digest_hLen_pos s) hsize (pssSalt_padSource hsaltLen) hfit
    have hlt := pssEncode_value_lt_modulus hn henc
    have hc := signEm_of_lt hlt
    exact ⟨_, _, henc, signEm_length hc, os2ip_of_signEm hlt hc,
      exec_seededOut_ok (i := .pssSign fix) rfl ((hop hn).trans (bind_eq_ok.mpr ⟨_, henc, hc⟩))⟩
  · subst hfix
    exact herr ((hop hn).trans (bind_eq_error _ (pssEncode_of_bad_salt hfit (by rwa [State.val_length]))))

/-- A signature is accepted exactly when it has the key's size and an encoding of the message is recovered from it
(R195). -/
theorem pssVerifySignature_iff {D : Digest} {pub : PubKey} {m sig : Bytes} {sLen : Nat} :
    pssVerifySignature D pub m sig sLen = true ↔ sig.length = kOf pub.n ∧
      ∃ em, recoverEm pub sig (pssEmLen (emBitsOf pub.n)) = .ok em ∧ PssAccepts D m em (emBitsOf pub.n) sLen := by
  simp only [pssVerifySignature, recoverEm, ← pssVerify_iff]
  split
  case isFalse hlen => exact iff_of_false nofun fun h => hlen h.1
  case isTrue hlen =>
    rw [and_iff_right hlen]
    cases rsaPublic pub (os2ip sig) .signatureOutOfRange with
    | error e => exact iff_of_false nofun nofun
    | ok x =>
      simp only [bind, Except.bind]
      cases i2osp x (pssEmLen (emBitsOf pub.n)) with
      | error e => exact iff_of_false nofun nofun
      | ok em => simp

/-- Within the capacities and with a modulus that passes stage 3, the signature decides (R195). -/
theorem pssVerifyOp_eq {s : State} (hmsg : s.bufLen .msg ≤ 4096) (haux : s.bufLen .aux ≤ 512) (hn : s.pubKey.n ≠ 0) :
    s.pssVerifyOp = .ok (pssVerifySignature s.digest s.pubKey (s.val .msg) (s.val .aux) s.saltLen) := by
  have hcap : (s.overCap .msg || s.overCap .aux) = false := by
    rw [overCap_eq_false s hmsg, overCap_eq_false s haux]; rfl
  rw [State.pssVerifyOp, if_neg (by rw [hcap]; nofun), pubKey_check_ok hn]
  rfl

/-- Settles O56: the string of `ceil(emBits/8)` octets with the value of RSAVP1 is the one that is verified. -/
theorem pssVerifyCompletes : Obligations.PssVerifyCompletes := by
  intro s n sig x hN hsig hx hmsg haux hn
  obtain rfl : n = s.pubKey.n := hN
  subst hsig hx
  have hop := pssVerifyOp_eq hmsg haux hn
  refine ⟨fun em hlen hlt hem haccepts => ?_, fun hreject => ?_⟩
  · have hok := pssVerifySignature_iff.mpr ⟨(State.val_length s .aux).trans hlen, em,
      recoverEm_eq_ok.mpr ⟨hlt, length_of_pssAccepts haccepts, hem⟩, haccepts⟩
    exact exec_schemeVerdict_accept (i := .pssVerify) rfl (hop.trans (congrArg _ hok))
  · refine exec_schemeVerdict_reject (i := .pssVerify) rfl
      (hop.trans (congrArg _ (Bool.eq_false_iff.mpr fun hok => ?_))) rfl rfl
    obtain ⟨hlen, em, hrec, haccepts⟩ := pssVerifySignature_iff.mp hok
    obtain ⟨hlt, -, hem⟩ := recoverEm_eq_ok.mp hrec
    rcases hreject with hne | hge | hnone
    · exact hne ((State.val_length s .aux).symm.trans hlen)
    · exact Nat.not_lt.mpr hge hlt
    · exact hnone em hem haccepts

end Sys2Proof.Machine
end

/-! ## Signing and then verifying (44_pss.md R197, 45_pkcs1_signature.md R214) -/

section
namespace Sys2Proof.Machine

/-! ### PKCS1_VERIFY's verdict -/

/-- A signature is accepted exactly when it has the key's size and the encoding of the message is recovered from it
(45_pkcs1_signature.md R213). -/
theorem pkcs1VerifySignature_iff {D : Digest} {pub : PubKey} {m sig : Bytes} :
    pkcs1VerifySignature D pub m sig = true ↔ sig.length = kOf pub.n ∧
      ∃ em, p1sEncode D m (kOf pub.n) = .ok em ∧ recoverEm pub sig (kOf pub.n) = .ok em := by
  simp only [pkcs1VerifySignature, recoverEm]
  split
  case isFalse hlen => exact iff_of_false nofun fun h => hlen h.1
  case isTrue hlen =>
    rw [and_iff_right hlen]
    cases p1sEncode D m (kOf pub.n) with
    | error e => exact iff_of_false nofun nofun
    | ok em' =>
      cases rsaPublic pub (os2ip sig) .signatureOutOfRange with
      | error e => exact iff_of_false nofun nofun
      | ok x =>
        simp only [bind, Except.bind]
        cases i2osp x (kOf pub.n) with
        | error e => exact iff_of_false nofun nofun
        | ok em => simp [eq_comm]

/-- Within the capacities and with a modulus that passes stage 3, the signature decides (45_pkcs1_signature.md R213). -/
theorem pkcs1VerifyOp_eq {s : State} (hmsg : s.bufLen .msg ≤ 4096) (haux : s.bufLen .aux ≤ 512)
    (hn : s.pubKey.n ≠ 0) :
    s.pkcs1VerifyOp = .ok (pkcs1VerifySignature s.digest s.pubKey (s.val .msg) (s.val .aux)) := by
  have hcap : (s.overCap .msg || s.overCap .aux) = false := by
    rw [overCap_eq_false s hmsg, overCap_eq_false s haux]; rfl
  rw [State.pkcs1VerifyOp, if_neg (by rw [hcap]; nofun), pubKey_check_ok hn]
  rfl

/-! ### The two commands one after the other -/

/-- What a verify command reads once the host has put the OUT of a sign command into AUX: the signature, and the message,
salt length, digest and key of the state `s` that signed. -/
structure ReceivesSignature (s u : State) (c : Bytes) : Prop where
  length : c.length ≤ 512
  aux : u.val .aux = c
  msg : u.val .msg = s.val .msg
  saltLen : u.saltLen = s.saltLen
  digest : u.digest = s.digest
  key : u.pubKey = s.pubKey

theorem receivesSignature_out {s : State} {c : Bytes} {n : Nat} (hc : c.length ≤ 512) : ReceivesSignature s
    { s with
      aux := Buffer.ofBytes c, out := Buffer.ofBytes c, em := Buffer.empty, xi := 0, status := doneFlags s false none
      draws := n } c :=
  ⟨hc, State.val_of_buf rfl (by omega), rfl, rfl, rfl, rfl⟩

section RoundTrip

variable {s u : State} {fix : Bool} {c : Bytes}

theorem receivesSignature_aux_le (hrec : ReceivesSignature s u c) : u.bufLen .aux ≤ 512 := by
  rw [← State.val_length, hrec.aux]
  exact hrec.length

theorem receivesSignature_msg_le (hrec : ReceivesSignature s u c) (hmsg : s.bufLen .msg ≤ 4096) :
    u.bufLen .msg ≤ 4096 := by
  rwa [← State.val_length, hrec.msg, State.val_length]

theorem pssVerifyOp_of_signed (hpair : RsaPair s.pubKey s.privKey) (hrec : ReceivesSignature s u c)
    (hmsg : s.bufLen .msg ≤ 4096) (h : s.pssSignOp fix = .ok c) : u.pssVerifyOp = .ok true := by
  obtain ⟨hn, -, em, henc, hc⟩ := pssSignOp_eq_ok h
  have hsize := (rsaPair_exponent hpair).1
  have hlen := signEm_length hc
  rw [hsize] at hn henc hlen
  have hem := recoverEm_of_signEm hpair (pssEncode_value_lt_modulus hn henc) hc
  rw [pssEncode_length henc] at hem
  have hok := pssVerifySignature_iff.mpr ⟨hlen, em, hem, pssAccepts_of_encode henc⟩
  rw [pssVerifyOp_eq (receivesSignature_msg_le hrec hmsg) (receivesSignature_aux_le hrec) (by rwa [hrec.key]), hrec.aux,
    hrec.msg, hrec.saltLen, hrec.digest, hrec.key, hok]

theorem pkcs1VerifyOp_of_signed (hpair : RsaPair s.pubKey s.privKey) (hrec : ReceivesSignature s u c)
    (hmsg : s.bufLen .msg ≤ 4096) (h : s.pkcs1SignOp = .ok c) : u.pkcs1VerifyOp = .ok true := by
  obtain ⟨hn, -, em, henc, hc⟩ := pkcs1SignOp_eq_ok h
  have hsize := (rsaPair_exponent hpair).1
  have hlen := signEm_length hc
  rw [hsize] at hn henc hlen
  have hem := recoverEm_of_signEm hpair (p1sEncode_value_lt hn henc) hc
  rw [p1sEncode_length henc] at hem
  have hok := pkcs1VerifySignature_iff.mpr ⟨hlen, em, henc, hem⟩
  rw [pkcs1VerifyOp_eq (receivesSignature_msg_le hrec hmsg) (receivesSignature_aux_le hrec) (by rwa [hrec.key]), hrec.aux,
    hrec.msg, hrec.digest, hrec.key, hok]

end RoundTrip

/-- Settles O60: with keys that belong together, the recovered encoded message is the signed one. -/
theorem signVerifyRoundTrip : Obligations.SignVerifyRoundTrip := by
  intro s t fix hpair ht
  refine ⟨fun h => ?_, fun h => ?_⟩
  · have hover := not_overCapacity_of_exec h ht
    have hmsg : s.bufLen .msg ≤ 4096 := Nat.le_of_not_lt fun hlt => hover (.inl hlt)
    obtain ⟨c, hop, rfl⟩ := exec_schemeOut_eq_next (i := .pssSign fix) rfl h ht
    refine ⟨_, exec_schemeVerdict_accept (i := .pssVerify) rfl ?_, rfl, rfl⟩
    exact pssVerifyOp_of_signed hpair (receivesSignature_out (pssSignOp_length hop)) hmsg hop
  · have hmsg : s.bufLen .msg ≤ 4096 := Nat.le_of_not_lt (not_overCapacity_of_exec h ht)
    obtain ⟨c, hop, rfl⟩ := exec_schemeOut_eq_next (i := .pkcs1Sign) rfl h ht
    refine ⟨_, exec_schemeVerdict_accept (i := .pkcs1Verify) rfl ?_, rfl, rfl⟩
    exact pkcs1VerifyOp_of_signed hpair (receivesSignature_out (pkcs1SignOp_length hop)) hmsg hop

end Sys2Proof.Machine
end

/-! ## PKCS#1 v1.5 signatures (45_pkcs1_signature.md R210 to R213) -/

section
namespace Sys2Proof.Machine

/-! ### Encoding as a function -/

theorem p1sEncode_of_short {D : Digest} {m : Bytes} {n : Nat} (h : n < D.infoPrefix.length + D.hLen + 11) :
    p1sEncode D m n = .error .encodingError := if_pos (by rwa [p1sT_length])

/-- Where `T` fits with 11 octets more, encoding gives the string of R210, its parts written out. -/
theorem p1sEncode_of_fits {D : Digest} (m : Bytes) {n : Nat} (h : D.infoPrefix.length + D.hLen + 11 ≤ n) :
    p1sEncode D m n = .ok ([0x00, 0x01] ++ List.replicate (n - (D.infoPrefix.length + D.hLen) - 3) 0xFF ++ [0x00]
      ++ D.infoPrefix ++ D.hash m) :=
  p1sEncode_eq_ok.mpr ⟨h, List.append_assoc ..⟩

/-! ### P1S_ENC -/

/-- Within the capacities `P1S_ENC` encodes (R211). -/
theorem p1sEncOp_eq {s : State} {len : Nat} (hmsg : s.bufLen .msg ≤ 4096) (hlen : len ≤ 512) :
    s.p1sEncOp len = p1sEncode s.digest (s.val .msg) len :=
  if_neg (capacity_ok (overCap_eq_false s hmsg) hlen)

/-- `P1S_ENC` writes EM or fails as its encoding does (R211). -/
theorem exec_p1sEnc (s : State) (len : Nat) :
    exec (.p1sEnc len) s = .next (s.finishEm .component (s.p1sEncOp len)) := rfl

/-- Settles O57: past the capacity checks the length alone decides. -/
theorem p1sEncCompletes : Obligations.P1sEncCompletes := by
  intro s len tLen htLen hmsg hlen
  subst htLen
  rw [exec_p1sEnc, p1sEncOp_eq hmsg hlen]
  refine ⟨fun hfit => ?_, fun hshort => ?_⟩
  · have henc := p1sEncode_of_fits (s.val .msg) hfit
    exact ⟨_, rfl, p1sEncode_length henc, by rw [henc, finishEm_component_ok]⟩
  · rw [p1sEncode_of_short hshort, finishEm_error s (i := .p1sEnc len) rfl rfl]

/-! ### PKCS1_SIGN and PKCS1_VERIFY -/

section Sign

variable {s : State} (hmsg : s.bufLen .msg ≤ 4096)
include hmsg

/-- Within the capacity `PKCS1_SIGN` checks the key, encodes and signs (R212). -/
theorem pkcs1SignOp_eq : s.pkcs1SignOp = s.privKey.check >>= fun priv =>
    p1sEncode s.digest (s.val .msg) (kOf priv.n) >>= signEm priv :=
  if_neg (by rw [overCap_eq_false s hmsg]; nofun)

theorem pkcs1SignOp_of_zero (hn : s.privKey.n = 0) : s.pkcs1SignOp = .error .illegalParameter :=
  (pkcs1SignOp_eq hmsg).trans (bind_eq_error _ (privKey_check_zero hn))

theorem pkcs1SignOp_of_ne_zero (hn : s.privKey.n ≠ 0) (hw : s.privKey.n < 2 ^ 4096) :
    s.pkcs1SignOp = p1sEncode s.digest (s.val .msg) (kOf s.privKey.n) >>= signEm s.privKey := by
  rw [pkcs1SignOp_eq hmsg, privKey_check_ok hn hw]
  rfl

end Sign

/-- Settles O58: the encoding is a representative, so that signing it cannot fail. -/
theorem pkcs1SignCompletes : Obligations.Pkcs1SignCompletes := by
  intro s k hk hmsg hw
  obtain rfl : k = kOf s.privKey.n := hk
  have hop (hn : s.privKey.n ≠ 0) := pkcs1SignOp_of_ne_zero hmsg hn hw
  have herr {e : ErrKind} (h : s.pkcs1SignOp = .error e) := exec_out_error (i := .pkcs1Sign) rfl h rfl rfl rfl
  refine ⟨fun hn hfit => ?_, fun hn => herr (pkcs1SignOp_of_zero hmsg hn),
    fun hn hshort => herr ((hop hn).trans (bind_eq_error _ (p1sEncode_of_short hshort)))⟩
  have henc := p1sEncode_of_fits (s.val .msg) hfit
  have hlt := p1sEncode_value_lt hn henc
  have hc := signEm_of_lt hlt
  exact ⟨_, _, henc, signEm_length hc, os2ip_of_signEm hlt hc,
    exec_schemeOut_ok (i := .pkcs1Sign) rfl ((hop hn).trans (bind_eq_ok.mpr ⟨_, henc, hc⟩))⟩

/-- Settles O59: the encoding has `k` octets, so that it is recovered exactly when RSAVP1 gives its value. -/
theorem pkcs1VerifyCompletes : Obligations.Pkcs1VerifyCompletes := by
  intro s n k sig hN hk hsig hmsg haux hn
  obtain rfl : n = s.pubKey.n := hN
  obtain rfl : k = kOf s.pubKey.n := hk
  subst hsig
  have hop := pkcs1VerifyOp_eq hmsg haux hn
  refine ⟨fun em hlen hlt henc hvalue => ?_, fun hreject => ?_⟩
  · have hok := pkcs1VerifySignature_iff.mpr ⟨(State.val_length s .aux).trans hlen, em, henc,
      recoverEm_eq_ok.mpr ⟨hlt, p1sEncode_length henc, hvalue.symm⟩⟩
    exact exec_schemeVerdict_accept (i := .pkcs1Verify) rfl (hop.trans (congrArg _ hok))
  · refine exec_schemeVerdict_reject (i := .pkcs1Verify) rfl
      (hop.trans (congrArg _ (Bool.eq_false_iff.mpr fun hok => ?_))) rfl rfl
    obtain ⟨hlen, em, henc, hrec⟩ := pkcs1VerifySignature_iff.mp hok
    obtain ⟨hlt, -, hvalue⟩ := recoverEm_eq_ok.mp hrec
    rcases hreject with hne | hge | hnone
    · exact hne ((State.val_length s .aux).symm.trans hlen)
    · exact Nat.not_lt.mpr hge hlt
    · exact hnone em henc hvalue.symm

end Sys2Proof.Machine
end

/-! ## Errors and verdicts (60_exceptions.md R230, R232, R239) -/

section
namespace Sys2Proof.Machine

section Errors

variable {i : Instr} {s t : State} {e : ErrKind}

/-- A command fails with a listed kind and leaves the state of rule R232, or it ends with ERR = OK and VALID = 1 just
where its rule produces VALID. -/
theorem exec_failed_or_ok (h : exec i s = .next t) :
    (∃ e ∈ mayReport i, t = s.failed i e) ∨ t.status = doneFlags s (producesValid i) none := by
  cases exec_cases h with
  | failure e kind eq => exact .inl ⟨e, kind, eq⟩
  | out x n len pv dest layer eq | schemeOut x n len pv dest layer eq | em x n len pv dest layer eq =>
    exact .inr (by rw [eq, pv])
  | xi x pv dest layer eq => exact .inr (by rw [eq, pv])
  | accept pv layer eq | schemeAccept pv layer eq => exact .inr (by rw [eq, pv])
  | clear sel instr eq => exact .inr (by rw [eq, instr]; rfl)

@[simp] theorem failed_err (s : State) (i : Instr) (e : ErrKind) : (s.failed i e).status.err = some e := rfl

/-- An error at the end says how the command failed: ERR is OK after a success. -/
theorem failed_of_err (h : exec i s = .next t) (he : t.status.err = some e) : e ∈ mayReport i ∧ t = s.failed i e := by
  obtain ⟨e', kind, rfl⟩ | ok := exec_failed_or_ok h
  · rw [failed_err, Option.some.injEq] at he
    subst he
    exact ⟨kind, rfl⟩
  · rw [ok] at he
    cases he

/-- The kinds a verifying command can report (60_exceptions.md R239). -/
theorem verdict_kinds (hi : producesValid i = true) (he : e ∈ mayReport i) :
    e = .invalidSignature ∨ e = .capacityExceeded ∨ e = .illegalParameter := by
  cases i
  case cmpem | pssVfy | pssVerify | pkcs1Verify =>
    simp only [mayReport, List.mem_cons, List.not_mem_nil, or_false] at he
    tauto
  all_goals cases hi

end Errors

/-- Settles O22: a failure leaves VALID 0 with a kind of the command's list, a success VALID as the command's rule
says. -/
theorem verdictFlagsAgree : Obligations.VerdictFlagsAgree := by
  intro i s t h
  obtain ⟨e, kind, rfl⟩ | ok := exec_failed_or_ok h
  · exact ⟨fun hi => .inr ⟨rfl, by simpa using verdict_kinds hi kind⟩, fun _ => rfl⟩
  · rw [ok]
    exact ⟨fun hi => .inl ⟨hi, rfl⟩, fun hi => hi⟩

/-- Settles O24: a command that reports an error ended as rule R232 says, and an illegal word is only retired. -/
theorem failureClearsDestinations : Obligations.FailureClearsDestinations :=
  ⟨fun _ _ _ _ h he => (failed_of_err h he).2, fun _ _ hw => by rw [complete_of_illegal hw]; rfl⟩

/-- Settles O25: a kind in ERR is that of the command's failure, which is in its list. -/
theorem errorKindsPerCommand : Obligations.ErrorKindsPerCommand := fun _ _ _ _ h he => (failed_of_err h he).1

end Sys2Proof.Machine
end

/-! ## The two forms of a `PrivKey` (40_converters_primitives.md R119) -/

section
namespace Sys2Proof.Machine

/-- Settles O38: both forms raise to the exponent `d` modulo `p*q`, since for odd primes neither reduced exponent
is 0. -/
theorem crtAgreesWithModulus : Obligations.CrtAgreesWithModulus := by
  intro p q e d qinv c hp hq hne hp2 hq2 hed hinv _
  have hdp : d % (p - 1) ≠ 0 := mod_sub_one_ne_zero hp2 (Nat.dvd_lcm_left _ (q - 1)) hed
  have hdq : d % (q - 1) ≠ 0 := mod_sub_one_ne_zero hq2 (Nat.dvd_lcm_right (p - 1) _) hed
  calc (PrivKey.crt p q (d % (p - 1)) (d % (q - 1)) qinv).apply c
      = c ^ d % (p * q) := apply_crt_eq_pow_mod hp hq hne hdp hdq hinv c
    _ = (PrivKey.modulus (p * q) d).apply c := (apply_modulus (p * q) d c).symm

end Sys2Proof.Machine
end

/-! ## Steps of the command unit (10_state.md R36, R40; 30_encoding.md R87; 70_reset_and_hazards.md R262) -/

section
namespace Sys2Proof.Machine

/-! ### The command unit's turn, busy and idle -/

theorem unitTurn_of_busy {s : State} (hb : s.status.busy = true) : s.unitTurn = s.complete := if_pos hb

theorem unitTurn_of_idle {s : State} (hb : s.status.busy = false) : s.unitTurn = .next s := by
  rw [State.unitTurn, hb]
  exact if_neg Bool.false_ne_true

/-- With no turn left the command unit has it (log 1). -/
theorem step_of_nil {s : State} (hs : s.script = []) : step s = s.unitTurn := by rw [step, State.turn, hs]

/-- The step after `withFetchWord` completes the launched word under the schedule as it was: the command unit's turn is
put before the other turns, and where there are none it comes by itself (log 9). -/
theorem step_withFetchWord (s : State) (nbits w : Nat) :
    step (s.withFetchWord nbits w) = (s.launch (BitVec.ofNat 32 (w % 2 ^ nbits))).complete := by
  cases hs : s.script with
  | nil =>
    have hfetch : s.withFetchWord nbits w = s.launch (BitVec.ofNat 32 (w % 2 ^ nbits)) := by
      rw [State.withFetchWord, State.launchNext, State.launch, hs]
      rfl
    rw [hfetch]
    exact (step_of_nil (s := s.launch _) hs).trans (unitTurn_of_busy (s := s.launch _) rfl)
  | cons turn rest =>
    have hfetch : (s.withFetchWord nbits w).script = .commandUnit :: s.script := by
      rw [State.withFetchWord, State.launchNext, hs]
      rfl
    exact step_of_commandUnit hfetch rfl

/-- Settles O4: each of the three steps is the completion of the latched word, and that word decodes to `i`. -/
theorem stepRunsDecodedCommand : Obligations.StepRunsDecodedCommand := by
  refine fun s i => ⟨fun hb hd hs => ?_, fun rest hb hd hs => ?_, fun nbits w hd => ?_⟩
  · calc step s = s.unitTurn := step_of_nil hs
      _ = s.complete := unitTurn_of_busy hb
      _ = exec i s := complete_of_legal hd
  · exact (step_of_commandUnit hs hb).trans (complete_of_legal hd)
  · exact (step_withFetchWord s nbits w).trans (complete_of_legal hd)

/-! ### No step stops the machine -/

/-- No command stops the machine: each ends in a state, its errors in STATUS (70_reset_and_hazards.md R262). -/
theorem exec_answers (i : Instr) (s : State) : ∃ t, exec i s = .next t := by cases i <;> exact ⟨_, rfl⟩

/-- No word stops the machine, legal or not (30_encoding.md R87). -/
theorem complete_answers (s : State) : ∃ t, s.complete = .next t := by
  cases hd : decode s.cmdl with
  | error e => exact ⟨_, complete_of_illegal hd⟩
  | ok i => exact complete_of_legal hd ▸ exec_answers i s

theorem unitTurn_answers (s : State) : ∃ t, s.unitTurn = .next t := by
  cases hb : s.status.busy with
  | false => exact ⟨s, unitTurn_of_idle hb⟩
  | true => exact unitTurn_of_busy hb ▸ complete_answers s

/-- Every turn of the schedule ends in a state. -/
theorem step_answers (s : State) : ∃ t, step s = .next t := by
  unfold step State.turn
  split
  · exact unitTurn_answers s
  · exact unitTurn_answers _
  · exact ⟨_, rfl⟩
  · exact ⟨_, rfl⟩

/-- Settles O9: every kind of turn answers a state, and an idle turn of the command unit the same one. -/
theorem everyStepAnswersNext : Obligations.EveryStepAnswersNext :=
  ⟨step_answers, fun _ hb hs => (step_of_nil hs).trans (unitTurn_of_idle hb)⟩

end Sys2Proof.Machine
end
